-- ==== Sys2Proof/Word.lean ====
section
/-! DEFINITION. The word types of the VDSP (00_scope.md R13 to R15). -/

namespace Sys2Proof

/-- A stream word or 32-bit register (R13): bit 0 is the least significant bit. -/
abbrev Word := BitVec 32

/-- A sample value F, held as its IEEE 754 binary32 encoding (R15, `bits(x)`). -/
abbrev F := BitVec 32

/-- The VOICE field of a command word: 0..63 (30_encoding.md R101). -/
abbrev VoiceIx := BitVec 6

end Sys2Proof
end

