-- ==== Sys2Proof/Config.lean ====
section
/-! DEFINITION. What an implementation fixes: the FIXED values of 00_scope.md R11, the OPEN parameters of R11 as
one plain record, and the free values (opaque constants, no body: nothing can be proved of what they are). -/

namespace Sys2Proof

/-- ENV_LOOP_MODE (R11; 43_envelope_lfo.md R262). -/
inductive LoopMode where
  | always
  | sustainExclusive
  deriving DecidableEq, Repr

/-- SUM_ORDER (R11; 41_resampler.md R176): the written order, or any association order of the same terms. -/
inductive SumOrder where
  | scalar
  | reassociated
  deriving DecidableEq, Repr

/-- HOST_BYTE_ORDER (R11; 20_memory.md R83): a host transport's byte order; no effect inside the block. The spec names
little-endian, the default, and lists no other value: that big-endian is the one other value is a DESIGN CHOICE (unsafe
for a claim over every byte order; log entry 24). -/
inductive ByteOrder where
  | little
  | big
  deriving DecidableEq, Repr

/-- The OPEN parameters of R11 that are plain data. NV is the number of voice contexts of a state, and FILTER_COEF,
a function, is `Config.filterCoef`. The machine holds this record in its state so that every claim over all states is
a claim over all parameter values (R12; log entry 1). No command changes it. -/
structure Params where
  blepStep   : Nat
  blamStep   : Nat
  /-- numerator of the rational SINC_CUT -/
  sincNum    : Nat
  /-- denominator of the rational SINC_CUT -/
  sincDen    : Nat
  decayK     : F
  decayFloor : F
  fadeInit   : Word
  loopMode   : LoopMode
  sumOrder   : SumOrder
  byteOrder  : ByteOrder
  deriving DecidableEq, Repr

/-- The candidate and default values of R11. DESIGN CHOICE (unsafe for a claim about `State.reset` alone): R12 says that
a claim proved for a candidate value holds for that value only (log entry 1). -/
def Params.candidate : Params where
  blepStep   := 921
  blamStep   := 952
  sincNum    := 999
  sincDen    := 1000
  decayK     := 0x39000000#32  -- 2^-13
  decayFloor := 0x1E3CE508#32  -- the binary32 value nearest to 1e-20
  fadeInit   := 1024#32
  loopMode   := .always
  sumOrder   := .scalar
  byteOrder  := .little

/-- Parameter values under which every kernel step lies in 0..1024, as 41_resampler.md R163 and R169 require. -/
abbrev Params.wf (p : Params) : Prop :=
  p.blepStep ≤ 1024 ∧ p.blamStep ≤ 1024 ∧ 0 < p.sincDen ∧ p.sincNum ≤ p.sincDen

/-- The four binary32 operations that can produce a NaN (R15). -/
inductive FOp where
  | add
  | sub
  | mul
  | div
  deriving DecidableEq, Repr

namespace Config

/-- BUF: the capacity of each ring (R11). -/
def buf : Nat := 64
/-- W: the sinc half-width (R11). -/
def halfWidth : Nat := 16
/-- RES: the kernel-phase resolution (R11). -/
def res : Nat := 1024
/-- TAPS = 2*W (R11). -/
def taps : Nat := 32
/-- QMAX (R11). -/
def qMax : Nat := 5
/-- NMAX: nodes per envelope (R11). -/
def nMax : Nat := 25
/-- RATIO_MIN = 2^27, a ratio of 1/32 in Q32.32 (R11). -/
def ratioMin : Nat := 2 ^ 27
/-- RATIO_MAX = 2^37, a ratio of 32.0 in Q32.32 (R11). -/
def ratioMax : Nat := 2 ^ 37
/-- VOL_MAX: the declick volume ceiling, Q16 (R11). -/
def volMax : Nat := 0x7FFFF
/-- RAMP_DELTA_RESET (R11). -/
def rampDeltaReset : Word := 1024#32

/-- The ID register's constant (10_state.md R33). -/
def idWord : Word := 0x00220007#32

/-- The CAPS register's constant, `BUF | (W << 8) | (NMAX << 16) | (QMAX << 24)` (10_state.md R35). -/
def capsWord : Word := BitVec.ofNat 32 (buf + halfWidth * 2 ^ 8 + nMax * 2 ^ 16 + qMax * 2 ^ 24)

/-- The largest NV the 6-bit VOICE field allows (R11). -/
def nvMax : Nat := 64

/-- NV at `State.reset`. DESIGN CHOICE (unsafe for a claim about `State.reset` alone): NV is OPEN; 4 is the value of
95_test_vectors.md's conventions (log entry 2). -/
def nvReset : Nat := 4

/-- FILTER_COEF(cutoff, resonance, fs): the words A, B, C (42_filter.md R243). An OPEN function parameter: FREE, so no
claim can rest on a candidate's bits (93_implementation_defined.md U12; log entry 3). -/
opaque filterCoef (cutoff : BitVec 16) (resonance : BitVec 8) (fs : Word) : Word × Word × Word

/-- The choices that make up a free association order (41_resampler.md R176, U15): for draw number `draw`, the `k`-th
pick of an operand among the terms still to be summed. FREE (log entry 4). -/
opaque sumPick (draw k : Nat) : Nat

/-- The encoding an operation gives a NaN result, as a function of the operation and its operands. FREE: 00_scope.md R15
names IEEE 754, which fixes no NaN encoding (log entry 5). Used through `Machine.nanOf`, which makes it a NaN. -/
opaque nanBits (op : FOp) (a b : F) : F

end Config

end Sys2Proof
end

