-- ==== Sys2Proof/Machine/Arith.lean ====
section
/-! DEFINITION. Integer arithmetic (00_scope.md R14) and the fixed-point products of the MAC unit (40_mac.md R131 to
R139), as functions on mathematical integers, narrowed to words at the end. -/

namespace Sys2Proof.Machine

open Sys2Proof

/-- `s32(x)` = `wrap32(x)`: the two's-complement reading of x mod 2^32 (R14). -/
def s32 (x : Int) : Int := (BitVec.ofInt 32 x).toInt

/-- `u32(x)` as a word: x mod 2^32 (R14). -/
def u32 (x : Int) : Word := BitVec.ofInt 32 x

/-- `sext_N(v)` of a bit field (R14). -/
def sext {n : Nat} (b : BitVec n) : Int := b.toInt

/-- `clamp(x, lo, hi)` (R14). -/
def clamp (x lo hi : Int) : Int := min (max x lo) hi

/-- `tdiv(a, b)`: division rounded toward zero (R14). -/
def tdiv (a b : Int) : Int := Int.tdiv a b

/-- `shl32(a, n)` = s32(a * 2^n) (40_mac.md R131). -/
def shl32 (a : Int) (n : Nat) : Int := s32 (a * 2 ^ n)

/-- `hi32(x, y)` = floor(x * y / 2^32) (40_mac.md R132). -/
def hi32 (x y : Int) : Int := (x * y).fdiv (2 ^ 32)

/-- MULSC as a function (40_mac.md R135). -/
def mulsc (a b : Int) : Int := hi32 (shl32 a 4) (shl32 b 12)

/-- MULSCV as a function (40_mac.md R136). -/
def mulscv (a b : Int) : Int := hi32 a b

/-- MULSCA as a function (40_mac.md R137). -/
def mulsca (x c : Int) : Int := hi32 (shl32 x 4) c

/-- MULSC16 as a function (40_mac.md R138). -/
def mulsc16 (a b : Int) : Int := hi32 (shl32 a 12) (shl32 b 12)

/-- LERP as a function (40_mac.md R139). -/
def lerp (a b f : Int) : Int := s32 (a + mulsc (s32 (b - a)) f)

end Sys2Proof.Machine
end

