-- ==== Sys2Proof/Machine/Float.lean ====
section
/-! DEFINITION. The sample arithmetic F: IEEE 754 binary32, round to nearest, ties to even, subnormals kept, no fused
operation (00_scope.md R15). Every operation decodes its operands to exact values, computes exactly, and rounds once.

A finite binary32 value is a whole multiple of 2^-149, so a magnitude is a natural number in units of 2^-149, or a
quotient of naturals in those units. -/

namespace Sys2Proof.Machine

open Sys2Proof

/-- What an encoding stands for. `finite neg m` is m * 2^-149, negated when `neg` (so `finite true 0` is -0.0). -/
inductive FVal where
  | nan
  | inf (neg : Bool)
  | finite (neg : Bool) (mag : Nat)
  deriving DecidableEq, Repr

/-- Read a binary32 encoding: sign, 8 exponent bits, 23 fraction bits. -/
def fval (x : F) : FVal :=
  let e := (x.toNat / 2 ^ 23) % 2 ^ 8
  let m := x.toNat % 2 ^ 23
  if e = 255 then (if m = 0 then .inf x.msb else .nan)
  else if e = 0 then .finite x.msb m
  else .finite x.msb ((2 ^ 23 + m) * 2 ^ (e - 1))

/-- Whether an encoding is a NaN. -/
def isNan (x : F) : Bool := fval x == .nan

/-- The encoding of a magnitude `b` (bits 30:0) with a sign. -/
def withSign (neg : Bool) (b : Nat) : F := BitVec.ofNat 32 (if neg then 2 ^ 31 + b else b)

/-- The quotient of naturals rounded to the nearest natural, ties to even. -/
def divNearestEven (num den : Nat) : Nat :=
  let q := num / den
  let r := num % den
  if den < 2 * r ∨ (2 * r = den ∧ q % 2 = 1) then q + 1 else q

/-- Bits 30:0 of the binary32 value nearest to (num/den) * 2^-149, ties to even; an overflow gives infinity. The kept
significand has 24 bits above the exponent step `e`, fewer for a subnormal; a significand that rounds up to 2^24 carries
into the exponent field by itself. -/
def roundMag (num den : Nat) : Nat :=
  let e := Nat.log2 (num / den) - 23
  min (e * 2 ^ 23 + divNearestEven num (den * 2 ^ e)) 0x7F800000

/-- `round_F` of ±(num/den) * 2^-149 (R15). -/
def roundUnits (neg : Bool) (num den : Nat) : F := withSign neg (roundMag num den)

/-- `round_F` of the rational num/den (R15). -/
def roundRat (num : Int) (den : Nat) : F := roundUnits (num < 0) (num.natAbs * 2 ^ 149) den

/-- The NaN an operation answers: the free encoding of `Config.nanBits` where that is a NaN, else the default quiet NaN;
so every NaN encoding is possible and nothing else (log entry 5). -/
def nanOf (op : FOp) (a b : F) : F :=
  let n := Config.nanBits op a b
  if isNan n then n else 0x7FC00000#32

/-- Infinity with a sign. -/
def infF (neg : Bool) : F := withSign neg 0x7F800000

/-- The signed integer, in units of 2^-149, of a finite value. -/
def signedMag (neg : Bool) (mag : Nat) : Int := if neg then -mag else mag

/-- The sum of two values, `nan` being the NaN to answer. An exact zero sum is +0.0 unless both terms are -0.0. -/
def addVal (nan : F) : FVal → FVal → F
  | .nan, _ => nan
  | .inf _, .nan => nan
  | .inf s, .inf t => if s = t then infF s else nan
  | .inf s, .finite _ _ => infF s
  | .finite _ _, .nan => nan
  | .finite _ _, .inf t => infF t
  | .finite s m, .finite t n =>
    let x := signedMag s m + signedMag t n
    if x = 0 then withSign (s && t) 0 else roundUnits (x < 0) x.natAbs 1

/-- The negation of a value, for subtraction. -/
def negVal : FVal → FVal
  | .nan => .nan
  | .inf s => .inf (!s)
  | .finite s m => .finite (!s) m

/-- `+F` (R15). -/
def fadd (a b : F) : F := addVal (nanOf .add a b) (fval a) (fval b)

/-- `-F` (R15). -/
def fsub (a b : F) : F := addVal (nanOf .sub a b) (fval a) (negVal (fval b))

/-- `*F` (R15). -/
def fmul (a b : F) : F :=
  match fval a, fval b with
  | .nan, _ => nanOf .mul a b
  | _, .nan => nanOf .mul a b
  | .inf s, .inf t => infF (s ^^ t)
  | .inf s, .finite t n => if n = 0 then nanOf .mul a b else infF (s ^^ t)
  | .finite s m, .inf t => if m = 0 then nanOf .mul a b else infF (s ^^ t)
  | .finite s m, .finite t n => roundUnits (s ^^ t) (m * n) (2 ^ 149)

/-- `/F` (R15). -/
def fdiv (a b : F) : F :=
  match fval a, fval b with
  | .nan, _ => nanOf .div a b
  | _, .nan => nanOf .div a b
  | .inf _, .inf _ => nanOf .div a b
  | .inf s, .finite t _ => infF (s ^^ t)
  | .finite s _, .inf t => withSign (s ^^ t) 0
  | .finite s m, .finite t n =>
    if n = 0 then (if m = 0 then nanOf .div a b else infF (s ^^ t))
    else roundUnits (s ^^ t) (m * 2 ^ 149) n

/-- IEEE `x != 0`: a NaN differs from 0, and -0.0 = +0.0 (R15). -/
def fneZero (x : F) : Bool :=
  match fval x with
  | .finite _ m => m != 0
  | .nan => true
  | .inf _ => true

/-- IEEE `|a| < b`; false when either is a NaN (R15). -/
def fabsLt (a b : F) : Bool :=
  match fval a, fval b with
  | .nan, _ => false
  | _, .nan => false
  | .inf _, _ => false
  | .finite _ _, .inf t => !t
  | .finite _ m, .finite t n => !t && decide (m < n)

/-- `f_of_int(n)` (R15). -/
def fOfInt (n : Int) : F := roundRat n 1

/-- `int_of_f(x)`: toward zero, saturating to [-2^31, 2^31 - 1]; a NaN gives 0 (R15). -/
def intOfF (x : F) : Int :=
  match fval x with
  | .nan => 0
  | .inf s => if s then -(2 ^ 31) else 2 ^ 31 - 1
  | .finite s m => min (max (signedMag s (m / 2 ^ 149)) (-(2 ^ 31))) (2 ^ 31 - 1)

/-- `ph(f)` = round_F(f * 2^-32) for a 32-bit phase fraction (R15). -/
def ph (f : BitVec 32) : F := roundRat f.toNat (2 ^ 32)

/-- The exact power of two 2^-k, for k < 127. -/
def twoPowNeg (k : Nat) : F := BitVec.ofNat 32 ((127 - k) * 2 ^ 23)

end Sys2Proof.Machine
end

