-- ==== Sys2Proof/Syntax.lean ====
section
/-! DEFINITION. The 44 commands of spec/opcode_table.json (30_encoding.md R104), one constructor each, carrying exactly
the fields the command uses (R102, R103, R105 to R108). -/

namespace Sys2Proof

/-- The two sides of a voice: lane, filter channel or declick side L (0) and R (1) (00_scope.md R17). -/
inductive Side where
  | left
  | right
  deriving DecidableEq, Repr

/-- The LANE field (R101, R105): L, R, both, or the reserved value 3. -/
inductive LaneSel where
  | left
  | right
  | both
  | reserved
  deriving DecidableEq, Repr

/-- The SEL field (R101, R106): 0 volume or vibrato, 1 pan or tremolo, 2 pitch or panbrello, 3 reserved. -/
inductive Sel where
  | s0
  | s1
  | s2
  | reserved
  deriving DecidableEq, Repr

/-- A command. An operand word is a `Word`; an immediate has the width R107 reads. -/
inductive Instr where
  -- control and MAC, OPC 0x00 to 0x09
  | nop
  | mulsc (a b : Word)
  | mulscv (a b : Word)
  | mulsca (x c : Word)
  | mulsc16 (a b : Word)
  | lerp (a b f : Word)
  | aclr
  | aadd (x : Word)
  | amac (x c : Word)
  | ard
  -- resampler, OPC 0x10 to 0x1C
  | rsInit (v : VoiceIx) (lane : LaneSel)
  | rsClear (v : VoiceIx) (lane : LaneSel)
  | rsSetq (v : VoiceIx) (lane : LaneSel) (level : BitVec 16)
  | rsSetrate (v : VoiceIx) (lane : LaneSel) (lo hi : Word)
  | rsWrite (v : VoiceIx) (lane : LaneSel) (sample : BitVec 16)
  | rsWritef (v : VoiceIx) (lane : LaneSel) (depth : BitVec 6) (value : Word)
  | rsFree (v : VoiceIx) (lane : LaneSel)
  | rsReady (v : VoiceIx) (lane : LaneSel)
  | rsCount (v : VoiceIx) (lane : LaneSel)
  | rsGet (v : VoiceIx) (lane : LaneSel)
  | rsGetf (v : VoiceIx) (lane : LaneSel)
  | rsRemove (v : VoiceIx) (lane : LaneSel) (decay : Bool)
  | rsDup (v : VoiceIx) (lane : LaneSel) (srcVoice : VoiceIx) (srcLane : Side)
  -- filter, OPC 0x20 to 0x24
  | flCoef (v : VoiceIx) (cutoff : BitVec 16) (resonance : BitVec 8) (fs : Word)
  | flSetc (v : VoiceIx) (a b c : Word)
  | flRun (v : VoiceIx) (lane : LaneSel) (x : Word)
  | flReset (v : VoiceIx)
  | flEn (v : VoiceIx) (e : Bool)
  -- envelope, fade and LFO, OPC 0x28 to 0x2F
  | envReset (v : VoiceIx) (sel : Sel)
  | envTick (v : VoiceIx) (sel : Sel)
  | envRead (v : VoiceIx) (sel : Sel)
  | envRelease (v : VoiceIx) (k : Bool)
  | fadeStart (v : VoiceIx)
  | fadeTick (v : VoiceIx)
  | lfoReset (v : VoiceIx) (sel : Sel)
  | lfoTick (v : VoiceIx) (sel : Sel)
  -- declick, OPC 0x30 to 0x34
  | dckSettgt (v : VoiceIx) (l r : Word)
  | dckStep (v : VoiceIx) (xl xr : Word)
  | dckCut (v : VoiceIx)
  | dckRetrig (v : VoiceIx)
  | dckHk (v : VoiceIx)
  -- register access and voice reset, OPC 0x38 to 0x3A
  | regRd (v : VoiceIx) (idx : BitVec 12)
  | regWr (v : VoiceIx) (idx : BitVec 12) (w : Word)
  | vcReset (v : VoiceIx)
  deriving DecidableEq, Repr

end Sys2Proof
end

