-- ==== Sys2Proof/Machine/State.lean ====
section
/-! DEFINITION. The state of the VDSP (10_state.md), its reset, and the reasons a step can stop. -/

namespace Sys2Proof.Machine

open Sys2Proof

/-! ## Names for small fields -/

/-- The quality q of a lane: the kernel selector 0..5 (10_state.md R39). -/
inductive Quality where
  | zoh
  | blep
  | linear
  | blam
  | cubic
  | sinc
  deriving DecidableEq, Repr

/-- The LFO waveform SHAPE 0..3 (10_state.md R45). -/
inductive Shape where
  | sine
  | square
  | sawtooth
  | triangle
  deriving DecidableEq, Repr

/-- The declick STAGE 0..5 (44_declick.md R300). -/
inductive Stage where
  | silent
  | rampingIn
  | steady
  | cutRequested
  | rampedOut
  | dead
  deriving DecidableEq, Repr

/-- The six error causes; the STATUS bit of each is its place (60_exceptions.md R343). -/
inductive ErrCode where
  | opc
  | voice
  | lane
  | sel
  | reg
  | ro
  deriving DecidableEq, Repr

/-! ## The voice context -/

/-- A value for each side of a voice (00_scope.md R17). -/
structure Sides (α : Type) where
  left  : α
  right : α
  deriving DecidableEq, Repr

/-- A ring of BUF = 64 samples, addressed modulo 64 (20_memory.md R81). -/
abbrev Ring := Vector F 64

/-- A resampler lane RS[v][lane] (10_state.md R39). -/
structure Lane where
  q         : Quality
  inRing    : Ring
  outRing   : Ring
  wpos      : BitVec 6
  /-- pending-input count; negative while the lane is in input debt (41_resampler.md R164) -/
  wfill     : Int
  rpos      : BitVec 6
  /-- finished-output count, 0..64 (R40) -/
  rfill     : Nat
  phase     : BitVec 32
  inc       : BitVec 64
  iphase    : BitVec 32
  iinc      : BitVec 64
  inPrimed  : Bool
  outPrimed : Bool
  lastAmp   : F
  accum     : F
  deriving DecidableEq, Repr

/-- The filter of a voice (10_state.md R41). -/
structure Filter where
  en   : Bool
  a    : Word
  b    : Word
  c    : Word
  cur  : Sides Word
  prev : Sides Word
  deriving DecidableEq, Repr

/-- An envelope descriptor and its cursor (10_state.md R42, R43). -/
structure Envelope where
  flags : BitVec 3
  n     : Fin 26
  ls    : Fin 25
  le    : Fin 25
  ss    : Fin 25
  se    : Fin 25
  t     : Vector (BitVec 16) 25
  y     : Vector (BitVec 8) 25
  tick  : BitVec 32
  next  : Fin 26
  value : Word
  deriving DecidableEq, Repr

/-- The three envelopes of a voice, by the selector of 00_scope.md R17. -/
structure Envelopes where
  volume : Envelope
  pan    : Envelope
  pitch  : Envelope
  deriving DecidableEq, Repr

/-- An LFO (10_state.md R45). -/
structure Lfo where
  shape : Shape
  pos   : BitVec 8
  speed : BitVec 8
  depth : BitVec 8
  deriving DecidableEq, Repr

/-- The three LFOs of a voice, by the selector of 00_scope.md R17. -/
structure Lfos where
  vibrato   : Lfo
  tremolo   : Lfo
  panbrello : Lfo
  deriving DecidableEq, Repr

/-- The declick state (10_state.md R46). VOL_MAX is 2^19 - 1, so the range 0..VOL_MAX of CUR and TGT is the type's. -/
structure Declick where
  stage : Stage
  cur   : Sides (BitVec 19)
  tgt   : Sides (BitVec 19)
  deriving DecidableEq, Repr

/-- A voice context R[v] (10_state.md R38). -/
structure Voice where
  lanes    : Sides Lane
  filter   : Filter
  envs     : Envelopes
  released : Bool
  fade     : Word
  fadeRate : Word
  fading   : Bool
  lfos     : Lfos
  declick  : Declick
  deriving DecidableEq, Repr

/-! ## The machine -/

/-- The global state G (10_state.md R32), with the parameters and the draw counter of the model beside it. -/
structure State where
  /-- the six sticky error bits (R34) -/
  status    : BitVec 6
  /-- ACC (R36) -/
  acc       : Word
  /-- RAMP_DELTA (R37) -/
  rampDelta : Word
  /-- the NV voice contexts R[0..NV-1] (R38); NV is the length of this list -/
  voices    : List Voice
  /-- the words pushed and not yet consumed, oldest first (20_memory.md R85) -/
  input     : List Word
  /-- the words emitted and not yet taken by the host, oldest first (R32) -/
  responses : List Word
  /-- the OPEN parameters (00_scope.md R11): the MODEL's field, changed by no command (log entry 1) -/
  params    : Params
  /-- how many free summation orders have been drawn: the MODEL's field (41_resampler.md R176; log entry 4) -/
  draws     : Nat
  deriving DecidableEq, Repr

/-- Why a step answers no next state although nothing is refused. -/
inductive Fault where
  /-- Raised by `step` alone: the stream holds no complete command, so the block is waiting and "has no step until the
  host pushes another word" (20_memory.md R85; stuck, 93_implementation_defined.md U7). No error of the block, and no
  state is lost (60_exceptions.md R356). Safe. -/
  | waiting
  deriving DecidableEq, Repr

/-- Why a step is refused. -/
inductive Refusal where
  /-- Raised by an arm of `exec` whose instruction has no meaning yet; no arm does so. Safe. -/
  | notModelled (mnemonic : String)
  deriving DecidableEq, Repr

/-! ## Reset (70_reset_and_hazards.md R370) -/

/-- The reset state of a lane, which is its state after RS.INIT (10_state.md R39). -/
def Lane.reset : Lane where
  q         := .sinc
  inRing    := Vector.replicate 64 0#32
  outRing   := Vector.replicate 64 0#32
  wpos      := 15#6
  wfill     := 0
  rpos      := 0#6
  rfill     := 0
  phase     := 0#32
  inc       := 0#64
  iphase    := 0#32
  iinc      := 0#64
  inPrimed  := false
  outPrimed := false
  lastAmp   := 0#32
  accum     := 0#32

/-- The reset state of a filter (10_state.md R41). -/
def Filter.reset : Filter where
  en   := false
  a    := 0x10000000#32
  b    := 0#32
  c    := 0#32
  cur  := ⟨0#32, 0#32⟩
  prev := ⟨0#32, 0#32⟩

/-- The reset state of an envelope (10_state.md R42, R43). -/
def Envelope.reset : Envelope where
  flags := 0#3
  n     := 0
  ls    := 0
  le    := 0
  ss    := 0
  se    := 0
  t     := Vector.replicate 25 0#16
  y     := Vector.replicate 25 0#8
  tick  := 0#32
  next  := 0
  value := 0#32

/-- The reset state of an LFO (10_state.md R45). -/
def Lfo.reset : Lfo where
  shape := .sine
  pos   := 0#8
  speed := 0#8
  depth := 0#8

/-- The reset state of the declick unit (10_state.md R46). -/
def Declick.reset : Declick where
  stage := .silent
  cur   := ⟨0#19, 0#19⟩
  tgt   := ⟨0#19, 0#19⟩

/-- The reset state of a voice context, for a start value FADE_INIT (10_state.md R38 to R46). -/
def Voice.reset (fadeInit : Word) : Voice where
  lanes    := ⟨Lane.reset, Lane.reset⟩
  filter   := Filter.reset
  envs     := ⟨Envelope.reset, Envelope.reset, Envelope.reset⟩
  released := false
  fade     := fadeInit
  fadeRate := 0#32
  fading   := false
  lfos     := ⟨Lfo.reset, Lfo.reset, Lfo.reset⟩
  declick  := Declick.reset

/-- Power-on reset with NV voice contexts and the parameters `p` (R370; 10_state.md R61). -/
def State.resetWith (nv : Nat) (p : Params) : State where
  status    := 0#6
  acc       := 0#32
  rampDelta := Config.rampDeltaReset
  voices    := List.replicate nv (Voice.reset p.fadeInit)
  input     := []
  responses := []
  params    := p
  draws     := 0

/-- Power-on reset with the candidate parameters and NV = 4 (DESIGN CHOICE, log entries 1 and 2; `draws` 0, log
entry 4). -/
def State.reset : State := State.resetWith Config.nvReset Params.candidate

end Sys2Proof.Machine
end

