-- ==== Sys2Proof/Machine/Operands.lean ====
section
/-! DEFINITION. How operand words and immediates are read (30_encoding.md R103, R107) and how fields are written out as
words (10_state.md R57). -/

namespace Sys2Proof.Machine

open Sys2Proof

/-- `s32(op(k))` (00_scope.md R14). -/
def sword (w : Word) : Int := w.toInt

/-- A word of a bit: 0 or 1. -/
def wordOfBool (b : Bool) : Word := if b then 1#32 else 0#32

/-- A word of a natural number, mod 2^32. -/
def wordOfNat (n : Nat) : Word := BitVec.ofNat 32 n

/-- q as a number (10_state.md R39). -/
def Quality.toNat : Quality → Nat
  | .zoh => 0
  | .blep => 1
  | .linear => 2
  | .blam => 3
  | .cubic => 4
  | .sinc => 5

/-- The quality of a number clamped to 0..5. -/
def qualityOfNat : Nat → Quality
  | 0 => .zoh
  | 1 => .blep
  | 2 => .linear
  | 3 => .blam
  | 4 => .cubic
  | _ => .sinc

/-- RS.SETQ's operand: sext_16(IMM16) clamped to 0..5 (41_resampler.md R180). -/
def qualityOfImm (imm : BitVec 16) : Quality := qualityOfNat (clamp (sext imm) 0 5).toNat

/-- RS.SETRATE's operand: the Q32.32 ratio, low word first (20_memory.md R83; 41_resampler.md R181). -/
def ratioOfWords (lo hi : Word) : Nat := hi.toNat * 2 ^ 32 + lo.toNat

/-- RS.WRITEF's depth clamped to 1..32 (41_resampler.md R183). -/
def depthOfImm (d : BitVec 6) : Nat := min (max d.toNat 1) 32

/-- RS.WRITE's sample (41_resampler.md R182). -/
def sampleOfImm (imm : BitVec 16) : F := fOfInt (sext imm)

/-- RS.WRITEF's sample: f_of_int(value) *F 2^-(depth-1) (41_resampler.md R183). -/
def sampleOfFixed (value : Word) (d : BitVec 6) : F := fmul (fOfInt (sword value)) (twoPowNeg (depthOfImm d - 1))

/-- SHAPE as a number (10_state.md R45). -/
def Shape.toNat : Shape → Nat
  | .sine => 0
  | .square => 1
  | .sawtooth => 2
  | .triangle => 3

/-- The shape of w[1:0] (10_state.md R54). -/
def shapeOfWord (w : Word) : Shape :=
  match w.toNat % 4 with
  | 0 => .sine
  | 1 => .square
  | 2 => .sawtooth
  | _ => .triangle

/-- STAGE as a number (44_declick.md R300). -/
def Stage.toNat : Stage → Nat
  | .silent => 0
  | .rampingIn => 1
  | .steady => 2
  | .cutRequested => 3
  | .rampedOut => 4
  | .dead => 5

/-- A declick volume: clamp(s32(w), 0, VOL_MAX) (10_state.md R55; 44_declick.md R304). -/
def volumeOfWord (w : Word) : BitVec 19 := BitVec.ofInt 19 (clamp (sword w) 0 Config.volMax)

/-- RAMP_DELTA's stored value: clamp(s32(w), 1, VOL_MAX) (10_state.md R37). -/
def rampDeltaOfWord (w : Word) : Word := u32 (clamp (sword w) 1 Config.volMax)

/-- ENV_N's stored value: min(w, NMAX) (10_state.md R52). -/
def nodeCountOfWord (w : Word) : Fin 26 := ⟨min w.toNat 25, by omega⟩

/-- A loop index's stored value: min(w, NMAX-1) (10_state.md R52). -/
def nodeIndexOfWord (w : Word) : Fin 25 := ⟨min w.toNat 24, by omega⟩

end Sys2Proof.Machine
end

