-- ==== Sys2Proof/Machine/Flags.lean ====
section
/-! DEFINITION. The STATUS bits (10_state.md R34), the only flags of the block (R59: there are no condition codes). -/

namespace Sys2Proof.Machine

open Sys2Proof

/-- The STATUS bit number of an error cause (60_exceptions.md R343). -/
def ErrCode.bit : ErrCode → Nat
  | .opc => 0
  | .voice => 1
  | .lane => 2
  | .sel => 3
  | .reg => 4
  | .ro => 5

/-- The STATUS word with one bit set. -/
def ErrCode.mask (e : ErrCode) : BitVec 6 := 1#6 <<< e.bit

/-- STATUS after an error: bits already set stay set (R341). -/
def statusAfterError (status : BitVec 6) (e : ErrCode) : BitVec 6 := status ||| e.mask

/-- STATUS after REG.WR of `w`: every bit i with w[i] = 1 is cleared (R34, R346). -/
def statusAfterClear (status : BitVec 6) (w : Word) : BitVec 6 := status &&& ~~~ (w.setWidth 6)

end Sys2Proof.Machine
end

