-- ==== Sys2Proof/Machine/Ops.lean ====
section
/-! DEFINITION. The named operations over the state: rings, sides, voices, the response stream, raising an error, and
the checks a command makes before it changes anything (60_exceptions.md R341, R345). -/

namespace Sys2Proof.Machine

open Sys2Proof

/-- The three outcomes of a step of this machine. -/
abbrev Out := Host.Outcome State Fault Refusal

/-! ## Sides, selectors and rings -/

/-- The value of a side. -/
def Sides.get {α : Type} (p : Sides α) : Side → α
  | .left => p.left
  | .right => p.right

/-- Replace the value of a side. -/
def Sides.set {α : Type} (p : Sides α) (side : Side) (x : α) : Sides α :=
  match side with
  | .left => ⟨x, p.right⟩
  | .right => ⟨p.left, x⟩

/-- The envelope of a selector (00_scope.md R17). -/
def Envelopes.get (p : Envelopes) (i : Fin 3) : Envelope :=
  match i with
  | 0 => p.volume
  | 1 => p.pan
  | 2 => p.pitch

/-- Replace the envelope of a selector. -/
def Envelopes.set (p : Envelopes) (i : Fin 3) (e : Envelope) : Envelopes :=
  match i with
  | 0 => { p with volume := e }
  | 1 => { p with pan := e }
  | 2 => { p with pitch := e }

/-- The LFO of a selector (00_scope.md R17). -/
def Lfos.get (p : Lfos) (i : Fin 3) : Lfo :=
  match i with
  | 0 => p.vibrato
  | 1 => p.tremolo
  | 2 => p.panbrello

/-- Replace the LFO of a selector. -/
def Lfos.set (p : Lfos) (i : Fin 3) (l : Lfo) : Lfos :=
  match i with
  | 0 => { p with vibrato := l }
  | 1 => { p with tremolo := l }
  | 2 => { p with panbrello := l }

/-- The ring cell at an index taken modulo 64 (20_memory.md R81). -/
def ringGet (r : Ring) (i : Nat) : F := r[i % 64]'(Nat.mod_lt _ (by decide))

/-- Store a ring cell at an index taken modulo 64. -/
def ringSet (r : Ring) (i : Nat) (x : F) : Ring := r.set (i % 64) x (Nat.mod_lt _ (by decide))

/-! ## The state -/

/-- NV: the number of voice contexts (00_scope.md R11). -/
def State.nv (s : State) : Nat := s.voices.length

/-- R[v], where it exists. -/
def State.voice? (s : State) (v : VoiceIx) : Option Voice := s.voices[v.toNat]?

/-- Replace R[v]. -/
def State.setVoice (s : State) (v : VoiceIx) (c : Voice) : State :=
  { s with voices := s.voices.set v.toNat c }

/-- `emit(w)`: append a word to the response stream (00_scope.md R16). -/
def State.emit (s : State) (w : Word) : State := { s with responses := s.responses ++ [w] }

/-- Store ACC. -/
def State.setAcc (s : State) (w : Word) : State := { s with acc := w }

/-- Store RAMP_DELTA. -/
def State.setRampDelta (s : State) (w : Word) : State := { s with rampDelta := w }

/-- Store the draw counter of the free summation orders. -/
def State.setDraws (s : State) (d : Nat) : State := { s with draws := d }

/-- Store the command input buffer. -/
def State.setInput (s : State) (ws : List Word) : State := { s with input := ws }

/-- `raise Error(b)`, the block's only exception: STATUS[b] is set and nothing else changes; no result word is emitted
and control goes nowhere (R340, R341, R348). -/
def State.raise (s : State) (e : ErrCode) : State := { s with status := statusAfterError s.status e }

/-- The only undoing of an error: the write-1-to-clear of STATUS (R346). There is no return from an exception (R349). -/
def State.clearStatus (s : State) (w : Word) : State := { s with status := statusAfterClear s.status w }

/-! ## Checks (R345): each runs the continuation or raises its error -/

/-- ERR_VOICE unless VOICE < NV (30_encoding.md R102). -/
def withVoice (v : VoiceIx) (s : State) (k : Voice → Out) : Out :=
  match s.voice? v with
  | some c => k c
  | none => .next (s.raise .voice)

/-- ERR_LANE unless LANE is 0 or 1 (30_encoding.md R105, value-returning commands). -/
def withSide (lane : LaneSel) (s : State) (k : Side → Out) : Out :=
  match lane with
  | .left => k .left
  | .right => k .right
  | .both => .next (s.raise .lane)
  | .reserved => .next (s.raise .lane)

/-- ERR_SEL if SEL = 3 (30_encoding.md R106). -/
def withSel (sel : Sel) (s : State) (k : Fin 3 → Out) : Out :=
  match sel with
  | .s0 => k 0
  | .s1 => k 1
  | .s2 => k 2
  | .reserved => .next (s.raise .sel)

/-- Apply a function to the lanes LANE names: one, or L and then R (30_encoding.md R105; 41_resampler.md R177). -/
def Sides.update {α : Type} (p : Sides α) (lane : LaneSel) (f : α → α) : Sides α :=
  match lane with
  | .left => ⟨f p.left, p.right⟩
  | .right => ⟨p.left, f p.right⟩
  | .both => ⟨f p.left, f p.right⟩
  | .reserved => p

/-- A command that changes one voice context. -/
def updateVoice (v : VoiceIx) (s : State) (f : Voice → Voice) : Out :=
  withVoice v s fun c => .next (s.setVoice v (f c))

/-- A command that changes the lanes LANE names; ERR_VOICE is checked before ERR_LANE (R345). -/
def updateLanes (v : VoiceIx) (lane : LaneSel) (s : State) (f : Lane → Lane) : Out :=
  withVoice v s fun c =>
    match lane with
    | .left => .next (s.setVoice v { c with lanes := c.lanes.update .left f })
    | .right => .next (s.setVoice v { c with lanes := c.lanes.update .right f })
    | .both => .next (s.setVoice v { c with lanes := c.lanes.update .both f })
    | .reserved => .next (s.raise .lane)

/-- A command on one lane of one voice. -/
def withLane (v : VoiceIx) (lane : LaneSel) (s : State) (k : Voice → Side → Lane → Out) : Out :=
  withVoice v s fun c => withSide lane s fun side => k c side (c.lanes.get side)

end Sys2Proof.Machine
end

