-- ==== Sys2Proof/Machine/Registers.lean ====
section
/-! DEFINITION. The register index map (10_state.md R48 to R58): index to register, read value, stored value, access. -/

namespace Sys2Proof.Machine

open Sys2Proof

/-- The global registers (R48). -/
inductive GReg where
  | status
  | id
  | nv
  | macAcc
  | rampDelta
  | caps
  deriving DecidableEq, Repr

/-- The scalar registers of a lane (R49). -/
inductive LaneReg where
  | q
  | wpos
  | wfill
  | rpos
  | rfill
  | phase
  | incLo
  | incHi
  | iphase
  | iincLo
  | iincHi
  | flags
  | lastAmp
  | accum
  deriving DecidableEq, Repr

/-- The registers of an envelope (R52). -/
inductive EnvReg where
  | flags
  | n
  | ls
  | le
  | ss
  | se
  | tick
  | next
  | value
  | nodeTick (i : Fin 25)
  | nodeValue (i : Fin 25)
  deriving DecidableEq, Repr

/-- The registers of an LFO (R54). -/
inductive LfoReg where
  | shape
  | pos
  | speed
  | depth
  deriving DecidableEq, Repr

/-- The per-voice registers (R49 to R55). -/
inductive VReg where
  | lane (side : Side) (r : LaneReg)
  | ringIn (side : Side) (i : Nat)
  | ringOut (side : Side) (i : Nat)
  | flEn
  | flA
  | flB
  | flC
  | flCur (side : Side)
  | flPrev (side : Side)
  | env (e : Fin 3) (r : EnvReg)
  | released
  | fade
  | fadeRate
  | fading
  | lfo (l : Fin 3) (r : LfoReg)
  | dckStage
  | dckCur (side : Side)
  | dckTgt (side : Side)
  deriving DecidableEq, Repr

/-! ## Index to register; `none` is a reserved index (R56) -/

/-- The register of a global index, below 0x100 (R48). -/
def globalReg (idx : Nat) : Option GReg :=
  match idx with
  | 0x000 => some .status
  | 0x001 => some .id
  | 0x002 => some .nv
  | 0x003 => some .macAcc
  | 0x004 => some .rampDelta
  | 0x005 => some .caps
  | _ => none

/-- The lane register at an offset (R49). -/
def laneReg (off : Nat) : Option LaneReg :=
  match off with
  | 0x00 => some .q
  | 0x01 => some .wpos
  | 0x02 => some .wfill
  | 0x03 => some .rpos
  | 0x04 => some .rfill
  | 0x05 => some .phase
  | 0x06 => some .incLo
  | 0x07 => some .incHi
  | 0x08 => some .iphase
  | 0x09 => some .iincLo
  | 0x0A => some .iincHi
  | 0x0B => some .flags
  | 0x0C => some .lastAmp
  | 0x0D => some .accum
  | _ => none

/-- The filter register at an offset from 0x300 (R51). -/
def filterReg (off : Nat) : Option VReg :=
  match off with
  | 0 => some .flEn
  | 1 => some .flA
  | 2 => some .flB
  | 3 => some .flC
  | 4 => some (.flCur .left)
  | 5 => some (.flPrev .left)
  | 6 => some (.flCur .right)
  | 7 => some (.flPrev .right)
  | _ => none

/-- The envelope register at an offset (R52). -/
def envReg (off : Nat) : Option EnvReg :=
  if off < 0x20 then
    match off with
    | 0x00 => some .flags
    | 0x01 => some .n
    | 0x02 => some .ls
    | 0x03 => some .le
    | 0x04 => some .ss
    | 0x05 => some .se
    | 0x06 => some .tick
    | 0x07 => some .next
    | 0x08 => some .value
    | _ => none
  else if off < 0x40 then
    if h : off - 0x20 < 25 then some (.nodeTick ⟨off - 0x20, h⟩) else none
  else if h : off - 0x40 < 25 then some (.nodeValue ⟨off - 0x40, h⟩) else none

/-- The voice-level register at an offset from 0x580 (R53). -/
def voiceLevelReg (off : Nat) : Option VReg :=
  match off with
  | 0 => some .released
  | 1 => some .fade
  | 2 => some .fadeRate
  | 3 => some .fading
  | _ => none

/-- The LFO register at an offset (R54). -/
def lfoReg (off : Nat) : Option LfoReg :=
  match off with
  | 0 => some .shape
  | 1 => some .pos
  | 2 => some .speed
  | 3 => some .depth
  | _ => none

/-- The declick register at an offset from 0x700 (R55). -/
def declickReg (off : Nat) : Option VReg :=
  match off with
  | 0 => some .dckStage
  | 1 => some (.dckCur .left)
  | 2 => some (.dckCur .right)
  | 3 => some (.dckTgt .left)
  | 4 => some (.dckTgt .right)
  | _ => none

/-- The register of a per-voice index, 0x100 or above (R48 to R56). -/
def voiceReg (idx : Nat) : Option VReg :=
  if idx < 0x140 then (laneReg (idx - 0x100)).map (.lane .left)
  else if idx < 0x180 then (laneReg (idx - 0x140)).map (.lane .right)
  else if idx < 0x200 then none
  else if idx < 0x240 then some (.ringIn .left (idx - 0x200))
  else if idx < 0x280 then some (.ringOut .left (idx - 0x240))
  else if idx < 0x2C0 then some (.ringIn .right (idx - 0x280))
  else if idx < 0x300 then some (.ringOut .right (idx - 0x2C0))
  else if idx < 0x400 then filterReg (idx - 0x300)
  else if idx < 0x480 then (envReg (idx - 0x400)).map (.env 0)
  else if idx < 0x500 then (envReg (idx - 0x480)).map (.env 1)
  else if idx < 0x580 then (envReg (idx - 0x500)).map (.env 2)
  else if idx < 0x600 then voiceLevelReg (idx - 0x580)
  else if idx < 0x608 then (lfoReg (idx - 0x600)).map (.lfo 0)
  else if idx < 0x610 then (lfoReg (idx - 0x608)).map (.lfo 1)
  else if idx < 0x618 then (lfoReg (idx - 0x610)).map (.lfo 2)
  else if idx < 0x700 then none
  else if idx < 0x800 then declickReg (idx - 0x700)
  else none

/-! ## Access (R58) -/

/-- Whether a global register is read-only (R48). -/
def GReg.readOnly : GReg → Bool
  | .id | .nv | .caps => true
  | .status | .macAcc | .rampDelta => false

/-- Whether an envelope register is read-only: the cursor (R52). -/
def EnvReg.readOnly : EnvReg → Bool
  | .tick | .next | .value => true
  | .flags | .n | .ls | .le | .ss | .se | .nodeTick _ | .nodeValue _ => false

/-- Whether a per-voice register is read-only: lane state, rings, envelope cursors, STAGE and CUR (R49 to R55). -/
def VReg.readOnly : VReg → Bool
  | .lane _ _ | .ringIn _ _ | .ringOut _ _ | .dckStage | .dckCur _ => true
  | .env _ r => r.readOnly
  | .flEn | .flA | .flB | .flC | .flCur _ | .flPrev _ | .released | .fade | .fadeRate | .fading | .lfo _ _
  | .dckTgt _ => false

/-! ## Reading (R57) -/

/-- The read value of a global register (R48). -/
def readGlobal (s : State) : GReg → Word
  | .status => s.status.setWidth 32
  | .id => Config.idWord
  | .nv => wordOfNat s.nv
  | .macAcc => s.acc
  | .rampDelta => s.rampDelta
  | .caps => Config.capsWord

/-- The read value of a lane register (R49). -/
def Lane.read (l : Lane) : LaneReg → Word
  | .q => wordOfNat l.q.toNat
  | .wpos => l.wpos.setWidth 32
  | .wfill => u32 l.wfill
  | .rpos => l.rpos.setWidth 32
  | .rfill => wordOfNat l.rfill
  | .phase => l.phase
  | .incLo => l.inc.extractLsb' 0 32
  | .incHi => l.inc.extractLsb' 32 32
  | .iphase => l.iphase
  | .iincLo => l.iinc.extractLsb' 0 32
  | .iincHi => l.iinc.extractLsb' 32 32
  | .flags => wordOfBool l.inPrimed ||| (wordOfBool l.outPrimed <<< 1)
  | .lastAmp => l.lastAmp
  | .accum => l.accum

/-- The read value of an envelope register (R52). -/
def Envelope.read (e : Envelope) : EnvReg → Word
  | .flags => e.flags.setWidth 32
  | .n => wordOfNat e.n.val
  | .ls => wordOfNat e.ls.val
  | .le => wordOfNat e.le.val
  | .ss => wordOfNat e.ss.val
  | .se => wordOfNat e.se.val
  | .tick => e.tick
  | .next => wordOfNat e.next.val
  | .value => e.value
  | .nodeTick i => (e.t.get i).setWidth 32
  | .nodeValue i => (e.y.get i).signExtend 32

/-- The read value of an LFO register (R54). -/
def Lfo.read (l : Lfo) : LfoReg → Word
  | .shape => wordOfNat l.shape.toNat
  | .pos => l.pos.setWidth 32
  | .speed => l.speed.setWidth 32
  | .depth => l.depth.setWidth 32

/-- The read value of a per-voice register (R49 to R55). -/
def readVoice (c : Voice) : VReg → Word
  | .lane side r => (c.lanes.get side).read r
  | .ringIn side i => ringGet (c.lanes.get side).inRing i
  | .ringOut side i => ringGet (c.lanes.get side).outRing i
  | .flEn => wordOfBool c.filter.en
  | .flA => c.filter.a
  | .flB => c.filter.b
  | .flC => c.filter.c
  | .flCur side => c.filter.cur.get side
  | .flPrev side => c.filter.prev.get side
  | .env i r => (c.envs.get i).read r
  | .released => wordOfBool c.released
  | .fade => c.fade
  | .fadeRate => c.fadeRate
  | .fading => wordOfBool c.fading
  | .lfo i r => (c.lfos.get i).read r
  | .dckStage => wordOfNat c.declick.stage.toNat
  | .dckCur side => (c.declick.cur.get side).setWidth 32
  | .dckTgt side => (c.declick.tgt.get side).setWidth 32

/-! ## Writing: the "write stores" column (R58). A read-only register is never written and keeps its value here. -/

/-- Store a global register (R48); STATUS is write-1-to-clear (R34). -/
def writeGlobal (s : State) (r : GReg) (w : Word) : State :=
  match r with
  | .status => s.clearStatus w
  | .macAcc => s.setAcc w
  | .rampDelta => s.setRampDelta (rampDeltaOfWord w)
  | .id | .nv | .caps => s

/-- Store an envelope register (R52). -/
def Envelope.write (e : Envelope) (r : EnvReg) (w : Word) : Envelope :=
  match r with
  | .flags => { e with flags := w.setWidth 3 }
  | .n => { e with n := nodeCountOfWord w }
  | .ls => { e with ls := nodeIndexOfWord w }
  | .le => { e with le := nodeIndexOfWord w }
  | .ss => { e with ss := nodeIndexOfWord w }
  | .se => { e with se := nodeIndexOfWord w }
  | .nodeTick i => { e with t := e.t.set i.val (w.setWidth 16) i.isLt }
  | .nodeValue i => { e with y := e.y.set i.val (w.setWidth 8) i.isLt }
  | .tick | .next | .value => e

/-- Store an LFO register (R54). -/
def Lfo.write (l : Lfo) (r : LfoReg) (w : Word) : Lfo :=
  match r with
  | .shape => { l with shape := shapeOfWord w }
  | .pos => { l with pos := w.setWidth 8 }
  | .speed => { l with speed := w.setWidth 8 }
  | .depth => { l with depth := w.setWidth 8 }

/-- Store a per-voice register (R51 to R55). -/
def writeVoice (c : Voice) (r : VReg) (w : Word) : Voice :=
  match r with
  | .flEn => { c with filter := { c.filter with en := w.getLsbD 0 } }
  | .flA => { c with filter := { c.filter with a := w } }
  | .flB => { c with filter := { c.filter with b := w } }
  | .flC => { c with filter := { c.filter with c := w } }
  | .flCur side => { c with filter := { c.filter with cur := c.filter.cur.set side w } }
  | .flPrev side => { c with filter := { c.filter with prev := c.filter.prev.set side w } }
  | .env i r => { c with envs := c.envs.set i ((c.envs.get i).write r w) }
  | .released => { c with released := w.getLsbD 0 }
  | .fade => { c with fade := w }
  | .fadeRate => { c with fadeRate := w }
  | .fading => { c with fading := w.getLsbD 0 }
  | .lfo i r => { c with lfos := c.lfos.set i ((c.lfos.get i).write r w) }
  | .dckTgt side => { c with declick := { c.declick with tgt := c.declick.tgt.set side (volumeOfWord w) } }
  | .lane _ _ | .ringIn _ _ | .ringOut _ _ | .dckStage | .dckCur _ => c

end Sys2Proof.Machine
end

