-- ==== Sys2Proof/Machine/Control.lean ====
section
/-! DEFINITION. The meanings of the control commands (45_control.md R320 to R324). -/

namespace Sys2Proof.Machine

open Sys2Proof

/-- NOP (R320). -/
def execNop (s : State) : Out := .next s

/-- REG.RD (R321, R322): VOICE for a per-voice index, then the reserved index. -/
def execRegRd (v : VoiceIx) (idx : BitVec 12) (s : State) : Out :=
  if idx.toNat < 0x100 then
    match globalReg idx.toNat with
    | none => .next (s.raise .reg)
    | some r => .next (s.emit (readGlobal s r))
  else
    withVoice v s fun c =>
      match voiceReg idx.toNat with
      | none => .next (s.raise .reg)
      | some r => .next (s.emit (readVoice c r))

/-- REG.WR (R321, R323): VOICE for a per-voice index, then the reserved index, then read-only. -/
def execRegWr (v : VoiceIx) (idx : BitVec 12) (w : Word) (s : State) : Out :=
  if idx.toNat < 0x100 then
    match globalReg idx.toNat with
    | none => .next (s.raise .reg)
    | some r => if r.readOnly then .next (s.raise .ro) else .next (writeGlobal s r w)
  else
    withVoice v s fun c =>
      match voiceReg idx.toNat with
      | none => .next (s.raise .reg)
      | some r => if r.readOnly then .next (s.raise .ro) else .next (s.setVoice v (writeVoice c r w))

/-- VC.RESET (R324): the voice's power-on state; global state and every other voice are kept. -/
def execVcReset (v : VoiceIx) (s : State) : Out :=
  updateVoice v s fun _ => Voice.reset s.params.fadeInit

end Sys2Proof.Machine
end

