-- ==== Sys2Proof/Machine/DeclickUnit.lean ====
section
/-! DEFINITION. The declick ramp (44_declick.md R300 to R308). -/

namespace Sys2Proof.Machine

open Sys2Proof

/-- approach(c, t, δ) (R301). -/
def approach (c t δ : Nat) : Nat :=
  if ((t : Int) - c).natAbs ≤ δ then t else if c < t then c + δ else c - δ

/-- approach on volumes; the result lies between `c` and `t`, so 19 bits hold it. -/
def approachVol (δ : Nat) (c t : BitVec 19) : BitVec 19 := BitVec.ofNat 19 (approach c.toNat t.toNat δ)

/-- The declick state after DCK.STEP with step δ (R305). -/
def Declick.step (d : Declick) (δ : Nat) : Declick :=
  match d.stage with
  | .silent => { d with cur := ⟨0#19, 0#19⟩, stage := .rampingIn }
  | .rampingIn =>
    let c : Sides (BitVec 19) := ⟨approachVol δ d.cur.left d.tgt.left, approachVol δ d.cur.right d.tgt.right⟩
    { d with cur := c, stage := if c = d.tgt then .steady else .rampingIn }
  | .steady => { d with cur := ⟨approachVol δ d.cur.left d.tgt.left, approachVol δ d.cur.right d.tgt.right⟩ }
  | .cutRequested =>
    let c : Sides (BitVec 19) := ⟨approachVol δ d.cur.left 0#19, approachVol δ d.cur.right 0#19⟩
    { d with cur := c, stage := if c = ⟨0#19, 0#19⟩ then .rampedOut else .cutRequested }
  | .rampedOut => d
  | .dead => d

/-- The declick multiply of a sample by a gain (R302). -/
def applyGain (x : Word) (g : BitVec 19) : Word := u32 (mulsc (sword x) g.toNat)

/-- The declick cut: stages 0 to 2 go to 3 (R306). -/
def Stage.cut (st : Stage) : Stage :=
  match st with
  | .silent | .rampingIn | .steady => .cutRequested
  | .cutRequested | .rampedOut | .dead => st

/-- The stage after DCK.HK (R308). -/
def Stage.housekeep (st : Stage) : Stage :=
  match st with
  | .rampedOut => .dead
  | .silent | .rampingIn | .steady | .cutRequested | .dead => st

end Sys2Proof.Machine
end

