-- ==== Sys2Proof/Machine/DeclickCommands.lean ====
section
/-! DEFINITION. The meanings of the declick commands (44_declick.md R304 to R311). -/

namespace Sys2Proof.Machine

open Sys2Proof

/-- DCK.SETTGT (R304). -/
def execDckSettgt (v : VoiceIx) (l r : Word) (s : State) : Out :=
  updateVoice v s fun c => { c with declick := { c.declick with tgt := ⟨volumeOfWord l, volumeOfWord r⟩ } }

/-- DCK.STEP (R305): the gain applied is the volume after the update. -/
def execDckStep (v : VoiceIx) (xl xr : Word) (s : State) : Out :=
  withVoice v s fun c =>
    let d := c.declick.step s.rampDelta.toNat
    .next (((s.setVoice v { c with declick := d }).emit (applyGain xl d.cur.left)).emit (applyGain xr d.cur.right))

/-- DCK.CUT (R306). -/
def execDckCut (v : VoiceIx) (s : State) : Out :=
  updateVoice v s fun c => { c with declick := { c.declick with stage := c.declick.stage.cut } }

/-- DCK.RETRIG (R307). -/
def execDckRetrig (v : VoiceIx) (s : State) : Out :=
  updateVoice v s fun c => { c with declick := { c.declick with stage := .rampingIn } }

/-- DCK.HK (R308). -/
def execDckHk (v : VoiceIx) (s : State) : Out :=
  withVoice v s fun c =>
    let st := c.declick.stage.housekeep
    .next ((s.setVoice v { c with declick := { c.declick with stage := st } }).emit (wordOfNat st.toNat))

end Sys2Proof.Machine
end

