-- ==== Sys2Proof/Machine/EnvelopeUnit.lean ====
section
/-! DEFINITION. The envelope state machine on one envelope (43_envelope_lfo.md R260 to R266), the fade-out counter
(R268). -/

namespace Sys2Proof.Machine

open Sys2Proof

/-! ## Envelopes -/

/-- FLAGS.ON (R260). -/
def Envelope.on (e : Envelope) : Bool := e.flags.getLsbD 0
/-- FLAGS.LOOP, the release loop (R260). -/
def Envelope.loop (e : Envelope) : Bool := e.flags.getLsbD 1
/-- FLAGS.SUSLOOP, the sustain loop (R260). -/
def Envelope.susLoop (e : Envelope) : Bool := e.flags.getLsbD 2

/-- T[i] (R260). -/
def Envelope.nodeTick (e : Envelope) (i : Fin 25) : Nat := (e.t.get i).toNat
/-- Y[i] * 256, the value of node i (R263). -/
def Envelope.nodeValue (e : Envelope) (i : Fin 25) : Int := sext (e.y.get i) * 256

/-- Node N-1 (node 0 when N = 0, where no rule asks for it). -/
def Envelope.lastNode (e : Envelope) : Fin 25 := ⟨e.n.val - 1, by omega⟩

/-- sus: the sustain loop is active (R262). -/
def Envelope.sus (e : Envelope) (released : Bool) : Bool := e.susLoop && !released

/-- The release loop is active (R262). -/
def Envelope.releaseLoop (e : Envelope) (mode : LoopMode) (released : Bool) : Bool :=
  e.loop &&
    match mode with
    | .always => true
    | .sustainExclusive => !e.sus released

/-- EVAL(E) (R263). -/
def Envelope.eval (e : Envelope) : Word :=
  if h0 : e.next.val = 0 then u32 (e.nodeValue 0)
  else if h : e.next.val < e.n.val then
    let j : Fin 25 := ⟨e.next.val, by omega⟩
    let i : Fin 25 := ⟨e.next.val - 1, by omega⟩
    let ys := e.nodeValue i
    let ye := e.nodeValue j
    let ts : Int := e.nodeTick i
    let te : Int := e.nodeTick j
    if ts = te then u32 ys else u32 (ys + tdiv ((ye - ys) * ((e.tick.toNat : Int) - ts)) (te - ts))
  else u32 (e.nodeValue e.lastNode)

/-- The loop of ADVANCE: move NEXT past every node before `tick`; N ≤ 25 nodes, so 25 rounds suffice (R264). -/
def Envelope.overtake (e : Envelope) (tick : Nat) : Nat → Fin 26 → Fin 26
  | 0, nx => nx
  | k + 1, nx =>
    if h : nx.val < e.n.val then
      if e.nodeTick ⟨nx.val, by omega⟩ < tick then e.overtake tick k ⟨nx.val + 1, by omega⟩ else nx
    else nx

/-- min(TICK + 1, 2^32 - 1) (R264). -/
def tickSucc (t : BitVec 32) : BitVec 32 := BitVec.ofNat 32 (min (t.toNat + 1) (2 ^ 32 - 1))

/-- ADVANCE(E) (R264). -/
def Envelope.advance (e : Envelope) : Envelope :=
  let t := tickSucc e.tick
  { e with tick := t, next := e.overtake t.toNat 25 e.next }

/-- Move the cursor to a loop's start node (R265). -/
def Envelope.jumpTo (e : Envelope) (i : Fin 25) : Envelope :=
  { e with next := i.succ, tick := (e.t.get i).setWidth 32 }

/-- LOOPS(E) (R265). -/
def Envelope.loops (e : Envelope) (mode : LoopMode) (released : Bool) : Envelope :=
  if e.sus released && decide (e.nodeTick e.se < e.tick.toNat) then e.jumpTo e.ss
  else if e.releaseLoop mode released && decide (e.nodeTick e.le < e.tick.toNat) then e.jumpTo e.ls
  else e

/-- ended, after LOOPS (R266). -/
def Envelope.ended (e : Envelope) (released : Bool) : Bool :=
  !e.sus released && !e.loop && decide (e.nodeTick e.lastNode < e.tick.toNat)

/-- Whether ENV.TICK runs: ON = 1 and N > 0 (R271). -/
def Envelope.running (e : Envelope) : Bool := e.on && decide (0 < e.n.val)

/-- The envelope after a tick that runs (R271). -/
def Envelope.ticked (e : Envelope) (mode : LoopMode) (released : Bool) : Envelope :=
  (({ e with value := e.eval } : Envelope).advance).loops mode released

/-- The envelope after ENV.RESET (R270). -/
def Envelope.restart (e : Envelope) : Envelope :=
  { e with tick := 0#32, next := 0, value := if 0 < e.n.val then u32 (e.nodeValue 0) else 0#32 }

/-! ## Fade -/

/-- The voice after FADE.TICK (R275): FADE falls by FADE_RATE, not below 0, and reaching 0 requests the cut. -/
def Voice.fadeTick (c : Voice) : Voice :=
  if c.fading && decide (0 < c.fade.toNat) then
    let f := c.fade.toNat - c.fadeRate.toNat
    { c with
      fade := wordOfNat f
      declick := if f = 0 then { c.declick with stage := c.declick.stage.cut } else c.declick }
  else c

end Sys2Proof.Machine
end

