-- ==== Sys2Proof/Machine/Envelope.lean ====
section
/-! DEFINITION. The meanings of the envelope and fade commands (43_envelope_lfo.md R270 to R276). -/

namespace Sys2Proof.Machine

open Sys2Proof

/-- ENV.RESET (R270). -/
def execEnvReset (v : VoiceIx) (sel : Sel) (s : State) : Out :=
  withVoice v s fun c => withSel sel s fun i =>
    .next (s.setVoice v { c with envs := c.envs.set i (c.envs.get i).restart })

/-- The voice after ENV.TICK of envelope `i` that runs: the volume envelope's end sets FADING (R266, R271). -/
def Voice.envTicked (c : Voice) (mode : LoopMode) (i : Fin 3) : Voice :=
  let e := (c.envs.get i).ticked mode c.released
  { c with
    envs := c.envs.set i e
    fading := c.fading || (e.ended c.released && i == 0) }

/-- ENV.TICK (R271). -/
def execEnvTick (v : VoiceIx) (sel : Sel) (s : State) : Out :=
  withVoice v s fun c => withSel sel s fun i =>
    let e := c.envs.get i
    if e.running then
      let e' := e.ticked s.params.loopMode c.released
      .next (((s.setVoice v (c.envTicked s.params.loopMode i)).emit e'.value).emit
        (wordOfBool (e'.ended c.released)))
    else .next ((s.emit e.value).emit 0#32)

/-- ENV.READ (R272). -/
def execEnvRead (v : VoiceIx) (sel : Sel) (s : State) : Out :=
  withVoice v s fun c => withSel sel s fun i => .next (s.emit (c.envs.get i).value)

/-- ENV.RELEASE (R273). -/
def execEnvRelease (v : VoiceIx) (k : Bool) (s : State) : Out :=
  updateVoice v s fun c => { c with released := k }

/-- FADE.START (R274). -/
def execFadeStart (v : VoiceIx) (s : State) : Out := updateVoice v s fun c => { c with fading := true }

/-- FADE.TICK (R275). -/
def execFadeTick (v : VoiceIx) (s : State) : Out :=
  withVoice v s fun c => .next ((s.setVoice v c.fadeTick).emit c.fadeTick.fade)

end Sys2Proof.Machine
end

