-- ==== Sys2Proof/Machine/Filter.lean ====
section
/-! DEFINITION. The two-pole filter and the meanings of its commands (42_filter.md R240 to R248). -/

namespace Sys2Proof.Machine

open Sys2Proof

/-- Replace the coefficients; the history and FL_EN are kept (R244, R245). -/
def Filter.setCoef (f : Filter) (k : Word × Word × Word) : Filter := { f with a := k.1, b := k.2.1, c := k.2.2 }

/-- The coefficients FL.COEF loads: the identity for fs = 0, FILTER_COEF otherwise (R244). -/
def coefFor (cutoff : BitVec 16) (resonance : BitVec 8) (fs : Word) : Word × Word × Word :=
  if fs = 0#32 then (0x10000000#32, 0#32, 0#32) else Config.filterCoef cutoff resonance fs

/-- y = A*x + B*cur + C*prev, each product MULSCA, the sum wrapped (R240, R246). -/
def Filter.output (f : Filter) (side : Side) (x : Word) : Word :=
  u32 (mulsca (sword x) (sword f.a) + mulsca (sword (f.cur.get side)) (sword f.b)
    + mulsca (sword (f.prev.get side)) (sword f.c))

/-- The filter after one sample of one lane (R246). -/
def Filter.push (f : Filter) (side : Side) (y : Word) : Filter :=
  { f with prev := f.prev.set side (f.cur.get side), cur := f.cur.set side y }

/-- FL.COEF (R244). -/
def execFlCoef (v : VoiceIx) (cutoff : BitVec 16) (resonance : BitVec 8) (fs : Word) (s : State) : Out :=
  updateVoice v s fun c => { c with filter := c.filter.setCoef (coefFor cutoff resonance fs) }

/-- FL.SETC (R245). -/
def execFlSetc (v : VoiceIx) (a b c : Word) (s : State) : Out :=
  updateVoice v s fun vc => { vc with filter := vc.filter.setCoef (a, b, c) }

/-- FL.RUN (R246). -/
def execFlRun (v : VoiceIx) (lane : LaneSel) (x : Word) (s : State) : Out :=
  withVoice v s fun c => withSide lane s fun side =>
    if c.filter.en then
      let y := c.filter.output side x
      .next ((s.setVoice v { c with filter := c.filter.push side y }).emit y)
    else .next (s.emit x)

/-- FL.RESET (R247). -/
def execFlReset (v : VoiceIx) (s : State) : Out :=
  updateVoice v s fun c => { c with filter := { c.filter with cur := ⟨0#32, 0#32⟩, prev := ⟨0#32, 0#32⟩ } }

/-- FL.EN (R248). -/
def execFlEn (v : VoiceIx) (e : Bool) (s : State) : Out :=
  updateVoice v s fun c => { c with filter := { c.filter with en := e } }

end Sys2Proof.Machine
end

