-- ==== Sys2Proof/Machine/Tables.lean ====
section
/-! DEFINITION. The lookup tables (10_state.md R47; 41_resampler.md R160; 43_envelope_lfo.md R283), as functions of the
index. Sines are computed in fixed point with 128 fraction bits, exact at the multiples of a quarter turn, and the
quotient or sum is rounded once by `round_F` (log entry 11: why this is the correctly rounded value). -/

namespace Sys2Proof.Machine

open Sys2Proof

/-- One in the fixed-point format of the table computation. -/
def fixOne : Nat := 2 ^ 128

/-- floor(pi * 2^128). -/
def fixPi : Nat := 0x3243F6A8885A308D313198A2E03707344

/-- The factor 1 - θ²/(2k(2k+1)) (1 - θ²/((2k+2)(2k+3)) (...)) of the sine series, `n` nested terms starting at `k`;
`sq` is θ² in fixed point. -/
def sinTail (sq : Nat) : Nat → Nat → Nat
  | 0, _ => fixOne
  | n + 1, k => fixOne - sq * sinTail sq n (k + 1) / (fixOne * (2 * k * (2 * k + 1)))

/-- sin θ in fixed point for θ in [0, pi/2] in fixed point. -/
def sinSmall (theta : Nat) : Nat := theta * sinTail (theta * theta / fixOne) 20 1 / fixOne

/-- sin(pi * num / half) in fixed point; exact where it is 0, 1 or -1. -/
def sinPi (num half : Nat) : Int :=
  let r := num % half
  let q := min r (half - r)
  let v : Nat := if 2 * q = half then fixOne else sinSmall (fixPi * q / half)
  if num % (2 * half) < half then v else -v

/-- cos(pi * num / half) in fixed point, for an even `half`. -/
def cosPi (num half : Nat) : Int := sinPi (num + half / 2) half

/-- SINC_LUT[k]: with x = k/1024, 1.0 at k = 0 and round_F(sin(pi x)/(pi x)) otherwise, +0.0 at every integer x (R160). -/
def sincLut (k : Nat) : F :=
  if k = 0 then roundRat 1 1 else roundRat (sinPi k 1024 * 1024) (fixPi * k)

/-- WIN_LUT[k]: with y = k/16384, round_F(0.40897 + 0.5 cos(pi y) + 0.09103 cos(2 pi y)) (R160). -/
def winLut (k : Nat) : F :=
  roundRat (40897 * fixOne + 50000 * cosPi k 16384 + 9103 * cosPi k 8192) (100000 * fixOne)

/-- CUBIC_LUT[4i + c]: the Catmull-Rom weight c at x = i/1024, an exact rational rounded once (R160). -/
def cubicLut (i c : Nat) : F :=
  let x : Int := i
  let one : Int := 1024
  match c with
  | 0 => roundRat (-x ^ 3 + 2 * one * x ^ 2 - one ^ 2 * x) (2 * 1024 ^ 3)
  | 1 => roundRat (3 * x ^ 3 - 5 * one * x ^ 2 + 2 * one ^ 3) (2 * 1024 ^ 3)
  | 2 => roundRat (-3 * x ^ 3 + 4 * one * x ^ 2 + one ^ 2 * x) (2 * 1024 ^ 3)
  | _ => roundRat (x ^ 3 - one * x ^ 2) (2 * 1024 ^ 3)

/-- Entries 0 to 63 of SINE_TAB as 43_envelope_lfo.md R283 prints them. -/
def sineQuarter : List Int :=
  [0, 2, 3, 5, 6, 8, 9, 11, 12, 14, 16, 17, 19, 20, 22, 23,
   24, 26, 27, 29, 30, 32, 33, 34, 36, 37, 38, 39, 41, 42, 43, 44,
   45, 46, 47, 48, 49, 50, 51, 52, 53, 54, 55, 56, 56, 57, 58, 59,
   59, 60, 60, 61, 61, 62, 62, 62, 63, 63, 63, 64, 64, 64, 64, 64]

/-- SINE_TAB[p] for p < 128: the printed quarter, 64 at 64, then mirrored (R283). -/
def sineHalf (p : Nat) : Int :=
  if p < 64 then sineQuarter.getD p 0 else if p = 64 then 64 else sineQuarter.getD (128 - p) 0

/-- SINE_TAB[p] (R283): the second half is the first negated. -/
def sineTab (p : Nat) : Int := if p < 128 then sineHalf p else -sineHalf (p - 128)

end Sys2Proof.Machine
end

