-- ==== Sys2Proof/Machine/LfoUnit.lean ====
section
/-! DEFINITION. The LFO waveforms and step (43_envelope_lfo.md R280 to R284). -/

namespace Sys2Proof.Machine

open Sys2Proof

/-- wave(SHAPE, POS), an integer in -64..64 (R281). -/
def wave (sh : Shape) (pos : BitVec 8) : Int :=
  let p : Nat := pos.toNat
  match sh with
  | .sine => sineTab p
  | .square => if p < 128 then 64 else -64
  | .sawtooth => 64 - (p / 2 : Nat)
  | .triangle => if p < 64 then p else if p < 192 then 128 - (p : Int) else (p : Int) - 256

/-- The output of one LFO step: wave(SHAPE, POS) * DEPTH (R282). -/
def Lfo.output (l : Lfo) : Int := wave l.shape l.pos * l.depth.toNat

/-- The LFO after a step: POS advances by SPEED modulo 256 (R282). -/
def Lfo.advance (l : Lfo) : Lfo := { l with pos := l.pos + l.speed }

end Sys2Proof.Machine
end

