-- ==== Sys2Proof/Machine/LfoCommands.lean ====
section
/-! DEFINITION. The meanings of the LFO commands (43_envelope_lfo.md R285 to R287). -/

namespace Sys2Proof.Machine

open Sys2Proof

/-- LFO.RESET (R286). -/
def execLfoReset (v : VoiceIx) (sel : Sel) (s : State) : Out :=
  withVoice v s fun c => withSel sel s fun i =>
    .next (s.setVoice v { c with lfos := c.lfos.set i { c.lfos.get i with pos := 0#8 } })

/-- LFO.TICK (R287). -/
def execLfoTick (v : VoiceIx) (sel : Sel) (s : State) : Out :=
  withVoice v s fun c => withSel sel s fun i =>
    let l := c.lfos.get i
    .next ((s.setVoice v { c with lfos := c.lfos.set i l.advance }).emit (u32 l.output))

end Sys2Proof.Machine
end

