-- ==== Sys2Proof/Machine/Mac.lean ====
section
/-! DEFINITION. The meanings of the MAC commands (40_mac.md R135 to R143). They raise no error (R134). -/

namespace Sys2Proof.Machine

open Sys2Proof

/-- MULSC (R135). -/
def execMulsc (a b : Word) (s : State) : Out := .next (s.emit (u32 (mulsc (sword a) (sword b))))

/-- MULSCV (R136). -/
def execMulscv (a b : Word) (s : State) : Out := .next (s.emit (u32 (mulscv (sword a) (sword b))))

/-- MULSCA (R137). -/
def execMulsca (x c : Word) (s : State) : Out := .next (s.emit (u32 (mulsca (sword x) (sword c))))

/-- MULSC16 (R138). -/
def execMulsc16 (a b : Word) (s : State) : Out := .next (s.emit (u32 (mulsc16 (sword a) (sword b))))

/-- LERP (R139). -/
def execLerp (a b f : Word) (s : State) : Out := .next (s.emit (u32 (lerp (sword a) (sword b) (sword f))))

/-- ACLR (R140). -/
def execAclr (s : State) : Out := .next (s.setAcc 0#32)

/-- AADD (R141). -/
def execAadd (x : Word) (s : State) : Out := .next (s.setAcc (u32 (sword s.acc + sword x)))

/-- AMAC (R142). -/
def execAmac (x c : Word) (s : State) : Out :=
  .next (s.setAcc (u32 (sword s.acc + mulsca (sword x) (sword c))))

/-- ARD (R143). -/
def execArd (s : State) : Out := .next (s.emit s.acc)

end Sys2Proof.Machine
end

