-- ==== Sys2Proof/Machine/Kernel.lean ====
section
/-! DEFINITION. The resampler's internal procedures and its six kernels on one lane (41_resampler.md R161 to R181). -/

namespace Sys2Proof.Machine

open Sys2Proof

/-! ## Constants and phase -/

/-- isBL(q): BLEP or BLAM (R161). -/
def Quality.isBL : Quality → Bool
  | .blep | .blam => true
  | .zoh | .linear | .cubic | .sinc => false

/-- min_fill(q) (R161). -/
def Quality.minFill : Quality → Int
  | .zoh => 1
  | .blep => 1
  | .linear => 2
  | .blam => 2
  | .cubic => 4
  | .sinc => 32

/-- in_delay(q) (R161). -/
def Quality.inDelay : Quality → Int
  | .cubic => 1
  | .sinc => 15
  | .zoh | .blep | .linear | .blam => 0

/-- out_delay(q) (R161). -/
def Quality.outDelay : Quality → Nat
  | .blep | .blam => 15
  | .zoh | .linear | .cubic | .sinc => 0

/-- acc(f, n): the new fraction and the sample advance (R162). -/
def phaseAcc (f : BitVec 32) (n : BitVec 64) : BitVec 32 × Nat :=
  let t := f.toNat + n.toNat
  (BitVec.ofNat 32 t, t / 2 ^ 32)

/-- The kernel index phase >> 22, 0..1023 (R172). -/
def phaseIndex (f : BitVec 32) : Nat := f.toNat / 2 ^ 22

/-! ## Ring access (20_memory.md R81; R194) -/

/-- The ring index of inp(j). -/
def Lane.inpIndex (l : Lane) (j : Nat) : Nat := (((l.wpos.toNat : Int) - l.wfill + j) % 64).toNat

/-- inp(j): the j-th pending input sample. -/
def Lane.inp (l : Lane) (j : Nat) : F := ringGet l.inRing (l.inpIndex j)

/-- The ring index of outcell(m). -/
def Lane.outIndex (l : Lane) (m : Nat) : Nat := (l.rpos.toNat + l.rfill + m) % 64

/-- outcell(m): the output cell m places after the last finished output. -/
def Lane.outcell (l : Lane) (m : Nat) : F := ringGet l.outRing (l.outIndex m)

/-- Store outcell(m). -/
def Lane.setOutcell (l : Lane) (m : Nat) (x : F) : Lane :=
  { l with outRing := ringSet l.outRing (l.outIndex m) x }

/-- OUT[rpos], the next output to be read. -/
def Lane.head (l : Lane) : F := ringGet l.outRing l.rpos.toNat

/-! ## Sums (R176) -/

/-- A sum in the written order: the first term, then each next term added to it. -/
def sumScalar : List F → F
  | [] => 0#32
  | x :: xs => xs.foldl fadd x

/-- A sum in a free association order: two terms are picked, replaced by their sum, and so on until one is left. `k`
counts the picks already made for this draw. Every binary tree over the terms is some choice of picks. -/
def sumPicked (draw : Nat) : Nat → Nat → List F → F
  | 0, _, xs => xs.getD 0 0#32
  | fuel + 1, k, xs =>
    let i := Config.sumPick draw k % xs.length
    let rest := xs.eraseIdx i
    let j := Config.sumPick draw (k + 1) % rest.length
    sumPicked draw fuel (k + 2) (fadd (xs.getD i 0#32) (rest.getD j 0#32) :: rest.eraseIdx j)

/-- A sum of the terms under SUM_ORDER: the written order, or the free order of draw number `draw` (R176, U15). -/
def sumTerms (order : SumOrder) (draw : Nat) (terms : List F) : F :=
  match order with
  | .scalar => sumScalar terms
  | .reassociated => sumPicked draw (terms.length - 1) 0 terms

/-- The draw counter after an iteration that used up to two sums; the written order draws nothing. -/
def nextDraw (order : SumOrder) (draw : Nat) : Nat :=
  match order with
  | .scalar => draw
  | .reassociated => draw + 2

/-! ## The windowed-sinc kernel (R163, R169) -/

/-- Tap K[j], 0 ≤ j ≤ 31, of KERNEL(step, pr), with i = j - 15. -/
def kernelTap (step pr j : Nat) : F :=
  let pa : Int := (pr * step / 1024 : Nat)
  let i : Int := (j : Int) - 15
  fmul (sincLut (pa - i * step).natAbs) (winLut ((pr : Int) - i * 1024).natAbs)

/-- The 32 taps K[0..31]. -/
def kernelTaps (step pr : Nat) : List F := (List.range 32).map (kernelTap step pr)

/-- The tap sum S of R163: from +0.0, taps K[31] down to K[0]. -/
def kernelSum (order : SumOrder) (draw : Nat) (taps : List F) : F := sumTerms order draw (0#32 :: taps.reverse)

/-- sinc_step(inc) (R169). -/
def sincStep (p : Params) (inc : BitVec 64) : Nat :=
  if 2 ^ 32 < inc.toNat then 1024 * p.sincNum * 2 ^ 32 / (p.sincDen * inc.toNat)
  else 1024 * p.sincNum / p.sincDen

/-! ## Kernel iterations (R170 to R175). Each takes the parameters and the draw number. -/

/-- Store the output of a one-output iteration and advance the input (R170 to R173). -/
def Lane.putOutput (l : Lane) (y : F) : Lane :=
  let l := l.setOutcell 0 y
  let (f, adv) := phaseAcc l.phase l.inc
  { l with rfill := l.rfill + 1, phase := f, wfill := l.wfill - adv }

/-- ITER_0, zero-order hold (R170). -/
def iterZoh (l : Lane) : Lane := l.putOutput (l.inp 0)

/-- ITER_2, linear (R171). -/
def iterLinear (l : Lane) : Lane :=
  l.putOutput (fadd (l.inp 0) (fmul (fsub (l.inp 1) (l.inp 0)) (ph l.phase)))

/-- ITER_4, 4-tap cubic (R172). -/
def iterCubic (p : Params) (draw : Nat) (l : Lane) : Lane :=
  let i := phaseIndex l.phase
  l.putOutput (sumTerms p.sumOrder draw ((List.range 4).map fun c => fmul (l.inp c) (cubicLut i c)))

/-- ITER_5, 32-tap windowed sinc (R173). -/
def iterSinc (p : Params) (draw : Nat) (l : Lane) : Lane :=
  let taps := kernelTaps (sincStep p l.inc) (phaseIndex l.phase)
  let s := sumTerms p.sumOrder (draw + 1)
    (0#32 :: (List.range 32).map fun j => fmul (l.inp j) (taps.getD j 0#32))
  l.putOutput (fdiv s (kernelSum p.sumOrder draw taps))

/-- Add d *F K[m] to outcell(m) for the taps from place `m` on (R174). -/
def Lane.spread (l : Lane) (d : F) : Nat → List F → Lane
  | _, [] => l
  | m, k :: ks => (l.setOutcell m (fadd (l.outcell m) (fmul d k))).spread d (m + 1) ks

/-- Spread a non-zero amplitude change `d` over 32 output cells (R174, R175). -/
def Lane.applyStep (l : Lane) (p : Params) (draw step : Nat) (d : F) : Lane :=
  let taps := kernelTaps step (phaseIndex l.iphase)
  { l with lastAmp := fadd l.lastAmp d }.spread (fdiv d (kernelSum p.sumOrder draw taps)) 0 taps

/-- Step the amplitude to `x`: nothing if the change is 0 (R174, R175). -/
def Lane.stepTo (l : Lane) (p : Params) (draw step : Nat) (x : F) : Lane :=
  if fneZero (fsub x l.lastAmp) then l.applyStep p draw step (fsub x l.lastAmp) else l

/-- Consume one input and advance the output by the inverse phase (R174). -/
def Lane.takeInput (l : Lane) : Lane :=
  let (f, adv) := phaseAcc l.iphase l.iinc
  { l with wfill := l.wfill - 1, iphase := f, rfill := l.rfill + adv }

/-- Finish one output and advance the input by the phase (R175, second branch). -/
def Lane.finishOutput (l : Lane) : Lane :=
  let (f, adv) := phaseAcc l.phase l.inc
  { l with rfill := l.rfill + 1, phase := f, wfill := l.wfill - adv }

/-- ITER_1, BLEP (R174). -/
def iterBlep (p : Params) (draw : Nat) (l : Lane) : Lane :=
  (l.stepTo p draw p.blepStep (l.inp 0)).takeInput

/-- The amplitude ITER_3 steps to: interpolated when upsampling (R175). -/
def blamTarget (l : Lane) : F :=
  if l.inc.toNat < 2 ^ 32 then fadd (l.inp 0) (fmul (fsub (l.inp 1) (l.inp 0)) (ph l.phase)) else l.inp 0

/-- ITER_3's advance: one input at a ratio above 1.0, one output otherwise (R175). -/
def Lane.blamAdvance (l : Lane) : Lane :=
  if l.iinc.toNat < 2 ^ 32 then l.takeInput else l.finishOutput

/-- ITER_3, BLAM (R175). -/
def iterBlam (p : Params) (draw : Nat) (l : Lane) : Lane :=
  (l.stepTo p draw p.blamStep (blamTarget l)).blamAdvance

/-- ITER_q. -/
def Lane.iter (l : Lane) (p : Params) (draw : Nat) : Lane :=
  match l.q with
  | .zoh => iterZoh l
  | .blep => iterBlep p draw l
  | .linear => iterLinear l
  | .blam => iterBlam p draw l
  | .cubic => iterCubic p draw l
  | .sinc => iterSinc p draw l

/-! ## Fill, removal, input (R165 to R168) -/

/-- Whether FILL runs another iteration: enough input, a free cell, and for BLEP and BLAM room for 32 cells (R167). -/
def Lane.canIterate (l : Lane) : Bool :=
  decide (l.q.minFill < l.wfill) && decide (l.rfill < 64) && (!l.q.isBL || decide (l.rfill + 32 ≤ 64))

/-- The iterations of FILL, at most `fuel` of them: the lane and the draw counter after them. -/
def fillLoop (p : Params) : Nat → Lane × Nat → Lane × Nat
  | 0, x => x
  | fuel + 1, (l, draw) =>
    if l.canIterate then fillLoop p fuel (l.iter p draw, nextDraw p.sumOrder draw) else (l, draw)

/-- FILL(RS) (R167). Every iteration lowers wfill or raises rfill, so this many iterations always suffice (log entry
14). -/
def fill (p : Params) (l : Lane) (draw : Nat) : Lane × Nat := fillLoop p (l.wfill.toNat + (64 - l.rfill)) (l, draw)

/-- REMOVE(RS, decay) (R168). -/
def Lane.remove (p : Params) (decay : Bool) (l : Lane) : Lane :=
  if 0 < l.rfill then
    let l :=
      if l.q.isBL then
        let a := fadd l.accum l.head
        let a :=
          if decay then
            let b := fsub a (fmul a p.decayK)
            if fabsLt b p.decayFloor then 0#32 else b
          else a
        { l with accum := a, outRing := ringSet l.outRing l.rpos.toNat 0#32 }
      else l
    { l with rfill := l.rfill - 1, rpos := l.rpos + 1#6 }
  else l

/-- REMOVE(RS, 1) repeated (R166). -/
def Lane.removeMany (p : Params) : Nat → Lane → Lane
  | 0, l => l
  | n + 1, l => Lane.removeMany p n (l.remove p true)

/-- ENSURE_OUTPUT(RS), the lazy fill (R166). -/
def ensureOutput (p : Params) (l : Lane) (draw : Nat) : Lane × Nat :=
  if l.rfill = 0 ∧ l.inc ≠ 0#64 then
    let (l, draw) := fill p l draw
    if l.outPrimed then (l, draw)
    else (Lane.removeMany p l.q.outDelay { l with outPrimed := true }, draw)
  else (l, draw)

/-- write_in(RS, v) (R165): prime on the first write, then store unless 64 samples are pending. -/
def Lane.writeIn (v : F) (l : Lane) : Lane :=
  let l := if l.inPrimed then l else { l with inPrimed := true, wfill := l.q.inDelay }
  if l.wfill < 64 then
    { l with inRing := ringSet l.inRing l.wpos.toNat v, wfill := l.wfill + 1, wpos := l.wpos + 1#6 }
  else l

/-- The value of the head output: accum +F OUT[rpos] for BLEP and BLAM, OUT[rpos] otherwise (R187). -/
def Lane.outputValue (l : Lane) : F := if l.q.isBL then fadd l.head l.accum else l.head

/-! ## Whole-lane commands (R178 to R181) -/

/-- A ring with cells 0 to n-1 cleared to +0.0. -/
def clearCells : Nat → Ring → Ring
  | 0, r => r
  | n + 1, r => ringSet (clearCells n r) n 0#32

/-- A ring of +0.0. -/
def zeroRing : Ring := Vector.replicate 64 0#32

/-- CLEAR_CORE(RS) (R179). -/
def Lane.clear (l : Lane) : Lane :=
  let l := { l with
    wpos := 15#6, wfill := 0, rpos := 0#6, rfill := 0, phase := 0#32
    inPrimed := false, outPrimed := false, inRing := clearCells 15 l.inRing }
  if l.q.isBL then { l with iphase := 0#32, lastAmp := 0#32, accum := 0#32, outRing := zeroRing } else l

/-- The pseudocode of RS.INIT (R178). -/
def Lane.init (l : Lane) : Lane :=
  Lane.clear { l with
    q := .sinc, inc := 0#64, iinc := 0#64, inRing := zeroRing, outRing := zeroRing
    iphase := 0#32, lastAmp := 0#32, accum := 0#32 }

/-- RS.SETQ's effect on a lane (R180). It keeps iphase in every case, as R180's pseudocode and 90_conflicts.md C6 do,
though a corner case of R179 says that a change into BLEP or BLAM resets iphase too: DEDUCED, unsafe (log entry 25). -/
def Lane.setQuality (qn : Quality) (l : Lane) : Lane :=
  if qn = l.q then l
  else
    let l' :=
      if qn.isBL || l.q.isBL then
        { l with rpos := 0#6, rfill := 0, lastAmp := 0#32, accum := 0#32, outRing := zeroRing }
      else l
    { l' with inPrimed := false, outPrimed := false, q := qn }

/-- The stored ratio: clamped to RATIO_MIN..RATIO_MAX (R181). -/
def clampRatio (r : Nat) : Nat := min (max r Config.ratioMin) Config.ratioMax

/-- RS.SETRATE's effect on a lane (R181). -/
def Lane.setRate (r : Nat) (l : Lane) : Lane :=
  { l with inc := BitVec.ofNat 64 (clampRatio r), iinc := BitVec.ofNat 64 (2 ^ 64 / clampRatio r) }

end Sys2Proof.Machine
end

