-- ==== Sys2Proof/Machine/Resampler.lean ====
section
/-! DEFINITION. The meanings of the resampler commands (41_resampler.md R177 to R193). -/

namespace Sys2Proof.Machine

open Sys2Proof

/-- RS.INIT (R178). -/
def execRsInit (v : VoiceIx) (lane : LaneSel) (s : State) : Out := updateLanes v lane s Lane.init

/-- RS.CLEAR (R179). -/
def execRsClear (v : VoiceIx) (lane : LaneSel) (s : State) : Out := updateLanes v lane s Lane.clear

/-- RS.SETQ (R180). -/
def execRsSetq (v : VoiceIx) (lane : LaneSel) (level : BitVec 16) (s : State) : Out :=
  updateLanes v lane s (Lane.setQuality (qualityOfImm level))

/-- RS.SETRATE (R181). -/
def execRsSetrate (v : VoiceIx) (lane : LaneSel) (lo hi : Word) (s : State) : Out :=
  updateLanes v lane s (Lane.setRate (ratioOfWords lo hi))

/-- RS.WRITE (R182). -/
def execRsWrite (v : VoiceIx) (lane : LaneSel) (sample : BitVec 16) (s : State) : Out :=
  updateLanes v lane s (Lane.writeIn (sampleOfImm sample))

/-- RS.WRITEF (R183). -/
def execRsWritef (v : VoiceIx) (lane : LaneSel) (depth : BitVec 6) (value : Word) (s : State) : Out :=
  updateLanes v lane s (Lane.writeIn (sampleOfFixed value depth))

/-- RS.FREE (R184). -/
def execRsFree (v : VoiceIx) (lane : LaneSel) (s : State) : Out :=
  withLane v lane s fun _ _ l => .next (s.emit (u32 (64 - l.wfill)))

/-- RS.READY (R185). -/
def execRsReady (v : VoiceIx) (lane : LaneSel) (s : State) : Out :=
  withLane v lane s fun _ _ l => .next (s.emit (wordOfBool (decide (l.q.minFill < l.wfill))))

/-- Run the lazy fill on one lane and emit a word of the lane after it (R166, R186 to R188). -/
def fillThenEmit (v : VoiceIx) (lane : LaneSel) (s : State) (f : Lane → Word) : Out :=
  withLane v lane s fun c side l =>
    let r := ensureOutput s.params l s.draws
    .next (((s.setVoice v { c with lanes := c.lanes.set side r.1 }).setDraws r.2).emit (f r.1))

/-- RS.COUNT (R186). -/
def execRsCount (v : VoiceIx) (lane : LaneSel) (s : State) : Out :=
  fillThenEmit v lane s fun l => wordOfNat l.rfill

/-- RS.GET (R187). -/
def execRsGet (v : VoiceIx) (lane : LaneSel) (s : State) : Out :=
  fillThenEmit v lane s fun l => if l.rfill = 0 then 0#32 else u32 (intOfF l.outputValue)

/-- RS.GETF (R188). -/
def execRsGetf (v : VoiceIx) (lane : LaneSel) (s : State) : Out :=
  fillThenEmit v lane s fun l => if l.rfill = 0 then 0#32 else l.outputValue

/-- RS.REMOVE (R189). -/
def execRsRemove (v : VoiceIx) (lane : LaneSel) (decay : Bool) (s : State) : Out :=
  updateLanes v lane s (Lane.remove s.params decay)

/-- RS.DUP (R190): VOICE, then LANE, then the source voice are checked (60_exceptions.md R345). -/
def execRsDup (v : VoiceIx) (lane : LaneSel) (srcVoice : VoiceIx) (srcLane : Side) (s : State) : Out :=
  withVoice v s fun c =>
    match lane with
    | .left => withVoice srcVoice s fun src =>
        .next (s.setVoice v { c with lanes := c.lanes.set .left (src.lanes.get srcLane) })
    | .right => withVoice srcVoice s fun src =>
        .next (s.setVoice v { c with lanes := c.lanes.set .right (src.lanes.get srcLane) })
    | .both => withVoice srcVoice s fun src => .next (s.setVoice v { c with lanes := src.lanes })
    | .reserved => .next (s.raise .lane)

end Sys2Proof.Machine
end

