-- ==== Sys2Proof/Machine/Dispatch.lean ====
section
/-! DEFINITION. One meaning for each command of spec/opcode_table.json. -/

namespace Sys2Proof.Machine

open Sys2Proof

/-- The effect of a command whose words have been taken from the stream. -/
def exec (i : Instr) (s : State) : Host.Outcome State Fault Refusal :=
  match i with
  | .nop => Sys2Proof.Machine.execNop s
  | .mulsc a b => Sys2Proof.Machine.execMulsc a b s
  | .mulscv a b => Sys2Proof.Machine.execMulscv a b s
  | .mulsca x c => Sys2Proof.Machine.execMulsca x c s
  | .mulsc16 a b => Sys2Proof.Machine.execMulsc16 a b s
  | .lerp a b f => Sys2Proof.Machine.execLerp a b f s
  | .aclr => Sys2Proof.Machine.execAclr s
  | .aadd x => Sys2Proof.Machine.execAadd x s
  | .amac x c => Sys2Proof.Machine.execAmac x c s
  | .ard => Sys2Proof.Machine.execArd s
  | .rsInit v lane => Sys2Proof.Machine.execRsInit v lane s
  | .rsClear v lane => Sys2Proof.Machine.execRsClear v lane s
  | .rsSetq v lane level => Sys2Proof.Machine.execRsSetq v lane level s
  | .rsSetrate v lane lo hi => Sys2Proof.Machine.execRsSetrate v lane lo hi s
  | .rsWrite v lane sample => Sys2Proof.Machine.execRsWrite v lane sample s
  | .rsWritef v lane depth value => Sys2Proof.Machine.execRsWritef v lane depth value s
  | .rsFree v lane => Sys2Proof.Machine.execRsFree v lane s
  | .rsReady v lane => Sys2Proof.Machine.execRsReady v lane s
  | .rsCount v lane => Sys2Proof.Machine.execRsCount v lane s
  | .rsGet v lane => Sys2Proof.Machine.execRsGet v lane s
  | .rsGetf v lane => Sys2Proof.Machine.execRsGetf v lane s
  | .rsRemove v lane decay => Sys2Proof.Machine.execRsRemove v lane decay s
  | .rsDup v lane srcVoice srcLane => Sys2Proof.Machine.execRsDup v lane srcVoice srcLane s
  | .flCoef v cutoff resonance fs => Sys2Proof.Machine.execFlCoef v cutoff resonance fs s
  | .flSetc v a b c => Sys2Proof.Machine.execFlSetc v a b c s
  | .flRun v lane x => Sys2Proof.Machine.execFlRun v lane x s
  | .flReset v => Sys2Proof.Machine.execFlReset v s
  | .flEn v e => Sys2Proof.Machine.execFlEn v e s
  | .envReset v sel => Sys2Proof.Machine.execEnvReset v sel s
  | .envTick v sel => Sys2Proof.Machine.execEnvTick v sel s
  | .envRead v sel => Sys2Proof.Machine.execEnvRead v sel s
  | .envRelease v k => Sys2Proof.Machine.execEnvRelease v k s
  | .fadeStart v => Sys2Proof.Machine.execFadeStart v s
  | .fadeTick v => Sys2Proof.Machine.execFadeTick v s
  | .lfoReset v sel => Sys2Proof.Machine.execLfoReset v sel s
  | .lfoTick v sel => Sys2Proof.Machine.execLfoTick v sel s
  | .dckSettgt v l r => Sys2Proof.Machine.execDckSettgt v l r s
  | .dckStep v xl xr => Sys2Proof.Machine.execDckStep v xl xr s
  | .dckCut v => Sys2Proof.Machine.execDckCut v s
  | .dckRetrig v => Sys2Proof.Machine.execDckRetrig v s
  | .dckHk v => Sys2Proof.Machine.execDckHk v s
  | .regRd v idx => Sys2Proof.Machine.execRegRd v idx s
  | .regWr v idx w => Sys2Proof.Machine.execRegWr v idx w s
  | .vcReset v => Sys2Proof.Machine.execVcReset v s

end Sys2Proof.Machine
end

