-- ==== Sys2Proof/Decode.lean ====
section
/-! DEFINITION. The decoder, total on any list of stream words, and the encoder (30_encoding.md R100 to R111). -/

namespace Sys2Proof

/-! ## Fields of the command word (R101) -/

/-- OPC, bits 31:26. -/
def opcOf (w : Word) : BitVec 6 := w.extractLsb' 26 6
/-- VOICE, bits 25:20. -/
def voiceOf (w : Word) : VoiceIx := w.extractLsb' 20 6
/-- The LANE bits 19:18. -/
def laneBits (w : Word) : BitVec 2 := w.extractLsb' 18 2
/-- The SEL bits 17:16. -/
def selBits (w : Word) : BitVec 2 := w.extractLsb' 16 2
/-- IMM16, bits 15:0. -/
def immOf (w : Word) : BitVec 16 := w.extractLsb' 0 16

/-- LANE read as its meaning (R105). -/
def laneOfBits (b : BitVec 2) : LaneSel :=
  match b.toNat with
  | 0 => .left
  | 1 => .right
  | 2 => .both
  | _ => .reserved

/-- The LANE bits of a lane selector (R105). -/
def bitsOfLane : LaneSel → BitVec 2
  | .left => 0#2
  | .right => 1#2
  | .both => 2#2
  | .reserved => 3#2

/-- SEL read as its meaning (R106). -/
def selOfBits (b : BitVec 2) : Sel :=
  match b.toNat with
  | 0 => .s0
  | 1 => .s1
  | 2 => .s2
  | _ => .reserved

/-- The SEL bits of a selector (R106). -/
def bitsOfSel : Sel → BitVec 2
  | .s0 => 0#2
  | .s1 => 1#2
  | .s2 => 2#2
  | .reserved => 3#2

/-- LANE of a command word. -/
def laneOf (w : Word) : LaneSel := laneOfBits (laneBits w)
/-- SEL of a command word. -/
def selOf (w : Word) : Sel := selOfBits (selBits w)
/-- IMM16[0], the flag of RS.REMOVE, FL.EN and ENV.RELEASE (R107). -/
def immFlag (w : Word) : Bool := w.getLsbD 0
/-- IMM16[5:0], the depth of RS.WRITEF and the source voice of RS.DUP (R107). -/
def immLow6 (w : Word) : BitVec 6 := w.extractLsb' 0 6
/-- IMM16[11:0], the register index of REG.RD and REG.WR (R107). -/
def immIndex (w : Word) : BitVec 12 := w.extractLsb' 0 12

/-- The source lane of RS.DUP: IMM16[8] for LANE 0 or 1, otherwise ignored (R107, R108) and read as L. -/
def dupSource (w : Word) : Side :=
  match laneOf w with
  | .left | .right => if w.getLsbD 8 then .right else .left
  | .both | .reserved => .left

/-- The voice of REG.RD and REG.WR: ignored for a global index (10_state.md R48; R108) and read as 0 there. -/
def regVoice (w : Word) : VoiceIx := if 0x100 ≤ (immIndex w).toNat then voiceOf w else 0#6

/-! ## The opcode map (R104) -/

/-- The number of operand words of an opcode, from OPC alone (R104, R111); none for a reserved OPC (R109). -/
def operandCount (opc : BitVec 6) : Option Nat :=
  match opc.toNat with
  | 0x00 => some 0 | 0x01 => some 2 | 0x02 => some 2 | 0x03 => some 2 | 0x04 => some 2
  | 0x05 => some 3 | 0x06 => some 0 | 0x07 => some 1 | 0x08 => some 2 | 0x09 => some 0
  | 0x10 => some 0 | 0x11 => some 0 | 0x12 => some 0 | 0x13 => some 2 | 0x14 => some 0
  | 0x15 => some 1 | 0x16 => some 0 | 0x17 => some 0 | 0x18 => some 0 | 0x19 => some 0
  | 0x1A => some 0 | 0x1B => some 0 | 0x1C => some 0
  | 0x20 => some 2 | 0x21 => some 3 | 0x22 => some 1 | 0x23 => some 0 | 0x24 => some 0
  | 0x28 => some 0 | 0x29 => some 0 | 0x2A => some 0 | 0x2B => some 0
  | 0x2C => some 0 | 0x2D => some 0 | 0x2E => some 0 | 0x2F => some 0
  | 0x30 => some 2 | 0x31 => some 2 | 0x32 => some 0 | 0x33 => some 0 | 0x34 => some 0
  | 0x38 => some 0 | 0x39 => some 1 | 0x3A => some 0
  | _ => none

/-- The command of a command word `w` with operand words `x`, `y`, `z` (those the opcode does not take are not read);
none for a reserved OPC. -/
def instrOf (w x y z : Word) : Option Instr :=
  match (opcOf w).toNat with
  | 0x00 => some .nop
  | 0x01 => some (.mulsc x y)
  | 0x02 => some (.mulscv x y)
  | 0x03 => some (.mulsca x y)
  | 0x04 => some (.mulsc16 x y)
  | 0x05 => some (.lerp x y z)
  | 0x06 => some .aclr
  | 0x07 => some (.aadd x)
  | 0x08 => some (.amac x y)
  | 0x09 => some .ard
  | 0x10 => some (.rsInit (voiceOf w) (laneOf w))
  | 0x11 => some (.rsClear (voiceOf w) (laneOf w))
  | 0x12 => some (.rsSetq (voiceOf w) (laneOf w) (immOf w))
  | 0x13 => some (.rsSetrate (voiceOf w) (laneOf w) x y)
  | 0x14 => some (.rsWrite (voiceOf w) (laneOf w) (immOf w))
  | 0x15 => some (.rsWritef (voiceOf w) (laneOf w) (immLow6 w) x)
  | 0x16 => some (.rsFree (voiceOf w) (laneOf w))
  | 0x17 => some (.rsReady (voiceOf w) (laneOf w))
  | 0x18 => some (.rsCount (voiceOf w) (laneOf w))
  | 0x19 => some (.rsGet (voiceOf w) (laneOf w))
  | 0x1A => some (.rsGetf (voiceOf w) (laneOf w))
  | 0x1B => some (.rsRemove (voiceOf w) (laneOf w) (immFlag w))
  | 0x1C => some (.rsDup (voiceOf w) (laneOf w) (immLow6 w) (dupSource w))
  | 0x20 => some (.flCoef (voiceOf w) (immOf w) (x.extractLsb' 0 8) y)
  | 0x21 => some (.flSetc (voiceOf w) x y z)
  | 0x22 => some (.flRun (voiceOf w) (laneOf w) x)
  | 0x23 => some (.flReset (voiceOf w))
  | 0x24 => some (.flEn (voiceOf w) (immFlag w))
  | 0x28 => some (.envReset (voiceOf w) (selOf w))
  | 0x29 => some (.envTick (voiceOf w) (selOf w))
  | 0x2A => some (.envRead (voiceOf w) (selOf w))
  | 0x2B => some (.envRelease (voiceOf w) (immFlag w))
  | 0x2C => some (.fadeStart (voiceOf w))
  | 0x2D => some (.fadeTick (voiceOf w))
  | 0x2E => some (.lfoReset (voiceOf w) (selOf w))
  | 0x2F => some (.lfoTick (voiceOf w) (selOf w))
  | 0x30 => some (.dckSettgt (voiceOf w) x y)
  | 0x31 => some (.dckStep (voiceOf w) x y)
  | 0x32 => some (.dckCut (voiceOf w))
  | 0x33 => some (.dckRetrig (voiceOf w))
  | 0x34 => some (.dckHk (voiceOf w))
  | 0x38 => some (.regRd (regVoice w) (immIndex w))
  | 0x39 => some (.regWr (regVoice w) (immIndex w) x)
  | 0x3A => some (.vcReset (voiceOf w))
  | _ => none

/-- What the decoder finds at the head of the command stream. -/
inductive Decoded where
  /-- a complete command, and the words after it -/
  | command (i : Instr) (rest : List Word)
  /-- no word, or fewer words than the opcode's operand count asks for (20_memory.md R85) -/
  | incomplete
  /-- a reserved OPC: a one-word command that raises ERR_OPC (R109), and the words after it -/
  | reserved (opc : BitVec 6) (rest : List Word)
  deriving DecidableEq, Repr

/-- Decode the head of the stream: the length comes from OPC alone (R111), the operand words follow in order (R103). -/
def decode : List Word → Decoded
  | [] => .incomplete
  | w :: rest =>
    match operandCount (opcOf w) with
    | none => .reserved (opcOf w) rest
    | some n =>
      if rest.length < n then .incomplete
      else
        match instrOf w (rest.getD 0 0#32) (rest.getD 1 0#32) (rest.getD 2 0#32) with
        | some i => .command i (rest.drop n)
        | none => .reserved (opcOf w) rest

/-! ## The encoder -/

/-- A command word from its fields (R101). -/
def commandWord (opc : BitVec 6) (voice : VoiceIx) (lane sel : BitVec 2) (imm : BitVec 16) : Word :=
  opc ++ voice ++ lane ++ sel ++ imm

/-- A global command: every other field is unused and zero (R108). -/
def globalWord (opc : BitVec 6) : Word := commandWord opc 0#6 0#2 0#2 0#16
/-- A command that reads VOICE and IMM16. -/
def voiceWord (opc : BitVec 6) (v : VoiceIx) (imm : BitVec 16) : Word := commandWord opc v 0#2 0#2 imm
/-- A command that reads VOICE, LANE and IMM16. -/
def laneWord (opc : BitVec 6) (v : VoiceIx) (lane : LaneSel) (imm : BitVec 16) : Word :=
  commandWord opc v (bitsOfLane lane) 0#2 imm
/-- A command that reads VOICE and SEL. -/
def selWord (opc : BitVec 6) (v : VoiceIx) (sel : Sel) : Word := commandWord opc v 0#2 (bitsOfSel sel) 0#16

/-- A one-bit immediate in IMM16[0] (R107). -/
def flagImm (b : Bool) : BitVec 16 := if b then 1#16 else 0#16

/-- The IMM16 of RS.DUP: source voice in bits 5:0, source lane in bit 8 (R107). -/
def dupImm (srcVoice : VoiceIx) (srcLane : Side) : BitVec 16 :=
  0#7 ++ (match srcLane with | .left => 0#1 | .right => 1#1) ++ 0#2 ++ srcVoice

/-- The words of a well-formed command: command word, then operand words in order (R100, R103, R104). -/
def encode : Instr → List Word
  | .nop => [globalWord 0x00#6]
  | .mulsc a b => [globalWord 0x01#6, a, b]
  | .mulscv a b => [globalWord 0x02#6, a, b]
  | .mulsca x c => [globalWord 0x03#6, x, c]
  | .mulsc16 a b => [globalWord 0x04#6, a, b]
  | .lerp a b f => [globalWord 0x05#6, a, b, f]
  | .aclr => [globalWord 0x06#6]
  | .aadd x => [globalWord 0x07#6, x]
  | .amac x c => [globalWord 0x08#6, x, c]
  | .ard => [globalWord 0x09#6]
  | .rsInit v lane => [laneWord 0x10#6 v lane 0#16]
  | .rsClear v lane => [laneWord 0x11#6 v lane 0#16]
  | .rsSetq v lane level => [laneWord 0x12#6 v lane level]
  | .rsSetrate v lane lo hi => [laneWord 0x13#6 v lane 0#16, lo, hi]
  | .rsWrite v lane sample => [laneWord 0x14#6 v lane sample]
  | .rsWritef v lane depth value => [laneWord 0x15#6 v lane (depth.setWidth 16), value]
  | .rsFree v lane => [laneWord 0x16#6 v lane 0#16]
  | .rsReady v lane => [laneWord 0x17#6 v lane 0#16]
  | .rsCount v lane => [laneWord 0x18#6 v lane 0#16]
  | .rsGet v lane => [laneWord 0x19#6 v lane 0#16]
  | .rsGetf v lane => [laneWord 0x1A#6 v lane 0#16]
  | .rsRemove v lane decay => [laneWord 0x1B#6 v lane (flagImm decay)]
  | .rsDup v lane srcVoice srcLane => [laneWord 0x1C#6 v lane (dupImm srcVoice srcLane)]
  | .flCoef v cutoff resonance fs => [voiceWord 0x20#6 v cutoff, resonance.setWidth 32, fs]
  | .flSetc v a b c => [voiceWord 0x21#6 v 0#16, a, b, c]
  | .flRun v lane x => [laneWord 0x22#6 v lane 0#16, x]
  | .flReset v => [voiceWord 0x23#6 v 0#16]
  | .flEn v e => [voiceWord 0x24#6 v (flagImm e)]
  | .envReset v sel => [selWord 0x28#6 v sel]
  | .envTick v sel => [selWord 0x29#6 v sel]
  | .envRead v sel => [selWord 0x2A#6 v sel]
  | .envRelease v k => [voiceWord 0x2B#6 v (flagImm k)]
  | .fadeStart v => [voiceWord 0x2C#6 v 0#16]
  | .fadeTick v => [voiceWord 0x2D#6 v 0#16]
  | .lfoReset v sel => [selWord 0x2E#6 v sel]
  | .lfoTick v sel => [selWord 0x2F#6 v sel]
  | .dckSettgt v l r => [voiceWord 0x30#6 v 0#16, l, r]
  | .dckStep v xl xr => [voiceWord 0x31#6 v 0#16, xl, xr]
  | .dckCut v => [voiceWord 0x32#6 v 0#16]
  | .dckRetrig v => [voiceWord 0x33#6 v 0#16]
  | .dckHk v => [voiceWord 0x34#6 v 0#16]
  | .regRd v idx => [voiceWord 0x38#6 v (idx.setWidth 16)]
  | .regWr v idx w => [voiceWord 0x39#6 v (idx.setWidth 16), w]
  | .vcReset v => [voiceWord 0x3A#6 v 0#16]

/-! ## The host's view of the decoder -/

/-- The words of an instruction whose bits are `w`, numbered as spec/opcode_table.json numbers them, with every bit at
or above `nbits` zero, up to the longest command (four words, R100). -/
def tableWords (nbits w : Nat) : List Word :=
  let v := w % 2 ^ nbits
  [BitVec.ofNat 32 v, BitVec.ofNat 32 (v / 2 ^ 32), BitVec.ofNat 32 (v / 2 ^ 64), BitVec.ofNat 32 (v / 2 ^ 96)]

/-- The instruction this decoder reads from the bits `w`; none for a reserved OPC. -/
def decodeTableWord (nbits w : Nat) : Option Instr :=
  match decode (tableWords nbits w) with
  | .command i _ => some i
  | .incomplete => none
  | .reserved _ _ => none

end Sys2Proof
end

