-- ==== Sys2Proof/Machine/Fetch.lean ====
section
/-! DEFINITION. Taking the next command from the command stream (20_memory.md R85, R89; 30_encoding.md R109, R111). -/

namespace Sys2Proof.Machine

open Sys2Proof

/-- The command at the head of the command input buffer. -/
def fetch (s : State) : Decoded := decode s.input

/-- The state with a command's words consumed: `rest` is what follows them. -/
def consume (s : State) (rest : List Word) : State := s.setInput rest

/-- A reserved OPC: a one-word command that raises ERR_OPC and emits nothing (R109). -/
def takeReserved (s : State) (rest : List Word) : State := (consume s rest).raise .opc

/-- The number of words of the command whose command word is `w`, from OPC alone (R111); one for a reserved OPC (R109). -/
def commandLength (w : Word) : Nat :=
  match operandCount (opcOf w) with
  | some n => 1 + n
  | none => 1

/-- The words of one command given as table bits, and no word after it. -/
def commandWords (nbits w : Nat) : List Word :=
  let ws := tableWords nbits w
  ws.take (commandLength (ws.getD 0 0#32))

end Sys2Proof.Machine
end

