-- ==== Sys2Proof/Machine/Step.lean ====
section
/-! DEFINITION. One step of the block: take the next complete command and run it as one indivisible step
(20_memory.md R85, R89). -/

namespace Sys2Proof.Machine

open Sys2Proof

/-- One step: a complete command runs after its words are consumed; a reserved OPC raises ERR_OPC; without a complete
command the block waits. -/
def step (s : State) : Host.Outcome State Fault Refusal :=
  match fetch s with
  | .command i rest => exec i (consume s rest)
  | .reserved _ rest => .next (takeReserved s rest)
  | .incomplete => .fault .waiting

/-- The state with the command of table bits `w`, and nothing else, in the command input buffer, so that the next step
runs it: the host's push of one command (log entry 7). -/
def State.withFetchWord (s : State) (nbits w : Nat) : State := s.setInput (commandWords nbits w)

end Sys2Proof.Machine
end

