-- ==== Sys2Proof/Safety.lean ====
section
/-! DEFINITION. The terms claims use. First the columns of the opcode map (30_encoding.md R104) and of the register index
map (10_state.md R48 to R56) as tables, with the error a command must raise (60_exceptions.md R345), each written from
the spec's tables and not from the meanings. Then what counts as a legal state: the ranges 10_state.md gives the fields
whose types do not already give them, and the invariants of R40. -/

namespace Sys2Proof

/-! ## The columns of the opcode map (R104) -/

/-- Column "ops": the number of operand words. -/
def Instr.operands : Instr → Nat
  | .lerp .. | .flSetc .. => 3
  | .mulsc .. | .mulscv .. | .mulsca .. | .mulsc16 .. | .amac .. | .rsSetrate .. | .flCoef .. | .dckSettgt ..
  | .dckStep .. => 2
  | .aadd .. | .rsWritef .. | .flRun .. | .regWr .. => 1
  | .nop | .aclr | .ard | .rsInit .. | .rsClear .. | .rsSetq .. | .rsWrite .. | .rsFree .. | .rsReady ..
  | .rsCount .. | .rsGet .. | .rsGetf .. | .rsRemove .. | .rsDup .. | .flReset .. | .flEn .. | .envReset ..
  | .envTick .. | .envRead .. | .envRelease .. | .fadeStart .. | .fadeTick .. | .lfoReset .. | .lfoTick ..
  | .dckCut .. | .dckRetrig .. | .dckHk .. | .regRd .. | .vcReset .. => 0

/-- Column "res": the number of response words of a command that raises no error. -/
def Instr.results : Instr → Nat
  | .envTick .. | .dckStep .. => 2
  | .mulsc .. | .mulscv .. | .mulsca .. | .mulsc16 .. | .lerp .. | .ard | .rsFree .. | .rsReady .. | .rsCount ..
  | .rsGet .. | .rsGetf .. | .flRun .. | .envRead .. | .fadeTick .. | .lfoTick .. | .dckHk .. | .regRd .. => 1
  | .nop | .aclr | .aadd .. | .amac .. | .rsInit .. | .rsClear .. | .rsSetq .. | .rsSetrate .. | .rsWrite ..
  | .rsWritef .. | .rsRemove .. | .rsDup .. | .flCoef .. | .flSetc .. | .flReset .. | .flEn .. | .envReset ..
  | .envRelease .. | .fadeStart .. | .lfoReset .. | .dckSettgt .. | .dckCut .. | .dckRetrig .. | .regWr ..
  | .vcReset .. => 0

/-- Column "scope": the voice a command reads or changes; none for a global command, and none for a global register
index (R102, 45_control.md R321). -/
def Instr.voice? : Instr → Option VoiceIx
  | .nop | .mulsc .. | .mulscv .. | .mulsca .. | .mulsc16 .. | .lerp .. | .aclr | .aadd .. | .amac .. | .ard => none
  | .rsInit v _ | .rsClear v _ | .rsSetq v _ _ | .rsSetrate v _ _ _ | .rsWrite v _ _ | .rsWritef v _ _ _
  | .rsFree v _ | .rsReady v _ | .rsCount v _ | .rsGet v _ | .rsGetf v _ | .rsRemove v _ _ | .rsDup v _ _ _
  | .flCoef v _ _ _ | .flSetc v _ _ _ | .flRun v _ _ | .flReset v | .flEn v _ | .envReset v _ | .envTick v _
  | .envRead v _ | .envRelease v _ | .fadeStart v | .fadeTick v | .lfoReset v _ | .lfoTick v _ | .dckSettgt v _ _
  | .dckStep v _ _ | .dckCut v | .dckRetrig v | .dckHk v | .vcReset v => some v
  | .regRd v idx | .regWr v idx _ => if 0x100 ≤ idx.toNat then some v else none

/-- The LANE field of a command whose LANE column lists 0,1,2. -/
def Instr.anyLane? : Instr → Option LaneSel
  | .rsInit _ lane | .rsClear _ lane | .rsSetq _ lane _ | .rsSetrate _ lane _ _ | .rsWrite _ lane _
  | .rsWritef _ lane _ _ | .rsRemove _ lane _ | .rsDup _ lane _ _ => some lane
  | _ => none

/-- The LANE field of a command whose LANE column lists 0,1. -/
def Instr.oneLane? : Instr → Option LaneSel
  | .rsFree _ lane | .rsReady _ lane | .rsCount _ lane | .rsGet _ lane | .rsGetf _ lane | .flRun _ lane _ => some lane
  | _ => none

/-- The SEL field of a command whose SEL column lists 0,1,2. -/
def Instr.sel? : Instr → Option Sel
  | .envReset _ sel | .envTick _ sel | .envRead _ sel | .lfoReset _ sel | .lfoTick _ sel => some sel
  | _ => none

/-- The source voice of RS.DUP (41_resampler.md R190). -/
def Instr.sourceVoice? : Instr → Option VoiceIx
  | .rsDup _ _ srcVoice _ => some srcVoice
  | _ => none

/-- The register index of REG.RD and REG.WR. -/
def Instr.index? : Instr → Option Nat
  | .regRd _ idx | .regWr _ idx _ => some idx.toNat
  | _ => none

/-- Whether a command writes a register by index. -/
def Instr.isRegWrite : Instr → Bool
  | .regWr .. => true
  | _ => false

/-- The reserved OPC values (R104). -/
def reservedOpcode (opc : Nat) : Bool :=
  decide (0x0A ≤ opc ∧ opc ≤ 0x0F) || decide (0x1D ≤ opc ∧ opc ≤ 0x1F) || decide (0x25 ≤ opc ∧ opc ≤ 0x27)
  || decide (0x35 ≤ opc ∧ opc ≤ 0x37) || decide (0x3B ≤ opc ∧ opc ≤ 0x3F)

/-- The bits of a command word that its command uses (R101, R104, R107, R108): OPC always, VOICE unless the command or
the register index is global, LANE and SEL where their columns list values, and the bits of IMM16 of R107. -/
def usedBits (w : Word) : Word :=
  match w.toNat / 2 ^ 26 with
  | 0x10 | 0x11 | 0x13 | 0x16 | 0x17 | 0x18 | 0x19 | 0x1A | 0x22 => 0xFFFC0000#32
  | 0x12 | 0x14 => 0xFFFCFFFF#32
  | 0x15 => 0xFFFC003F#32
  | 0x1B => 0xFFFC0001#32
  | 0x1C => if w.getLsbD 19 then 0xFFFC003F#32 else 0xFFFC013F#32
  | 0x20 => 0xFFF0FFFF#32
  | 0x24 | 0x2B => 0xFFF00001#32
  | 0x28 | 0x29 | 0x2A | 0x2E | 0x2F => 0xFFF30000#32
  | 0x21 | 0x23 | 0x2C | 0x2D | 0x30 | 0x31 | 0x32 | 0x33 | 0x34 | 0x3A => 0xFFF00000#32
  | 0x38 | 0x39 => if w.toNat % 2 ^ 12 < 0x100 then 0xFC000FFF#32 else 0xFFF00FFF#32
  | _ => 0xFC000000#32

/-! ## The columns of the register index map (10_state.md R48 to R56) -/

/-- The reserved offsets of an envelope (R52): 0x09-0x1F, 0x39-0x3F and 0x59-0x7F. -/
def reservedEnvOffset (off : Nat) : Bool :=
  decide (0x09 ≤ off ∧ off ≤ 0x1F) || decide (0x39 ≤ off ∧ off ≤ 0x3F) || decide (0x59 ≤ off)

/-- The reserved indexes of R48 to R56 (0x180-0x1FF is listed in no table: log entry 16). -/
def reservedIndex (idx : Nat) : Bool :=
  decide (0x006 ≤ idx ∧ idx ≤ 0x0FF)
  || decide (0x10E ≤ idx ∧ idx ≤ 0x13F) || decide (0x14E ≤ idx ∧ idx ≤ 0x1FF)
  || decide (0x308 ≤ idx ∧ idx ≤ 0x3FF)
  || (decide (0x400 ≤ idx ∧ idx ≤ 0x57F) && reservedEnvOffset (idx % 0x80))
  || decide (0x584 ≤ idx ∧ idx ≤ 0x5FF)
  || (decide (0x600 ≤ idx ∧ idx ≤ 0x617) && decide (4 ≤ idx % 8))
  || decide (0x618 ≤ idx ∧ idx ≤ 0x6FF)
  || decide (0x705 ≤ idx)

/-- The read-only registers of R48 to R55: ID, NV, CAPS; every lane register and ring cell; the envelope cursors; STAGE
and CUR. -/
def readOnlyIndex (idx : Nat) : Bool :=
  idx == 0x001 || idx == 0x002 || idx == 0x005
  || decide (0x100 ≤ idx ∧ idx ≤ 0x2FF)
  || (decide (0x400 ≤ idx ∧ idx ≤ 0x57F) && decide (0x06 ≤ idx % 0x80 ∧ idx % 0x80 ≤ 0x08))
  || decide (0x700 ≤ idx ∧ idx ≤ 0x702)

namespace Machine

/-- The first error check of R345 that fails, for a block of `nv` voice contexts; none for a command that must run. -/
def firstError (i : Instr) (nv : Nat) : Option ErrCode :=
  if i.voice?.any (fun v => decide (nv ≤ v.toNat)) then some .voice
  else if i.anyLane? = some .reserved ∨ i.oneLane? = some .both ∨ i.oneLane? = some .reserved then some .lane
  else if i.sel? = some .reserved then some .sel
  else if i.sourceVoice?.any (fun v => decide (nv ≤ v.toNat)) then some .voice
  else if i.index?.any reservedIndex then some .reg
  else if i.isRegWrite && i.index?.any readOnlyIndex then some .ro
  else none

/-- The LANE value that names one side. -/
def laneOfSide : Side → LaneSel
  | .left => .left
  | .right => .right

/-- The SEL value of an envelope or LFO number. -/
def selOfIndex : Fin 3 → Sel
  | 0 => .s0
  | 1 => .s1
  | 2 => .s2

/-- The word a write of `w` leaves to be read in a writable register: the "write stores" columns of R51 to R55 with the
read formats of R57. -/
def storedWord (r : VReg) (w : Word) : Word :=
  match r with
  | .flEn | .released | .fading => w &&& 1#32
  | .env _ .flags => w &&& 7#32
  | .env _ .n => if w.toNat < 25 then w else 25#32
  | .env _ .ls | .env _ .le | .env _ .ss | .env _ .se => if w.toNat < 24 then w else 24#32
  | .env _ (.nodeTick _) => w &&& 0xFFFF#32
  | .env _ (.nodeValue _) => (w.extractLsb' 0 8).signExtend 32
  | .lfo _ .shape => w &&& 3#32
  | .lfo _ .pos | .lfo _ .speed | .lfo _ .depth => w &&& 0xFF#32
  | .dckTgt _ => if w.toInt < 0 then 0#32 else if w.toInt ≤ 0x7FFFF then w else 0x7FFFF#32
  | _ => w

/-- One ramp step of size `δ` from `c` toward `t`, landing on `t` instead of passing it (44_declick.md R301). -/
def rampToward (δ c t : Nat) : Nat := if c ≤ t then min t (c + δ) else max t (c - δ)

/-- An envelope after a run of ENV.TICKs that run, `released` being the voice's flag at each (43_envelope_lfo.md R271). -/
def Envelope.run (mode : LoopMode) : List Bool → Envelope → Envelope
  | [], e => e
  | released :: rest, e => Envelope.run mode rest (e.ticked mode released)

/-- The magnitude, in units of 2^-149, of the finite binary32 encoding with bits 30:0 equal to `b` (00_scope.md R15). -/
def finiteMagnitude (b : Nat) : Nat :=
  if b / 2 ^ 23 = 0 then b else (2 ^ 23 + b % 2 ^ 23) * 2 ^ (b / 2 ^ 23 - 1)

/-- `SumOf xs y`: `y` is the sum of the terms `xs` in some association order, each addition rounded (41_resampler.md R176;
93_implementation_defined.md U15). -/
inductive SumOf : List F → F → Prop where
  | term (x : F) : SumOf [x] x
  | sum {xs as bs : List F} {a b : F} : (as ++ bs).Perm xs → SumOf as a → SumOf bs b → SumOf xs (fadd a b)

/-- The fraction bits and exponent of an encoding: its bits 30:0, in the order of the magnitudes (00_scope.md R15). -/
def magnitudeBits (x : F) : Nat := x.toNat % 2 ^ 31

/-- The entries 0 to 63 of SINE_TAB that 43_envelope_lfo.md R283 prints. -/
def printedSine : List Int :=
  [0, 2, 3, 5, 6, 8, 9, 11, 12, 14, 16, 17, 19, 20, 22, 23,
   24, 26, 27, 29, 30, 32, 33, 34, 36, 37, 38, 39, 41, 42, 43, 44,
   45, 46, 47, 48, 49, 50, 51, 52, 53, 54, 55, 56, 56, 57, 58, 59,
   59, 60, 60, 61, 61, 62, 62, 62, 63, 63, 63, 64, 64, 64, 64, 64]

/-- Bits 63:32 of the signed product of two words. -/
def highProduct (x y : Word) : Word := (x.signExtend 64 * y.signExtend 64).extractLsb' 32 32

end Machine

end Sys2Proof

namespace Sys2Proof.Machine

open Sys2Proof

/-- A stored phase increment pair: both 0, or inc in RATIO_MIN..RATIO_MAX and iinc = floor(2^64 / inc) (R40). -/
abbrev Lane.rateWf (l : Lane) : Prop :=
  (l.inc = 0#64 ∧ l.iinc = 0#64) ∨
    (Config.ratioMin ≤ l.inc.toNat ∧ l.inc.toNat ≤ Config.ratioMax ∧ l.iinc.toNat = 2 ^ 64 / l.inc.toNat)

/-- The lane invariants of R40. -/
abbrev Lane.wf (l : Lane) : Prop :=
  l.rfill ≤ 64 ∧ -30 ≤ l.wfill ∧ l.wfill ≤ 64 ∧ l.rateWf

/-- In stages 4 and 5 the ramp volume is 0 (44_declick.md R305). -/
abbrev Declick.wf (d : Declick) : Prop :=
  4 ≤ d.stage.toNat → d.cur = ⟨0#19, 0#19⟩

/-- A legal voice context. -/
abbrev Voice.wf (c : Voice) : Prop :=
  c.lanes.left.wf ∧ c.lanes.right.wf ∧ c.declick.wf

/-- RAMP_DELTA in 1..VOL_MAX (10_state.md R37). -/
abbrev rampDeltaWf (w : Word) : Prop := 1 ≤ w.toNat ∧ w.toNat ≤ Config.volMax

/-- A legal state: 1 ≤ NV ≤ 64 (00_scope.md R11), parameters in range, RAMP_DELTA in range, legal voice contexts. -/
abbrev State.wf (s : State) : Prop :=
  1 ≤ s.nv ∧ s.nv ≤ Config.nvMax ∧ s.params.wf ∧ rampDeltaWf s.rampDelta ∧ ∀ c ∈ s.voices, c.wf

/-- A well-formed envelope descriptor (43_envelope_lfo.md R261): T non-decreasing over 0..N-1, LS ≤ LE < N,
SS ≤ SE < N and T[0] = 0. -/
abbrev Envelope.wellFormed (e : Envelope) : Prop :=
  (∀ i j : Fin 25, i.val ≤ j.val → j.val < e.n.val → e.nodeTick i ≤ e.nodeTick j) ∧
    e.ls.val ≤ e.le.val ∧ e.le.val < e.n.val ∧ e.ss.val ≤ e.se.val ∧ e.se.val < e.n.val ∧ e.nodeTick 0 = 0

/-- A voice is dead when STAGE ≥ 4 (44_declick.md R303). -/
abbrev Voice.isDead (c : Voice) : Prop := 4 ≤ c.declick.stage.toNat

end Sys2Proof.Machine
end

