-- ==== Sys2Proof/WellFormed.lean ====
section
/-! DEFINITION. Which terms of `Instr` are the canonical name of a command. Two command words that differ only in unused
fields are the same command (30_encoding.md R108); the types of `Instr` drop every field that is never used, and the two
fields whose use depends on another field are checked here: unused, they are zero, as an assembler emits them. -/

namespace Sys2Proof

/-- REG.RD and REG.WR ignore VOICE for a global index, below 0x100 (10_state.md R48; 45_control.md R321). -/
def regVoiceCanonical (v : VoiceIx) (idx : BitVec 12) : Bool :=
  decide (0x100 ≤ idx.toNat) || v == 0#6

/-- RS.DUP reads the source lane for LANE 0 or 1 only (30_encoding.md R107; 41_resampler.md R190). -/
def dupSourceCanonical (lane : LaneSel) (srcLane : Side) : Bool :=
  match lane with
  | .left | .right => true
  | .both | .reserved => srcLane == .left

/-- A term is well formed when its conditionally unused fields are zero (R108). -/
def Instr.wellFormed : Instr → Bool
  | .regRd v idx => regVoiceCanonical v idx
  | .regWr v idx _ => regVoiceCanonical v idx
  | .rsDup _ lane _ srcLane => dupSourceCanonical lane srcLane
  | .nop | .mulsc .. | .mulscv .. | .mulsca .. | .mulsc16 .. | .lerp .. | .aclr | .aadd .. | .amac .. | .ard
  | .rsInit .. | .rsClear .. | .rsSetq .. | .rsSetrate .. | .rsWrite .. | .rsWritef .. | .rsFree .. | .rsReady ..
  | .rsCount .. | .rsGet .. | .rsGetf .. | .rsRemove .. | .flCoef .. | .flSetc .. | .flRun .. | .flReset ..
  | .flEn .. | .envReset .. | .envTick .. | .envRead .. | .envRelease .. | .fadeStart .. | .fadeTick ..
  | .lfoReset .. | .lfoTick .. | .dckSettgt .. | .dckStep .. | .dckCut .. | .dckRetrig .. | .dckHk ..
  | .vcReset .. => true

end Sys2Proof
end

