-- ==== Sys2Proof/Certificates/Slice0/Obligations.lean ====
section
/-! DEFINITION. The statements about the block, each with the rules of spec/ it formalises. A statement about a command
says its whole effect: `exec` answers the old state with the named fields replaced, so every other register, voice and
stream is unchanged. -/

open Sys2Proof Sys2Proof.Machine

/-! ## Encoding -/

/-- Decoding the words of a well-formed command gives the command and leaves the words after it (30_encoding.md R100,
R101, R103, R104, R111). -/
def Obligations.DecodeInvertsEncode : Prop :=
  ∀ (i : Instr) (rest : List Word), i.wellFormed = true → decode (encode i ++ rest) = .command i rest

/-- A command that is decoded is well formed and takes one command word and the operand words of its OPC, no more
(30_encoding.md R100, R104, R111). -/
def Obligations.DecodedCommandLength : Prop :=
  ∀ (ws : List Word) (i : Instr) (rest : List Word), decode ws = .command i rest →
    i.wellFormed = true ∧
      ∃ (w : Word) (ops : List Word), ws = w :: (ops ++ rest) ∧ ops.length = i.operands ∧
        operandCount (opcOf w) = some i.operands

/-- A reserved OPC is a one-word command that raises ERR_OPC and does nothing else; no other OPC is taken as reserved
(30_encoding.md R109). -/
def Obligations.ReservedOpcodeRaisesErrOpc : Prop :=
  ∀ (s : State) (w : Word) (rest : List Word), s.input = w :: rest →
    (reservedOpcode (w.toNat / 2 ^ 26) = true →
      step s = .next { s with input := rest, status := s.status ||| 1#6 }) ∧
    (reservedOpcode (w.toNat / 2 ^ 26) = false → ∀ opc r, decode s.input ≠ .reserved opc r)

/-- Two command words that agree on the bits their command uses are the same command, and the encoder leaves every
other bit zero (30_encoding.md R108); FL.COEF ignores op(1)[31:8] in the same way (42_filter.md R244). -/
def Obligations.UnusedFieldsIgnored : Prop :=
  (∀ (w w' : Word) (rest : List Word), w &&& usedBits w = w' &&& usedBits w → decode (w :: rest) = decode (w' :: rest)) ∧
    (∀ (i : Instr) (w : Word) (ops : List Word), i.wellFormed = true → encode i = w :: ops →
      w &&& ~~~ usedBits w = 0#32) ∧
    (∀ (w x x' : Word) (rest : List Word), w.toNat / 2 ^ 26 = 0x20 → x.toNat % 2 ^ 8 = x'.toNat % 2 ^ 8 →
      decode (w :: x :: rest) = decode (w :: x' :: rest)) ∧
    ∀ (v : VoiceIx) (cutoff : BitVec 16) (resonance : BitVec 8) (fs : Word), ∃ w x : Word,
      encode (.flCoef v cutoff resonance fs) = [w, x, fs] ∧ x.toNat = resonance.toNat

/-- The worked example of 30_encoding.md R115, both ways, and words of the other families built by hand from R101, R104 and
R107. -/
def Obligations.WorkedEncodingExample : Prop :=
  encode (.rsSetrate 2#6 .both 0x80000000#32 0x00000001#32) = [0x4C280000#32, 0x80000000#32, 0x00000001#32] ∧
    decode [0x4C280000#32, 0x80000000#32, 0x00000001#32] = .command (.rsSetrate 2#6 .both 0x80000000#32 0x00000001#32) [] ∧
    decode [0x5000FED4#32] = .command (.rsWrite 0#6 .left (BitVec.ofInt 16 (-300))) [] ∧
    decode [0x14000000#32, 100#32, 200#32, 0x4000#32] = .command (.lerp 100#32 200#32 0x4000#32) [] ∧
    decode [0x88100000#32, 1000#32] = .command (.flRun 1#6 .left 1000#32) [] ∧
    decode [0xA4200000#32] = .command (.envTick 2#6 .s0) [] ∧
    decode [0xBC310000#32] = .command (.lfoTick 3#6 .s1) [] ∧
    decode [0xC4100000#32, 500#32, 1000#32] = .command (.dckStep 1#6 500#32 1000#32) [] ∧
    decode [0xE4000004#32, 0x8000#32] = .command (.regWr 0#6 0x004#12 0x8000#32) [] ∧
    decode [0x2C000000#32, 5#32] = .reserved 0x0B#6 [5#32]

/-! ## Steps -/

/-- A step runs the decoded command on the state with the command's words taken from the stream (20_memory.md R85, R89). -/
def Obligations.StepRunsDecodedCommand : Prop :=
  (∀ (s : State) (i : Instr) (rest : List Word), decode s.input = .command i rest →
    step s = exec i { s with input := rest }) ∧
  ∀ (s : State) (i : Instr) (rest : List Word), i.wellFormed = true → s.input = encode i ++ rest →
    step s = exec i { s with input := rest }

/-- The block waits exactly while the stream holds no complete command; otherwise it has a next state, whatever the
command (20_memory.md R85, 60_exceptions.md R340, R356). That waiting is the answer `fault waiting` is log entry 6; that
the block always advances otherwise rests on the unbounded streams of log entry 8, the model's choice. -/
def Obligations.StepWaitsOrAdvances : Prop :=
  ∀ s : State,
    (step s = .fault .waiting ↔
      s.input = [] ∨
        ∃ (w : Word) (ws : List Word) (n : Nat), s.input = w :: ws ∧ operandCount (opcOf w) = some n ∧ ws.length < n) ∧
    (step s ≠ .fault .waiting → ∃ t, step s = .next t)

/-- Every step from a legal state leads to a legal state: NV, the parameters, RAMP_DELTA in 1..VOL_MAX, the lane
invariants, and a ramp volume of 0 in stages 4 and 5 (10_state.md R37, R40; 44_declick.md R305). -/
def Obligations.StepKeepsLegalState : Prop :=
  ∀ s t : State, s.wf → step s = .next t → t.wf

/-! ## Errors and frames of every command -/

/-- The first check that fails, in the order of 60_exceptions.md R345, sets its STATUS bit, numbered as R343 numbers it, and
nothing else changes (R341); a reserved OPC, checked before all, sets ERR_OPC. That the indexes 0x180 to 0x1FF are
reserved, and so raise ERR_REG, is log entry 16. -/
def Obligations.FirstErrorChangesStatusOnly : Prop :=
  (∀ (i : Instr) (s : State) (e : ErrCode), firstError i s.nv = some e →
    exec i s = .next { s with status := s.status ||| (match e with
      | .opc => 0b000001#6
      | .voice => 0b000010#6
      | .lane => 0b000100#6
      | .sel => 0b001000#6
      | .reg => 0b010000#6
      | .ro => 0b100000#6) }) ∧
  ∀ (s : State) (w : Word) (rest : List Word), s.input = w :: rest → reservedOpcode (w.toNat / 2 ^ 26) = true →
    step s = .next { s with input := rest, status := s.status ||| 0b000001#6 }

/-- A command whose checks all pass completes and emits the response words of the opcode map; it leaves the stream, the
parameters, NV and, unless it is REG.WR to STATUS, the error bits (30_encoding.md R104, 60_exceptions.md R340). That the
response stream always has room is log entry 8. -/
def Obligations.LegalCommandCompletes : Prop :=
  ∀ (i : Instr) (s : State), firstError i s.nv = none →
    ∃ (t : State) (ws : List Word), exec i s = .next t ∧ t.responses = s.responses ++ ws ∧ ws.length = i.results ∧
      t.input = s.input ∧ t.params = s.params ∧ t.nv = s.nv ∧
      ((∀ v w, i ≠ .regWr v 0x000#12 w) → t.status = s.status)

/-- Only REG.WR to STATUS clears error bits, and it clears those written as 1; power-on reset clears all; VC.RESET does
not touch STATUS (60_exceptions.md R346). -/
def Obligations.OnlyStatusWriteClearsErrors : Prop :=
  (∀ (s t : State) (b : Nat), step s = .next t → s.status.getLsbD b = true → t.status.getLsbD b = false →
    ∃ v w rest, decode s.input = .command (.regWr v 0x000#12 w) rest ∧ w.getLsbD b = true) ∧
  (∀ (v : VoiceIx) (w : Word) (s : State),
    exec (.regWr v 0x000#12 w) s = .next { s with status := s.status &&& ~~~ (w.extractLsb' 0 6) }) ∧
  (∀ (nv : Nat) (p : Params), (State.resetWith nv p).status = 0#6) ∧
  ∀ (v : VoiceIx) (s t : State), v.toNat < s.nv → exec (.vcReset v) s = .next t → t.status = s.status

/-- A command changes no voice context but the one its VOICE field names (10_state.md R38; 20_memory.md R94;
60_exceptions.md R354). -/
def Obligations.OtherVoicesUnchanged : Prop :=
  ∀ (i : Instr) (s t : State) (u : VoiceIx), exec i s = .next t → i.voice? ≠ some u → t.voice? u = s.voice? u

/-- What commands do to the global state: which change ACC and which RAMP_DELTA; responses are only appended; the
written summation order draws nothing (10_state.md R36, R37; 20_memory.md R89; 41_resampler.md R176). The last clause
concerns the model's own field `draws` (log entry 4). -/
def Obligations.GlobalStateFrame : Prop :=
  ∀ (i : Instr) (s t : State), exec i s = .next t →
    (t.acc = s.acc ∨ i = .aclr ∨ (∃ x, i = .aadd x) ∨ (∃ x c, i = .amac x c) ∨ ∃ v w, i = .regWr v 0x003#12 w) ∧
    (t.rampDelta = s.rampDelta ∨ ∃ v w, i = .regWr v 0x004#12 w) ∧
    (∃ ws, t.responses = s.responses ++ ws) ∧
    (s.params.sumOrder = .scalar → t.draws = s.draws)

/-! ## MAC -/

/-- The scaled product is exact, is the high word of the 64-bit product, and never needs a wrap (40_mac.md R132). -/
def Obligations.ScaledProductRange : Prop :=
  ∀ x y : Word,
    (x.toInt * y.toInt).natAbs ≤ 2 ^ 62 ∧ hi32 x.toInt y.toInt = x.toInt * y.toInt / 2 ^ 32 ∧
      hi32 x.toInt y.toInt = (highProduct x y).toInt ∧ -2 ^ 30 ≤ hi32 x.toInt y.toInt ∧ hi32 x.toInt y.toInt ≤ 2 ^ 30

/-- MULSC, MULSCV, MULSCA and MULSC16 emit the high word of the product of their shifted operands and change nothing
else; the ranges in which they are the exact quotients, rounded toward minus infinity (40_mac.md R131, R133, R135 to
R138). -/
def Obligations.MultiplyResults : Prop :=
  ∀ (a b : Word) (s : State),
    exec (.mulsc a b) s = .next { s with responses := s.responses ++ [highProduct (a <<< 4) (b <<< 12)] } ∧
    exec (.mulscv a b) s = .next { s with responses := s.responses ++ [highProduct a b] } ∧
    exec (.mulsca a b) s = .next { s with responses := s.responses ++ [highProduct (a <<< 4) b] } ∧
    exec (.mulsc16 a b) s = .next { s with responses := s.responses ++ [highProduct (a <<< 12) (b <<< 12)] } ∧
    (a.toInt.natAbs < 2 ^ 27 → b.toInt.natAbs < 2 ^ 19 →
      (highProduct (a <<< 4) (b <<< 12)).toInt = a.toInt * b.toInt / 2 ^ 16) ∧
    ((highProduct a b).toInt = a.toInt * b.toInt / 2 ^ 32) ∧
    (a.toInt.natAbs < 2 ^ 27 → (highProduct (a <<< 4) b).toInt = a.toInt * b.toInt / 2 ^ 28) ∧
    (a.toInt.natAbs < 2 ^ 27 → highProduct (a <<< 4) 0x10000000#32 = a) ∧
    (a.toInt.natAbs < 2 ^ 19 → b.toInt.natAbs < 2 ^ 19 →
      (highProduct (a <<< 12) (b <<< 12)).toInt = a.toInt * b.toInt / 2 ^ 8)

/-- LERP emits a + MULSC(b - a, f), the sums wrapping; f = 0 gives a, f = 0x10000 gives b while |b - a| < 2^27, and
while no pre-shift wraps the result is the interpolated value (40_mac.md R139). -/
def Obligations.LerpResults : Prop :=
  ∀ (a b f : Word) (s : State),
    exec (.lerp a b f) s =
      .next { s with responses := s.responses ++ [a + highProduct ((b - a) <<< 4) (f <<< 12)] } ∧
    (f = 0#32 → a + highProduct ((b - a) <<< 4) (f <<< 12) = a) ∧
    ((b.toInt - a.toInt).natAbs < 2 ^ 27 → f = 0x10000#32 → a + highProduct ((b - a) <<< 4) (f <<< 12) = b) ∧
    ((b.toInt - a.toInt).natAbs < 2 ^ 27 → f.toNat < 2 ^ 19 →
      a + highProduct ((b - a) <<< 4) (f <<< 12) =
        BitVec.ofInt 32 (a.toInt + (b.toInt - a.toInt) * f.toNat / 2 ^ 16))

/-- ACLR, AADD, AMAC and ARD: ACC cleared, added to modulo 2^32, read (40_mac.md R140 to R143); NOP changes nothing
(45_control.md R320). -/
def Obligations.AccumulatorCommands : Prop :=
  ∀ (x c : Word) (s : State),
    exec .nop s = .next s ∧
    exec .aclr s = .next { s with acc := 0#32 } ∧
    exec (.aadd x) s = .next { s with acc := s.acc + x } ∧
    exec (.amac x c) s = .next { s with acc := s.acc + highProduct (x <<< 4) c } ∧
    exec .ard s = .next { s with responses := s.responses ++ [s.acc] }

/-! ## F arithmetic and tables -/

/-- Every F operation is the exact result rounded once, to nearest, ties to even (00_scope.md R15). First the encodings and
the rounding: no finite encoding is nearer than the one chosen, a tie goes to the even encoding, and infinity is chosen
exactly from half a step above the largest finite value. Then `+F -F *F /F` on finite operands, on infinities and on NaN
(magnitudes are in units of 2^-149). Which NaN is answered is free (log entry 5). -/
def Obligations.RoundsToNearestEven : Prop :=
  (∀ x : F,
    (magnitudeBits x < 0x7F800000 → fval x = .finite x.msb (finiteMagnitude (magnitudeBits x))) ∧
    (magnitudeBits x = 0x7F800000 → fval x = .inf x.msb) ∧ (0x7F800000 < magnitudeBits x → fval x = .nan)) ∧
  (∀ num den : Nat, 0 < den →
    (roundMag num den < 0x7F800000 → ∀ b < 0x7F800000,
      ((finiteMagnitude (roundMag num den) * den : Int) - num).natAbs ≤ ((finiteMagnitude b * den : Int) - num).natAbs ∧
      (((finiteMagnitude (roundMag num den) * den : Int) - num).natAbs = ((finiteMagnitude b * den : Int) - num).natAbs →
        b = roundMag num den ∨ roundMag num den % 2 = 0)) ∧
    (roundMag num den ≤ 0x7F800000) ∧
    (roundMag num den = 0x7F800000 ↔ (2 ^ 25 - 1) * 2 ^ 252 * den ≤ num)) ∧
  (∀ (x y : F) (s t : Bool) (m n : Nat) (a b : Int), fval x = .finite s m → fval y = .finite t n →
    a = (if s then -(m : Int) else m) → b = (if t then -(n : Int) else n) →
    (a + b ≠ 0 → fadd x y = BitVec.ofNat 32 ((if a + b < 0 then 2 ^ 31 else 0) + roundMag (a + b).natAbs 1)) ∧
    (a + b = 0 → fadd x y = if s = true ∧ t = true then 0x80000000#32 else 0#32) ∧
    (a - b ≠ 0 → fsub x y = BitVec.ofNat 32 ((if a - b < 0 then 2 ^ 31 else 0) + roundMag (a - b).natAbs 1)) ∧
    (a - b = 0 → fsub x y = if s = true ∧ t = false then 0x80000000#32 else 0#32) ∧
    (fmul x y = BitVec.ofNat 32 ((if s = t then 0 else 2 ^ 31) + roundMag (m * n) (2 ^ 149))) ∧
    (n ≠ 0 → fdiv x y = BitVec.ofNat 32 ((if s = t then 0 else 2 ^ 31) + roundMag (m * 2 ^ 149) n)) ∧
    (n = 0 → m ≠ 0 → fdiv x y = if s = t then 0x7F800000#32 else 0xFF800000#32) ∧
    (n = 0 → m = 0 → fval (fdiv x y) = .nan)) ∧
  (∀ (inf : Bool → F) (s t : Bool) (y : F) (n : Nat), (inf false = 0x7F800000#32 ∧ inf true = 0xFF800000#32) →
    (fadd (inf s) (inf s) = inf s ∧ fsub (inf s) (inf (!s)) = inf s ∧ fmul (inf s) (inf t) = inf (s ^^ t) ∧
      fval (fadd (inf s) (inf (!s))) = .nan ∧ fval (fsub (inf s) (inf s)) = .nan ∧ fval (fdiv (inf s) (inf t)) = .nan) ∧
    (fval y = .finite t n →
      fadd (inf s) y = inf s ∧ fadd y (inf s) = inf s ∧ fsub (inf s) y = inf s ∧ fsub y (inf s) = inf (!s) ∧
      fdiv (inf s) y = inf (s ^^ t) ∧ fdiv y (inf s) = (if s = t then 0#32 else 0x80000000#32) ∧
      (n ≠ 0 → fmul (inf s) y = inf (s ^^ t) ∧ fmul y (inf s) = inf (s ^^ t)) ∧
      (n = 0 → fval (fmul (inf s) y) = .nan ∧ fval (fmul y (inf s)) = .nan))) ∧
  ∀ x y : F, fval x = .nan ∨ fval y = .nan →
    fval (fadd x y) = .nan ∧ fval (fsub x y) = .nan ∧ fval (fmul x y) = .nan ∧ fval (fdiv x y) = .nan

/-- The conversions and comparisons of F (00_scope.md R15). `f_of_int`, `round_F` and `ph` round once; samples convert
exactly: every integer of at most 24 bits, RS.WRITE's sample, and RS.WRITEF's scaled sample while |value| < 2^24
(41_resampler.md R182, R183). `int_of_f` truncates toward zero, saturates (an infinity by log entry 20), and gives 0 for a
NaN. `x != 0` fails for both zeros alone; `|a| < b` is the order of the magnitudes, and fails for a NaN and for a negative
b. Magnitudes are in units of 2^-149. -/
def Obligations.SampleConversionExact : Prop :=
  (∀ n : Int, n.natAbs ≤ 2 ^ 24 →
    fval (fOfInt n) = .finite (decide (n < 0)) (n.natAbs * 2 ^ 149) ∧ intOfF (fOfInt n) = n) ∧
  (∀ sample : BitVec 16, intOfF (sampleOfImm sample) = sample.toInt) ∧
  (∀ (value : Word) (depth : BitVec 6), value.toInt.natAbs < 2 ^ 24 →
    fval (sampleOfFixed value depth) =
      .finite (decide (value.toInt < 0)) (value.toInt.natAbs * 2 ^ (150 - min (max depth.toNat 1) 32))) ∧
  (∀ (n : Int) (den : Nat) (f : BitVec 32),
    roundRat n den = BitVec.ofNat 32 ((if n < 0 then 2 ^ 31 else 0) + roundMag (n.natAbs * 2 ^ 149) den) ∧
      fOfInt n = roundRat n 1 ∧ ph f = roundRat f.toNat (2 ^ 32)) ∧
  (∀ (x : F) (s : Bool) (m : Nat),
    (fval x = .finite s m → m < 2 ^ 180 →
      (intOfF x).natAbs * 2 ^ 149 ≤ m ∧ m < ((intOfF x).natAbs + 1) * 2 ^ 149 ∧
        if s then intOfF x ≤ 0 else 0 ≤ intOfF x) ∧
    (fval x = .finite s m → 2 ^ 180 ≤ m → intOfF x = if s then -2 ^ 31 else 2 ^ 31 - 1) ∧
    (fval x = .inf s → intOfF x = if s then -2 ^ 31 else 2 ^ 31 - 1) ∧ (fval x = .nan → intOfF x = 0)) ∧
  ∀ x y : F,
    (fneZero x = true ↔ magnitudeBits x ≠ 0) ∧
    (fabsLt x y = true ↔ magnitudeBits x ≤ 0x7F800000 ∧ y.toNat ≤ 0x7F800000 ∧ magnitudeBits x < y.toNat)

/-- The tables. SINC_LUT is 1.0 at 0 and +0.0 at every integer, WIN_LUT is 1.0 at 0 and +0.0 at its end, with two more
entries of each; CUBIC_LUT holds the four Catmull-Rom weights at i/1024, rounded once; SINE_TAB holds the 64 printed
entries and its symmetries (41_resampler.md R160; 43_envelope_lfo.md R283). -/
def Obligations.TableFixedPoints : Prop :=
  sincLut 0 = 0x3F800000#32 ∧ (∀ m : Fin 16, sincLut (1024 * (m.val + 1)) = 0#32) ∧
    sincLut 512 = 0x3F22F983#32 ∧ sincLut 1536 = 0xBE594CAF#32 ∧
    winLut 0 = 0x3F800000#32 ∧ winLut 16384 = 0#32 ∧ winLut 8192 = 0x3EA2C908#32 ∧ winLut 16383 = 0x312BA892#32 ∧
    (List.range 4).map (cubicLut 0) = [0#32, 0x3F800000#32, 0#32, 0#32] ∧
    (∀ (i : Nat) (x : Int), i < 1024 → x = i →
      cubicLut i 0 = roundRat (-x ^ 3 + 2048 * x ^ 2 - 1024 ^ 2 * x) (2 ^ 31) ∧
      cubicLut i 1 = roundRat (3 * x ^ 3 - 5120 * x ^ 2 + 2 ^ 31) (2 ^ 31) ∧
      cubicLut i 2 = roundRat (-3 * x ^ 3 + 4096 * x ^ 2 + 1024 ^ 2 * x) (2 ^ 31) ∧
      cubicLut i 3 = roundRat (x ^ 3 - 1024 * x ^ 2) (2 ^ 31)) ∧
    (List.range 64).map sineTab = printedSine ∧ sineTab 64 = 64 ∧
    (∀ p : Fin 64, sineTab (64 + p.val) = sineTab (64 - p.val)) ∧ (∀ p : Fin 128, sineTab (128 + p.val) = -sineTab p.val)

/-- KERNEL(step, pr): tap j is the product of a SINC_LUT and a WIN_LUT entry by the absolute-difference indexes, both of
them in 0..16384; the sum S in the written order, and some association order of the same terms otherwise (41_resampler.md
R163, R176; that those terms include the initial +0.0 is log entry 21). The sinc step, and that it is at most 1024 for
parameters in range (R169). -/
def Obligations.KernelTapsAndSteps : Prop :=
  (∀ step pr j a b : Nat, step ≤ 1024 → pr < 1024 → j < 32 →
    a = (((pr * step / 1024 : Nat) : Int) - ((j : Int) - 15) * step).natAbs →
    b = ((pr : Int) - ((j : Int) - 15) * 1024).natAbs →
    kernelTap step pr j = fmul (sincLut a) (winLut b) ∧ a ≤ 16384 ∧ b ≤ 16384) ∧
  (∀ step pr draw : Nat,
    kernelSum .scalar draw ((List.range 32).map (kernelTap step pr)) =
      (List.range 32).foldl (fun s j => fadd s (kernelTap step pr (31 - j))) 0#32 ∧
    SumOf (0#32 :: (List.range 32).map (kernelTap step pr))
      (kernelSum .reassociated draw ((List.range 32).map (kernelTap step pr)))) ∧
  ∀ (p : Params) (inc : BitVec 64),
    (2 ^ 32 < inc.toNat → sincStep p inc = 1024 * p.sincNum * 2 ^ 32 / (p.sincDen * inc.toNat)) ∧
    (inc.toNat ≤ 2 ^ 32 → sincStep p inc = 1024 * p.sincNum / p.sincDen) ∧ (p.wf → sincStep p inc ≤ 1024)

/-- Phase accumulation splits the exact sum into fraction and advance, and the advance is at most 32 for every
increment that RS.SETRATE can store (41_resampler.md R162). -/
def Obligations.PhaseAdvanceBound : Prop :=
  ∀ (f : BitVec 32) (n : BitVec 64),
    (phaseAcc f n).1.toNat + 2 ^ 32 * (phaseAcc f n).2 = f.toNat + n.toNat ∧
      (n.toNat ≤ 2 ^ 37 → (phaseAcc f n).2 ≤ 32)

/-! ## Resampler -/

/-- RS.INIT puts the named lanes into the reset state of 10_state.md R39 (41_resampler.md R177, R178). -/
def Obligations.RsInitResetsLanes : Prop :=
  ∀ (s : State) (v : VoiceIx) (c : Voice) (lane : LaneSel), s.voice? v = some c → lane ≠ .reserved →
    exec (.rsInit v lane) s = .next (s.setVoice v { c with lanes := c.lanes.update lane fun _ => Lane.reset })

/-- RS.CLEAR empties the named lanes, keeps quality and rate, and for BLEP and BLAM clears the output side
(41_resampler.md R179). -/
def Obligations.RsClearEmptiesLanes : Prop :=
  (∀ (s : State) (v : VoiceIx) (c : Voice) (lane : LaneSel), s.voice? v = some c → lane ≠ .reserved →
    exec (.rsClear v lane) s = .next (s.setVoice v { c with lanes := c.lanes.update lane Lane.clear })) ∧
  ∀ l : Lane,
    l.clear.wpos = 15#6 ∧ l.clear.wfill = 0 ∧ l.clear.rpos = 0#6 ∧ l.clear.rfill = 0 ∧ l.clear.phase = 0#32 ∧
    l.clear.inPrimed = false ∧ l.clear.outPrimed = false ∧
    l.clear.q = l.q ∧ l.clear.inc = l.inc ∧ l.clear.iinc = l.iinc ∧
    (∀ i < 64, ringGet l.clear.inRing i = if i < 15 then 0#32 else ringGet l.inRing i) ∧
    if l.q = .blep ∨ l.q = .blam then
      l.clear.iphase = 0#32 ∧ l.clear.lastAmp = 0#32 ∧ l.clear.accum = 0#32 ∧ l.clear.outRing = Vector.replicate 64 0#32
    else
      l.clear.iphase = l.iphase ∧ l.clear.lastAmp = l.lastAmp ∧ l.clear.accum = l.accum ∧ l.clear.outRing = l.outRing

/-- RS.SETQ clamps the quality to 0..5; the current quality changes nothing; a change re-arms both priming flags, and one
into or out of BLEP or BLAM resets the output side (41_resampler.md R180). That iphase is kept even then follows R180's
pseudocode against a corner case of R179: the model's choice, log entry 25. -/
def Obligations.RsSetqSwitchesQuality : Prop :=
  (∀ (s : State) (v : VoiceIx) (c : Voice) (lane : LaneSel) (level : BitVec 16), s.voice? v = some c → lane ≠ .reserved →
    exec (.rsSetq v lane level) s =
      .next (s.setVoice v { c with lanes := c.lanes.update lane (Lane.setQuality (qualityOfImm level)) })) ∧
  (∀ level : BitVec 16, ((qualityOfImm level).toNat : Int) = min (max level.toInt 0) 5) ∧
  ∀ (l : Lane) (qn : Quality),
    Lane.setQuality qn l =
      if qn = l.q then l
      else if (qn = .blep ∨ qn = .blam) ∨ (l.q = .blep ∨ l.q = .blam) then
        { l with
          q := qn, inPrimed := false, outPrimed := false, rpos := 0#6, rfill := 0, lastAmp := 0#32, accum := 0#32
          outRing := Vector.replicate 64 0#32 }
      else { l with q := qn, inPrimed := false, outPrimed := false }

/-- RS.SETRATE stores the ratio clamped to 2^27..2^37 and the floor of 2^64 divided by it, and nothing else
(41_resampler.md R181). -/
def Obligations.RsSetrateStoresRates : Prop :=
  ∀ (s : State) (v : VoiceIx) (c : Voice) (lane : LaneSel) (lo hi : Word), s.voice? v = some c → lane ≠ .reserved →
    ∃ r inverse : BitVec 64,
      r.toNat = min (max (hi.toNat * 2 ^ 32 + lo.toNat) (2 ^ 27)) (2 ^ 37) ∧
      inverse.toNat * r.toNat ≤ 2 ^ 64 ∧ 2 ^ 64 < (inverse.toNat + 1) * r.toNat ∧
      exec (.rsSetrate v lane lo hi) s =
        .next (s.setVoice v { c with lanes := c.lanes.update lane fun l => { l with inc := r, iinc := inverse } })

/-- RS.WRITE and RS.WRITEF push their sample by `write_in`, which primes a lane on its first write, drops a sample when 64
are pending, and otherwise stores it (41_resampler.md R165, R182, R183). -/
def Obligations.RsWritePushesSample : Prop :=
  (∀ (s : State) (v : VoiceIx) (c : Voice) (lane : LaneSel), s.voice? v = some c → lane ≠ .reserved →
    (∀ sample : BitVec 16, exec (.rsWrite v lane sample) s =
      .next (s.setVoice v { c with lanes := c.lanes.update lane (Lane.writeIn (fOfInt sample.toInt)) })) ∧
    ∀ (depth : BitVec 6) (value : Word), exec (.rsWritef v lane depth value) s =
      .next (s.setVoice v { c with
        lanes := c.lanes.update lane
          (Lane.writeIn (fmul (fOfInt value.toInt) (twoPowNeg (min (max depth.toNat 1) 32 - 1)))) })) ∧
  ∀ (l : Lane) (x : F),
    (l.inPrimed = true → 64 ≤ l.wfill → l.writeIn x = l) ∧
    (l.inPrimed = true → l.wfill < 64 →
      l.writeIn x = { l with inRing := ringSet l.inRing l.wpos.toNat x, wfill := l.wfill + 1, wpos := l.wpos + 1#6 }) ∧
    (l.inPrimed = false →
      l.writeIn x = { l with
        inPrimed := true, inRing := ringSet l.inRing l.wpos.toNat x, wpos := l.wpos + 1#6
        wfill := (match l.q with | .cubic => 1 | .sinc => 15 | .zoh | .blep | .linear | .blam => 0) + 1 })

/-- RS.FREE emits 64 - wfill, so that free count and fill add up to 64 on a legal lane; RS.READY emits 1 exactly above the
threshold of the quality (41_resampler.md R161, R184, R185). Neither changes state. -/
def Obligations.RsFreeAndReady : Prop :=
  ∀ (s : State) (v : VoiceIx) (c : Voice) (x : Side) (l : Lane), s.voice? v = some c → c.lanes.get x = l →
    exec (.rsFree v (laneOfSide x)) s = .next (s.emit (BitVec.ofInt 32 (64 - l.wfill))) ∧
    (l.wf → ((BitVec.ofInt 32 (64 - l.wfill)).toNat : Int) + l.wfill = 64) ∧
    exec (.rsReady v (laneOfSide x)) s =
      .next (s.emit (if (match l.q with | .zoh | .blep => 1 | .linear | .blam => 2 | .cubic => 4 | .sinc => 32) < l.wfill
        then 1#32 else 0#32))

/-- RS.COUNT, RS.GET and RS.GETF run the lazy fill on the lane and emit its fill count, its head output as an integer, or
that output's bits (41_resampler.md R186 to R188). The lazy fill does nothing when the output ring holds a sample or no
rate is set; otherwise it runs FILL, and the first time it then sets out_primed and removes out_delay outputs with decay:
15 for BLEP and BLAM, none for the others (R161, R166). -/
def Obligations.RsReadsFillFirst : Prop :=
  (∀ (s : State) (v : VoiceIx) (c : Voice) (x : Side) (l : Lane) (d : Nat),
    s.voice? v = some c → ensureOutput s.params (c.lanes.get x) s.draws = (l, d) →
    exec (.rsCount v (laneOfSide x)) s =
      .next { s.setVoice v { c with lanes := c.lanes.set x l } with
        draws := d, responses := s.responses ++ [BitVec.ofNat 32 l.rfill] } ∧
    exec (.rsGet v (laneOfSide x)) s =
      .next { s.setVoice v { c with lanes := c.lanes.set x l } with
        draws := d
        responses := s.responses ++
          [if l.rfill = 0 then 0#32
           else BitVec.ofInt 32 (intOfF (if l.q = .blep ∨ l.q = .blam then fadd (ringGet l.outRing l.rpos.toNat) l.accum
             else ringGet l.outRing l.rpos.toNat))] } ∧
    exec (.rsGetf v (laneOfSide x)) s =
      .next { s.setVoice v { c with lanes := c.lanes.set x l } with
        draws := d
        responses := s.responses ++
          [if l.rfill = 0 then 0#32
           else if l.q = .blep ∨ l.q = .blam then fadd (ringGet l.outRing l.rpos.toNat) l.accum
           else ringGet l.outRing l.rpos.toNat] }) ∧
  ∀ (p : Params) (l m : Lane) (d d' : Nat),
    (l.rfill ≠ 0 ∨ l.inc = 0#64 → ensureOutput p l d = (l, d)) ∧
    (l.rfill = 0 → l.inc ≠ 0#64 → fill p l d = (m, d') →
      (l.outPrimed = true → ensureOutput p l d = (m, d')) ∧
      (l.outPrimed = false → ensureOutput p l d =
        ((Lane.remove p true)^[if l.q = .blep ∨ l.q = .blam then 15 else 0] { m with outPrimed := true }, d')))

/-- A repeated RS.COUNT, RS.GET or RS.GETF with no command in between emits the same word and makes no further change
(20_memory.md R86; 41_resampler.md R187, R188). -/
def Obligations.RepeatedReadIsSame : Prop :=
  ∀ (op : VoiceIx → LaneSel → Instr) (s t : State) (v : VoiceIx) (x : Side),
    op = Instr.rsCount ∨ op = Instr.rsGet ∨ op = Instr.rsGetf → v.toNat < s.nv →
    exec (op v (laneOfSide x)) s = .next t →
    ∃ w : Word, t.responses = s.responses ++ [w] ∧
      exec (op v (laneOfSide x)) t = .next { t with responses := t.responses ++ [w] }

/-- FILL runs ITER_q while its guard holds, and only then: more than min_fill(q) samples pending, an output cell free, and
for BLEP and BLAM room for 32 cells. On a legal lane it stops within 64 iterations (41_resampler.md R161, R167;
70_reset_and_hazards.md R390). How many free sums an iteration draws is log entry 4. -/
def Obligations.FillTakesAtMost64 : Prop :=
  ∀ (p : Params) (l : Lane) (d : Nat) (guard : Lane → Prop), l.wf →
    (∀ m, guard m ↔
      (match m.q with | .zoh | .blep => 1 | .linear | .blam => 2 | .cubic => 4 | .sinc => 32) < m.wfill ∧ m.rfill < 64 ∧
        ¬ ((m.q = .blep ∨ m.q = .blam) ∧ 64 < m.rfill + 32)) →
    ∃ (n : Nat) (f : Nat → Lane × Nat), n ≤ 64 ∧ f 0 = (l, d) ∧
      (∀ k < n, guard (f k).1 ∧
        f (k + 1) = ((f k).1.iter p (f k).2, if p.sumOrder = .scalar then (f k).2 else (f k).2 + 2)) ∧
      ¬ guard (f n).1 ∧ fill p l d = f n

/-- At ratio 1.0 zero-order hold reproduces its input: a fill from an empty output ring makes one output for each pending
sample but the last, each equal to its input bit for bit (41_resampler.md R167, R170, R192). -/
def Obligations.ZohReproducesInput : Prop :=
  ∀ (p : Params) (l : Lane) (d : Nat), l.q = .zoh → l.inc = 0x100000000#64 → l.phase = 0#32 → l.rfill = 0 →
    1 ≤ l.wfill → l.wfill ≤ 64 →
    (fill p l d).1.rfill = (l.wfill - 1).toNat ∧ (fill p l d).1.wfill = 1 ∧ (fill p l d).1.phase = 0#32 ∧
      ∀ k < (l.wfill - 1).toNat, ringGet (fill p l d).1.outRing (l.rpos.toNat + k) = l.inp k

/-- One iteration of each kernel: the output of the one-output kernels and the advance of the input; the amplitude BLEP and
BLAM step to, and which side they advance (41_resampler.md R163, R170 to R175). Under SUM_ORDER = SCALAR the cubic and sinc
sums are in the written order; otherwise each is some association order of the same terms (R176; the initial +0.0 among
them is log entry 21). -/
def Obligations.KernelIterations : Prop :=
  ∀ (l : Lane) (p : Params) (d k : Nat) (put : F → Lane) (step : Nat),
    (∀ y, put y = { l with
      outRing := ringSet l.outRing (l.rpos.toNat + l.rfill) y, rfill := l.rfill + 1
      phase := (phaseAcc l.phase l.inc).1, wfill := l.wfill - (phaseAcc l.phase l.inc).2 }) →
    k = l.phase.toNat / 2 ^ 22 → step = sincStep p l.inc →
    (l.q = .zoh → l.iter p d = put (l.inp 0)) ∧
    (l.q = .linear → l.iter p d = put (fadd (l.inp 0) (fmul (fsub (l.inp 1) (l.inp 0)) (ph l.phase)))) ∧
    (l.q = .cubic → p.sumOrder = .scalar → l.iter p d = put
      (fadd (fadd (fadd (fmul (l.inp 0) (cubicLut k 0)) (fmul (l.inp 1) (cubicLut k 1))) (fmul (l.inp 2) (cubicLut k 2)))
        (fmul (l.inp 3) (cubicLut k 3)))) ∧
    (l.q = .cubic → p.sumOrder = .reassociated → ∃ y,
      SumOf ((List.range 4).map fun c => fmul (l.inp c) (cubicLut k c)) y ∧ l.iter p d = put y) ∧
    (l.q = .sinc → p.sumOrder = .scalar → l.iter p d = put
      (fdiv ((List.range 32).foldl (fun s j => fadd s (fmul (l.inp j) (kernelTap step k j))) 0#32)
        ((List.range 32).foldl (fun s j => fadd s (kernelTap step k (31 - j))) 0#32))) ∧
    (l.q = .sinc → p.sumOrder = .reassociated → ∃ y z,
      SumOf (0#32 :: (List.range 32).map fun j => fmul (l.inp j) (kernelTap step k j)) y ∧
      SumOf (0#32 :: (List.range 32).map (kernelTap step k)) z ∧ l.iter p d = put (fdiv y z)) ∧
    (l.q = .blep → ∀ m : Lane, m = l.stepTo p d p.blepStep (l.inp 0) →
      l.iter p d = { m with
        wfill := l.wfill - 1, iphase := (phaseAcc l.iphase l.iinc).1, rfill := l.rfill + (phaseAcc l.iphase l.iinc).2 }) ∧
    (l.q = .blam → ∀ (m : Lane) (x : F),
      x = (if l.inc.toNat < 2 ^ 32 then fadd (l.inp 0) (fmul (fsub (l.inp 1) (l.inp 0)) (ph l.phase)) else l.inp 0) →
      m = l.stepTo p d p.blamStep x →
      l.iter p d = if l.iinc.toNat < 2 ^ 32 then { m with
          wfill := l.wfill - 1, iphase := (phaseAcc l.iphase l.iinc).1, rfill := l.rfill + (phaseAcc l.iphase l.iinc).2 }
        else { m with
          rfill := l.rfill + 1, phase := (phaseAcc l.phase l.inc).1, wfill := l.wfill - (phaseAcc l.phase l.inc).2 })

/-- At phase 0 the linear kernel outputs its first input exactly when that is a non-zero number and the difference to the
next one does not overflow; a zero input gives a zero (41_resampler.md R171). -/
def Obligations.LinearExactAtPhaseZero : Prop :=
  ∀ (l : Lane) (s t : Bool) (m n : Nat), l.phase = 0#32 →
    fval (l.inp 0) = .finite s m → fval (fsub (l.inp 1) (l.inp 0)) = .finite t n →
    (0 < m → ringGet (iterLinear l).outRing (l.rpos.toNat + l.rfill) = l.inp 0) ∧
    (m = 0 → ∃ u, fval (ringGet (iterLinear l).outRing (l.rpos.toNat + l.rfill)) = .finite u 0)

/-- An amplitude change moves the last amplitude and is added to 32 output cells, scaled by the normalised taps; it leaves
the other 32 and every other field of the lane; no change leaves the lane (41_resampler.md R174, R175; 20_memory.md R81). -/
def Obligations.AmplitudeStepSpreads : Prop :=
  ∀ (l : Lane) (p : Params) (draw step : Nat) (x : F),
    (fneZero (fsub x l.lastAmp) = false → l.stepTo p draw step x = l) ∧
    (fneZero (fsub x l.lastAmp) = true →
      l.stepTo p draw step x =
        { l with lastAmp := fadd l.lastAmp (fsub x l.lastAmp), outRing := (l.stepTo p draw step x).outRing } ∧
      ∀ m < 64, ringGet (l.stepTo p draw step x).outRing (l.rpos.toNat + l.rfill + m) =
        if m < 32 then
          fadd (ringGet l.outRing (l.rpos.toNat + l.rfill + m))
            (fmul (fdiv (fsub x l.lastAmp)
                (kernelSum p.sumOrder draw ((List.range 32).map (kernelTap step (l.iphase.toNat / 2 ^ 22)))))
              (kernelTap step (l.iphase.toNat / 2 ^ 22) m))
        else ringGet l.outRing (l.rpos.toNat + l.rfill + m))

/-- RS.REMOVE consumes one output, if there is one; for BLEP and BLAM it moves the cell into the integrator, decayed on
request (41_resampler.md R168, R189). -/
def Obligations.RsRemoveConsumesOutput : Prop :=
  (∀ (s : State) (v : VoiceIx) (c : Voice) (lane : LaneSel) (decay : Bool), s.voice? v = some c → lane ≠ .reserved →
    exec (.rsRemove v lane decay) s =
      .next (s.setVoice v { c with lanes := c.lanes.update lane (Lane.remove s.params decay) })) ∧
  ∀ (p : Params) (decay : Bool) (l : Lane),
    (l.rfill = 0 → l.remove p decay = l) ∧
    (0 < l.rfill → ¬ (l.q = .blep ∨ l.q = .blam) →
      l.remove p decay = { l with rfill := l.rfill - 1, rpos := l.rpos + 1#6 }) ∧
    (0 < l.rfill → (l.q = .blep ∨ l.q = .blam) → ∀ a b : F,
      a = fadd l.accum (ringGet l.outRing l.rpos.toNat) → b = fsub a (fmul a p.decayK) →
      l.remove p decay =
        { l with
          rfill := l.rfill - 1, rpos := l.rpos + 1#6, outRing := ringSet l.outRing l.rpos.toNat 0#32
          accum := if decay = false then a else if fabsLt b p.decayFloor = true then 0#32 else b })

/-- RS.DUP copies one lane onto one lane, or both lanes of a voice onto both of another; a copy of a lane onto itself
changes nothing (41_resampler.md R190). -/
def Obligations.RsDupCopiesLanes : Prop :=
  ∀ (s : State) (v u : VoiceIx) (c src : Voice) (x y : Side), s.voice? v = some c → s.voice? u = some src →
    exec (.rsDup v (laneOfSide x) u y) s =
      .next (s.setVoice v { c with lanes := c.lanes.set x (src.lanes.get y) }) ∧
    exec (.rsDup v .both u y) s = .next (s.setVoice v { c with lanes := src.lanes }) ∧
    exec (.rsDup v (laneOfSide x) v x) s = .next s

/-! ## Filter -/

/-- FL.RUN: the input itself in bypass; otherwise A*x + B*cur + C*prev, each product the high word of the shifted sample
and the coefficient, with the history of that lane alone moved on (42_filter.md R240, R242, R246). -/
def Obligations.FilterRun : Prop :=
  ∀ (s : State) (v : VoiceIx) (c : Voice) (x : Side) (w y : Word), s.voice? v = some c →
    (c.filter.en = false →
      exec (.flRun v (laneOfSide x) w) s = .next { s with responses := s.responses ++ [w] }) ∧
    (c.filter.en = true →
      y = highProduct (w <<< 4) c.filter.a + highProduct (c.filter.cur.get x <<< 4) c.filter.b
        + highProduct (c.filter.prev.get x <<< 4) c.filter.c →
      exec (.flRun v (laneOfSide x) w) s =
        .next { s.setVoice v { c with
            filter := { c.filter with cur := c.filter.cur.set x y, prev := c.filter.prev.set x (c.filter.cur.get x) } } with
          responses := s.responses ++ [y] })

/-- With the reset coefficients FL.RUN returns every sample of magnitude below 2^27 (42_filter.md R249). -/
def Obligations.FilterIdentityAtReset : Prop :=
  ∀ (s : State) (v : VoiceIx) (c : Voice) (x : Side) (w : Word), s.voice? v = some c →
    c.filter.a = 0x10000000#32 → c.filter.b = 0#32 → c.filter.c = 0#32 → w.toInt.natAbs < 2 ^ 27 →
    ∃ t, exec (.flRun v (laneOfSide x) w) s = .next t ∧ t.responses = s.responses ++ [w]

/-- FL.COEF, FL.SETC, FL.RESET and FL.EN: what each stores (42_filter.md R244, R245, R247, R248). FILTER_COEF is the free
parameter of R243: its words are the model's free function of the operands (log entry 3). -/
def Obligations.FilterLoads : Prop :=
  ∀ (s : State) (v : VoiceIx) (c : Voice), s.voice? v = some c →
    (∀ cutoff resonance, exec (.flCoef v cutoff resonance 0#32) s =
      .next (s.setVoice v { c with filter := { c.filter with a := 0x10000000#32, b := 0#32, c := 0#32 } })) ∧
    (∀ cutoff resonance fs, fs ≠ 0#32 → exec (.flCoef v cutoff resonance fs) s =
      .next (s.setVoice v { c with filter := { c.filter with
        a := (Config.filterCoef cutoff resonance fs).1
        b := (Config.filterCoef cutoff resonance fs).2.1
        c := (Config.filterCoef cutoff resonance fs).2.2 } })) ∧
    (∀ ka kb kc, exec (.flSetc v ka kb kc) s =
      .next (s.setVoice v { c with filter := { c.filter with a := ka, b := kb, c := kc } })) ∧
    exec (.flReset v) s =
      .next (s.setVoice v { c with filter := { c.filter with cur := ⟨0#32, 0#32⟩, prev := ⟨0#32, 0#32⟩ } }) ∧
    ∀ e, exec (.flEn v e) s = .next (s.setVoice v { c with filter := { c.filter with en := e } })

/-! ## Envelope and fade -/

/-- From ENV.RESET on a well-formed descriptor, every value lies between the least and the greatest node value, whatever
the loops and the releases (43_envelope_lfo.md R267, item 1). -/
def Obligations.EnvelopeValueBounds : Prop :=
  ∀ (e : Envelope) (mode : LoopMode) (released : List Bool) (lo hi : Int), e.wellFormed →
    (∀ i : Fin 25, i.val < e.n.val → lo ≤ e.nodeValue i ∧ e.nodeValue i ≤ hi) →
    lo ≤ (Envelope.run mode released e.restart).value.toInt ∧ (Envelope.run mode released e.restart).value.toInt ≤ hi

/-- From ENV.RESET on a well-formed descriptor whose node ticks strictly rise, the value at a node's tick is that node's
value times 256 (43_envelope_lfo.md R267, item 2; the strictly rising premise is log entry 23). -/
def Obligations.EnvelopeExactAtNodes : Prop :=
  ∀ (e : Envelope) (mode : LoopMode) (released : List Bool) (i : Fin 25), e.wellFormed →
    (∀ j k : Fin 25, j.val < k.val → k.val < e.n.val → e.nodeTick j < e.nodeTick k) → i.val < e.n.val →
    (Envelope.run mode released e.restart).tick.toNat = e.nodeTick i →
    (Envelope.run mode released e.restart).eval.toInt = e.nodeValue i

/-- Without loops and with strictly rising node ticks, ENV.TICK reports the end from the call after tick T[N-1] on, and
that first call returns the last node's value (43_envelope_lfo.md R267, item 3; log entry 23). -/
def Obligations.EnvelopeEndsAfterLastNode : Prop :=
  ∀ (e : Envelope) (mode : LoopMode) (released : List Bool) (r : Bool), e.wellFormed →
    (∀ j k : Fin 25, j.val < k.val → k.val < e.n.val → e.nodeTick j < e.nodeTick k) →
    e.loop = false → e.susLoop = false →
    (Envelope.run mode released e.restart).ended r = decide (e.nodeTick e.lastNode < released.length) ∧
    (released.length = e.nodeTick e.lastNode + 1 →
      (Envelope.run mode released e.restart).value.toInt = e.nodeValue e.lastNode)

/-- While the note is held under the sustain loop, TICK stays at or below the loop's end and the envelope does not end
(43_envelope_lfo.md R267, item 4). -/
def Obligations.SustainLoopHolds : Prop :=
  ∀ (e : Envelope) (mode : LoopMode) (k : Nat), e.wellFormed → e.susLoop = true →
    (Envelope.run mode (List.replicate k false) e.restart).tick.toNat ≤ e.nodeTick e.se ∧
      (Envelope.run mode (List.replicate k false) e.restart).ended false = false

/-- EVAL, ADVANCE and LOOPS: the value at the cursor, the saturating tick and the node index at the first node not before
it, and the loop resets, the sustain loop first (43_envelope_lfo.md R262 to R265). -/
def Obligations.EnvelopeCursor : Prop :=
  ∀ (e : Envelope) (mode : LoopMode) (released : Bool) (sus rel : Prop),
    (e.next.val = 0 → e.eval = BitVec.ofInt 32 (e.nodeValue 0)) ∧
    (∀ i j : Fin 25, e.next.val = j.val → i.val + 1 = j.val → j.val < e.n.val →
      e.eval = BitVec.ofInt 32 (if e.nodeTick i = e.nodeTick j then e.nodeValue i
        else e.nodeValue i + ((e.nodeValue j - e.nodeValue i) * ((e.tick.toNat : Int) - e.nodeTick i)).tdiv
          ((e.nodeTick j : Int) - e.nodeTick i))) ∧
    (∀ i : Fin 25, 0 < e.next.val → e.n.val ≤ e.next.val → i.val + 1 = e.n.val →
      e.eval = BitVec.ofInt 32 (e.nodeValue i)) ∧
    (e.advance = { e with tick := e.advance.tick, next := e.advance.next } ∧
      e.advance.tick.toNat = min (e.tick.toNat + 1) (2 ^ 32 - 1) ∧ e.next.val ≤ e.advance.next.val ∧
      (∀ i : Fin 25, e.next.val ≤ i.val → i.val < e.advance.next.val →
        i.val < e.n.val ∧ e.nodeTick i < e.advance.tick.toNat) ∧
      (∀ i : Fin 25, i.val = e.advance.next.val → i.val < e.n.val → e.advance.tick.toNat ≤ e.nodeTick i)) ∧
    ((sus ↔ e.flags.getLsbD 2 = true ∧ released = false) → (rel ↔ e.flags.getLsbD 1 = true ∧ (mode = .always ∨ ¬ sus)) →
      (sus ∧ e.nodeTick e.se < e.tick.toNat →
        e.loops mode released = { e with next := e.ss.succ, tick := (e.t.get e.ss).setWidth 32 }) ∧
      (¬ (sus ∧ e.nodeTick e.se < e.tick.toNat) → rel ∧ e.nodeTick e.le < e.tick.toNat →
        e.loops mode released = { e with next := e.ls.succ, tick := (e.t.get e.ls).setWidth 32 }) ∧
      (¬ (sus ∧ e.nodeTick e.se < e.tick.toNat) → ¬ (rel ∧ e.nodeTick e.le < e.tick.toNat) → e.loops mode released = e))

/-- ENV.RESET, ENV.READ, ENV.RELEASE and both branches of ENV.TICK (43_envelope_lfo.md R266, R270 to R273). -/
def Obligations.EnvelopeCommands : Prop :=
  ∀ (s : State) (v : VoiceIx) (c : Voice) (i : Fin 3) (e e' : Envelope) (ended : Bool),
    s.voice? v = some c → c.envs.get i = e →
    exec (.envReset v (selOfIndex i)) s =
      .next (s.setVoice v { c with envs := c.envs.set i { e with
        tick := 0#32, next := 0
        value := if e.n.val = 0 then 0#32 else BitVec.ofInt 32 ((e.y.get 0).toInt * 256) } }) ∧
    exec (.envRead v (selOfIndex i)) s = .next { s with responses := s.responses ++ [e.value] } ∧
    (∀ k, exec (.envRelease v k) s = .next (s.setVoice v { c with released := k })) ∧
    (e.flags.getLsbD 0 = false ∨ e.n.val = 0 →
      exec (.envTick v (selOfIndex i)) s = .next { s with responses := s.responses ++ [e.value, 0#32] }) ∧
    (e.flags.getLsbD 0 = true → 0 < e.n.val →
      e' = (({ e with value := e.eval } : Envelope).advance).loops s.params.loopMode c.released →
      (ended = true ↔ ¬ (e.flags.getLsbD 2 = true ∧ c.released = false) ∧ e.flags.getLsbD 1 = false ∧
        e.nodeTick e.lastNode < e'.tick.toNat) →
      exec (.envTick v (selOfIndex i)) s =
        .next { s.setVoice v { c with
            envs := c.envs.set i e'
            fading := if ended = true ∧ i = 0 then true else c.fading } with
          responses := s.responses ++ [e.eval, if ended then 1#32 else 0#32] })

/-- FADE.START, and FADE.TICK: the counter falls by FADE_RATE, not below 0, while FADING is set, and requests the declick
cut on the tick that reaches 0 (43_envelope_lfo.md R268, R274, R275). -/
def Obligations.FadeCommands : Prop :=
  ∀ (s : State) (v : VoiceIx) (c : Voice) (f : Word), s.voice? v = some c →
    exec (.fadeStart v) s = .next (s.setVoice v { c with fading := true }) ∧
    (c.fading = false ∨ c.fade = 0#32 →
      exec (.fadeTick v) s = .next { s with responses := s.responses ++ [c.fade] }) ∧
    (c.fading = true → c.fade ≠ 0#32 → f.toNat = c.fade.toNat - c.fadeRate.toNat →
      exec (.fadeTick v) s =
        .next { s.setVoice v { c with
            fade := f
            declick := { c.declick with
              stage := if f = 0#32 ∧ c.declick.stage.toNat ≤ 2 then .cutRequested else c.declick.stage } } with
          responses := s.responses ++ [f] })

/-! ## LFO -/

/-- LFO.TICK emits the waveform at the phase before the advance, times DEPTH, and advances POS by SPEED modulo 256; the
waveforms of 43_envelope_lfo.md R281, all in -64..64, the sinusoid by the entries R283 prints; LFO.RESET clears POS (R282,
R286, R287). -/
def Obligations.LfoCommands : Prop :=
  (∀ (s : State) (v : VoiceIx) (c : Voice) (i : Fin 3) (l : Lfo), s.voice? v = some c → c.lfos.get i = l →
    exec (.lfoReset v (selOfIndex i)) s = .next (s.setVoice v { c with lfos := c.lfos.set i { l with pos := 0#8 } }) ∧
    exec (.lfoTick v (selOfIndex i)) s =
      .next { s.setVoice v { c with lfos := c.lfos.set i { l with pos := l.pos + l.speed } } with
        responses := s.responses ++ [BitVec.ofInt 32 (wave l.shape l.pos * l.depth.toNat)] }) ∧
  ∀ p : BitVec 8,
    (∀ sh, -64 ≤ wave sh p ∧ wave sh p ≤ 64) ∧
    wave .sine p = sineTab p.toNat ∧
    (p.toNat < 64 → printedSine[p.toNat]? = some (wave .sine p)) ∧ (p = 64#8 → wave .sine p = 64) ∧
    (64 < p.toNat → p.toNat < 128 → printedSine[128 - p.toNat]? = some (wave .sine p)) ∧
    (128 ≤ p.toNat → wave .sine p = -wave .sine (p - 128#8)) ∧
    (p.toNat < 128 → wave .square p = 64) ∧ (128 ≤ p.toNat → wave .square p = -64) ∧
    wave .sawtooth p = 64 - p.toNat / 2 ∧
    (p.toNat < 64 → wave .triangle p = p.toNat) ∧
    (64 ≤ p.toNat → p.toNat < 192 → wave .triangle p = 128 - p.toNat) ∧
    (192 ≤ p.toNat → wave .triangle p = p.toNat - 256)

/-- The properties of 43_envelope_lfo.md R284: a stopped LFO repeats its value, a SPEED that divides 256 returns to its
start after 256/SPEED ticks, and every output lies in -64*DEPTH..64*DEPTH. -/
def Obligations.LfoProperties : Prop :=
  ∀ l : Lfo,
    (l.speed = 0#8 → ∀ k : Nat, (Lfo.advance^[k] l).output = l.output) ∧
    (l.speed ≠ 0#8 → l.speed.toNat ∣ 256 → (Lfo.advance^[256 / l.speed.toNat] l).pos = l.pos) ∧
    l.output.natAbs ≤ 64 * l.depth.toNat

/-! ## Declick -/

/-- DCK.STEP by stage: the volumes after the update, the stage after it, and both samples multiplied by the updated
volumes; the multiply is floor(x * g / 2^16) for |x| < 2^27, whatever the gain (44_declick.md R300, R301, R302, R305). -/
def Obligations.DeclickStep : Prop :=
  (∀ (x : Word) (g : BitVec 19), x.toInt.natAbs < 2 ^ 27 →
    (highProduct (x <<< 4) (g.setWidth 32 <<< 12)).toInt = x.toInt * g.toNat / 2 ^ 16) ∧
  ∀ (s : State) (v : VoiceIx) (c : Voice) (xl xr : Word), s.voice? v = some c →
    ∃ d : Declick,
      exec (.dckStep v xl xr) s =
        .next { s.setVoice v { c with declick := d } with
          responses := s.responses ++
            [highProduct (xl <<< 4) (d.cur.left.setWidth 32 <<< 12),
             highProduct (xr <<< 4) (d.cur.right.setWidth 32 <<< 12)] } ∧
      d.tgt = c.declick.tgt ∧
      match c.declick.stage with
      | .silent => d.cur = ⟨0#19, 0#19⟩ ∧ d.stage = .rampingIn
      | .rampingIn =>
        (∀ x, (d.cur.get x).toNat =
          rampToward s.rampDelta.toNat (c.declick.cur.get x).toNat (c.declick.tgt.get x).toNat) ∧
        d.stage = if d.cur = d.tgt then .steady else .rampingIn
      | .steady =>
        (∀ x, (d.cur.get x).toNat =
          rampToward s.rampDelta.toNat (c.declick.cur.get x).toNat (c.declick.tgt.get x).toNat) ∧
        d.stage = .steady
      | .cutRequested =>
        (∀ x, (d.cur.get x).toNat = rampToward s.rampDelta.toNat (c.declick.cur.get x).toNat 0) ∧
        d.stage = if d.cur = ⟨0#19, 0#19⟩ then .rampedOut else .cutRequested
      | .rampedOut => d = c.declick
      | .dead => d = c.declick

/-- The ramp bounds of 44_declick.md R309: except from stage 0, no DCK.STEP moves a side by more than RAMP_DELTA; with
RAMP_DELTA and TGT held, `n` steps from stage 1 or 2 bring each side to its target if n is at least the distance divided by
RAMP_DELTA, rounded up, and never past it; the same toward 0 from stage 3. -/
def Obligations.RampBounds : Prop :=
  (∀ (s t : State) (v : VoiceIx) (c c' : Voice) (xl xr : Word) (x : Side), s.voice? v = some c →
    exec (.dckStep v xl xr) s = .next t → t.voice? v = some c' → c.declick.stage ≠ .silent →
    (((c'.declick.cur.get x).toNat : Int) - (c.declick.cur.get x).toNat).natAbs ≤ s.rampDelta.toNat) ∧
  ∀ (d : Declick) (δ n : Nat) (x : Side) (start target : Nat), 1 ≤ δ → (d.cur.get x).toNat = start →
    (((d.stage = .rampingIn ∨ d.stage = .steady) ∧ (d.tgt.get x).toNat = target) ∨ (d.stage = .cutRequested ∧ target = 0)) →
    let after := (((fun d' : Declick => d'.step δ)^[n] d).cur.get x).toNat
    ((((target : Int) - start).natAbs + δ - 1) / δ ≤ n → after = target) ∧
      (start ≤ target → start ≤ after ∧ after ≤ target) ∧ (target ≤ start → target ≤ after ∧ after ≤ start)

/-- No command but DCK.RETRIG and VC.RESET lowers a voice's STAGE, and REG.WR to DCK_STAGE raises ERR_RO
(44_declick.md R310). -/
def Obligations.StageNeverFalls : Prop :=
  (∀ (i : Instr) (s t : State) (v : VoiceIx) (c c' : Voice), exec i s = .next t → s.voice? v = some c →
    t.voice? v = some c' → i ≠ .dckRetrig v → i ≠ .vcReset v → c.declick.stage.toNat ≤ c'.declick.stage.toNat) ∧
  ∀ (s : State) (v : VoiceIx) (w : Word), v.toNat < s.nv →
    exec (.regWr v 0x700#12 w) s = .next { s with status := s.status ||| 0x20#6 }

/-- DCK.SETTGT stores the clamped targets; DCK.CUT moves stages 0 to 2 to 3; DCK.RETRIG moves any stage to 1 and keeps the
volumes; DCK.HK turns stage 4 into 5 and emits the stage (44_declick.md R304, R306 to R308). -/
def Obligations.DeclickCommands : Prop :=
  ∀ (s : State) (v : VoiceIx) (c : Voice), s.voice? v = some c →
    (∀ (l r : Word) (tl tr : BitVec 19), (tl.toNat : Int) = min (max l.toInt 0) 0x7FFFF →
      (tr.toNat : Int) = min (max r.toInt 0) 0x7FFFF →
      exec (.dckSettgt v l r) s = .next (s.setVoice v { c with declick := { c.declick with tgt := ⟨tl, tr⟩ } })) ∧
    exec (.dckCut v) s = .next (s.setVoice v { c with declick := { c.declick with
      stage := if c.declick.stage.toNat ≤ 2 then .cutRequested else c.declick.stage } }) ∧
    exec (.dckRetrig v) s = .next (s.setVoice v { c with declick := { c.declick with stage := .rampingIn } }) ∧
    (c.declick.stage = .rampedOut →
      exec (.dckHk v) s = .next { s.setVoice v { c with declick := { c.declick with stage := .dead } } with
        responses := s.responses ++ [5#32] }) ∧
    (c.declick.stage ≠ .rampedOut →
      exec (.dckHk v) s = .next { s with responses := s.responses ++ [BitVec.ofNat 32 c.declick.stage.toNat] })

/-! ## Registers and reset -/

/-- A reserved index raises ERR_REG for both REG.RD and REG.WR, and every other index can be read, without any change but
the response word (10_state.md R48 to R56; 45_control.md R321, R322). The indexes 0x180 to 0x1FF stand in no table; that
they are reserved is the model's deduction (log entry 16). -/
def Obligations.ReservedIndexRaisesErrReg : Prop :=
  ∀ (s : State) (v : VoiceIx) (idx : BitVec 12) (w : Word), (idx.toNat < 0x100 ∨ v.toNat < s.nv) →
    (reservedIndex idx.toNat = true →
      exec (.regRd v idx) s = .next { s with status := s.status ||| 0x10#6 } ∧
      exec (.regWr v idx w) s = .next { s with status := s.status ||| 0x10#6 }) ∧
    (reservedIndex idx.toNat = false → ∃ x, exec (.regRd v idx) s = .next { s with responses := s.responses ++ [x] })

/-- ID reads 0x00220007, NV the number of voice contexts, CAPS 0x05191040, and a write to any of the three raises ERR_RO
(10_state.md R33, R35). -/
def Obligations.ConstantRegisters : Prop :=
  ∀ (s : State) (v : VoiceIx) (w : Word),
    exec (.regRd v 0x001#12) s = .next { s with responses := s.responses ++ [0x00220007#32] } ∧
    exec (.regRd v 0x002#12) s = .next { s with responses := s.responses ++ [BitVec.ofNat 32 s.voices.length] } ∧
    exec (.regRd v 0x005#12) s = .next { s with responses := s.responses ++ [0x05191040#32] } ∧
    ∀ idx : BitVec 12, idx = 0x001#12 ∨ idx = 0x002#12 ∨ idx = 0x005#12 →
      exec (.regWr v idx w) s = .next { s with status := s.status ||| 0x20#6 }

/-- What REG.RD emits for each index of 10_state.md R48 to R55, in the formats of R57; the global ones whatever VOICE is. -/
def Obligations.RegisterReads : Prop :=
  (∀ (s : State) (v : VoiceIx) (reads : Nat → Word → Prop),
    (∀ (idx : Nat) (w : Word), reads idx w ↔
      exec (.regRd v (BitVec.ofNat 12 idx)) s = .next { s with responses := s.responses ++ [w] }) →
    reads 0x000 (s.status.setWidth 32) ∧ reads 0x001 0x00220007#32 ∧ reads 0x002 (BitVec.ofNat 32 s.voices.length) ∧
      reads 0x003 s.acc ∧ reads 0x004 s.rampDelta ∧ reads 0x005 0x05191040#32) ∧
  ∀ (s : State) (v : VoiceIx) (c : Voice) (reads : Nat → Word → Prop), s.voice? v = some c →
    (∀ (idx : Nat) (w : Word), reads idx w ↔
      exec (.regRd v (BitVec.ofNat 12 idx)) s = .next { s with responses := s.responses ++ [w] }) →
    (∀ (x : Side) (base ring : Nat) (l : Lane), c.lanes.get x = l →
      (x = .left ∧ base = 0x100 ∧ ring = 0x200) ∨ (x = .right ∧ base = 0x140 ∧ ring = 0x280) →
      reads base (match l.q with
        | .zoh => 0#32 | .blep => 1#32 | .linear => 2#32 | .blam => 3#32 | .cubic => 4#32 | .sinc => 5#32) ∧
      reads (base + 0x01) (l.wpos.setWidth 32) ∧ reads (base + 0x02) (BitVec.ofInt 32 l.wfill) ∧
      reads (base + 0x03) (l.rpos.setWidth 32) ∧ reads (base + 0x04) (BitVec.ofNat 32 l.rfill) ∧
      reads (base + 0x05) l.phase ∧ reads (base + 0x06) (l.inc.setWidth 32) ∧ reads (base + 0x07) ((l.inc >>> 32).setWidth 32) ∧
      reads (base + 0x08) l.iphase ∧ reads (base + 0x09) (l.iinc.setWidth 32) ∧
      reads (base + 0x0A) ((l.iinc >>> 32).setWidth 32) ∧
      reads (base + 0x0B) (BitVec.ofNat 32 (l.inPrimed.toNat + 2 * l.outPrimed.toNat)) ∧
      reads (base + 0x0C) l.lastAmp ∧ reads (base + 0x0D) l.accum ∧
      ∀ i : Fin 64, reads (ring + i.val) l.inRing[i.val] ∧ reads (ring + 0x40 + i.val) l.outRing[i.val]) ∧
    (reads 0x300 (if c.filter.en then 1#32 else 0#32) ∧ reads 0x301 c.filter.a ∧ reads 0x302 c.filter.b ∧
      reads 0x303 c.filter.c ∧ reads 0x304 c.filter.cur.left ∧ reads 0x305 c.filter.prev.left ∧
      reads 0x306 c.filter.cur.right ∧ reads 0x307 c.filter.prev.right) ∧
    (∀ (j : Fin 3) (e : Envelope), c.envs.get j = e →
      reads (0x400 + 0x80 * j.val) (e.flags.setWidth 32) ∧ reads (0x401 + 0x80 * j.val) (BitVec.ofNat 32 e.n.val) ∧
      reads (0x402 + 0x80 * j.val) (BitVec.ofNat 32 e.ls.val) ∧ reads (0x403 + 0x80 * j.val) (BitVec.ofNat 32 e.le.val) ∧
      reads (0x404 + 0x80 * j.val) (BitVec.ofNat 32 e.ss.val) ∧ reads (0x405 + 0x80 * j.val) (BitVec.ofNat 32 e.se.val) ∧
      reads (0x406 + 0x80 * j.val) e.tick ∧ reads (0x407 + 0x80 * j.val) (BitVec.ofNat 32 e.next.val) ∧
      reads (0x408 + 0x80 * j.val) e.value ∧
      ∀ i : Fin 25, reads (0x420 + 0x80 * j.val + i.val) (BitVec.ofNat 32 (e.nodeTick i)) ∧
        reads (0x440 + 0x80 * j.val + i.val) (BitVec.ofInt 32 (e.y.get i).toInt)) ∧
    (reads 0x580 (if c.released then 1#32 else 0#32) ∧ reads 0x581 c.fade ∧ reads 0x582 c.fadeRate ∧
      reads 0x583 (if c.fading then 1#32 else 0#32)) ∧
    (∀ (j : Fin 3) (l : Lfo), c.lfos.get j = l →
      reads (0x600 + 8 * j.val) (match l.shape with
        | .sine => 0#32 | .square => 1#32 | .sawtooth => 2#32 | .triangle => 3#32) ∧
      reads (0x601 + 8 * j.val) (l.pos.setWidth 32) ∧ reads (0x602 + 8 * j.val) (l.speed.setWidth 32) ∧
      reads (0x603 + 8 * j.val) (l.depth.setWidth 32)) ∧
    (reads 0x700 (match c.declick.stage with
        | .silent => 0#32 | .rampingIn => 1#32 | .steady => 2#32 | .cutRequested => 3#32 | .rampedOut => 4#32
        | .dead => 5#32) ∧
      reads 0x701 (c.declick.cur.left.setWidth 32) ∧ reads 0x702 (c.declick.cur.right.setWidth 32) ∧
      reads 0x703 (c.declick.tgt.left.setWidth 32) ∧ reads 0x704 (c.declick.tgt.right.setWidth 32))

/-- A write to a writable register stores the value of the "write stores" column, as a later read shows, and leaves every
other register of the voice (10_state.md R51 to R55, R58; 45_control.md R323); the writable global registers likewise
(R36, R37). -/
def Obligations.RegisterWrites : Prop :=
  (∀ (s : State) (v : VoiceIx) (c : Voice) (idx : BitVec 12) (w : Word), s.voice? v = some c → 0x100 ≤ idx.toNat →
    reservedIndex idx.toNat = false → readOnlyIndex idx.toNat = false →
    ∃ (r : VReg) (c' : Voice), voiceReg idx.toNat = some r ∧ exec (.regWr v idx w) s = .next (s.setVoice v c') ∧
      readVoice c' r = storedWord r w ∧ ∀ r' : VReg, r' ≠ r → readVoice c' r' = readVoice c r') ∧
  ∀ (s : State) (v : VoiceIx) (w : Word),
    exec (.regWr v 0x003#12 w) s = .next { s with acc := w } ∧
    ∃ δ : Word, δ.toInt = min (max w.toInt 1) 0x7FFFF ∧ exec (.regWr v 0x004#12 w) s = .next { s with rampDelta := δ }

/-- Power-on reset: STATUS and MAC_ACC 0, RAMP_DELTA 1024, both streams empty, and in each of the NV voices every register
0 except the quality 5, the write position 15, the filter's A and FADE = FADE_INIT (10_state.md R61). -/
def Obligations.ResetRegisterValues : Prop :=
  ∀ (nv : Nat) (p : Params),
    (State.resetWith nv p).status = 0#6 ∧ (State.resetWith nv p).acc = 0#32 ∧
    (State.resetWith nv p).rampDelta = 1024#32 ∧ (State.resetWith nv p).input = [] ∧
    (State.resetWith nv p).responses = [] ∧ (State.resetWith nv p).voices.length = nv ∧
    ∀ c ∈ (State.resetWith nv p).voices, ∀ r : VReg, readVoice c r =
      match r with
      | .lane _ .q => 5#32
      | .lane _ .wpos => 15#32
      | .flA => 0x10000000#32
      | .fade => p.fadeInit
      | _ => 0#32

/-- The reset state is legal for every NV of 1..64 and all parameters in range (00_scope.md R11; 10_state.md R40). -/
def Obligations.ResetStateIsLegal : Prop :=
  ∀ (nv : Nat) (p : Params), 1 ≤ nv → nv ≤ 64 → p.wf → (State.resetWith nv p).wf

/-- VC.RESET gives the voice its power-on state and changes nothing else (45_control.md R324; 70_reset_and_hazards.md
R370). -/
def Obligations.VoiceResetIsPowerOn : Prop :=
  ∀ (s : State) (v : VoiceIx), v.toNat < s.nv →
    ∃ c, (State.resetWith s.nv s.params).voice? v = some c ∧
      exec (.vcReset v) s = .next { s with voices := s.voices.set v.toNat c }
end

