-- ==== Sys2Proof/Laws/Arith.lean ====
section
/-! SUPPORT. The pre-shift of the fixed-point products on words (40_mac.md R131; 00_scope.md R14), and the
small lemmas of binary32 (R15). -/

namespace Sys2Proof.Machine

open Sys2Proof

/-- An integer that fits in 32 bits is its own wrap (R14). -/
theorem s32_of_fits {x : Int} (h : -2 ^ 31 ≤ x) (h' : x < 2 ^ 31) : s32 x = x := by
  unfold s32; rw [BitVec.toInt_ofInt, Int.bmod_def]; omega

/-- The pre-shift of a word's value is the value of the shifted word (R131). -/
theorem shl32_toInt (a : Word) (n : Nat) : shl32 a.toInt n = (a <<< n).toInt := by
  unfold shl32 s32
  rw [BitVec.toInt_shiftLeft, BitVec.toInt_ofInt, Nat.shiftLeft_eq, BitVec.toInt_eq_toNat_bmod a]
  push_cast
  rw [Int.bmod_mul_bmod]

/-- Narrowing the value of a word gives the word back (R14). -/
@[simp] theorem u32_toInt (a : Word) : u32 a.toInt = a := BitVec.ofInt_toInt

/-- The NaN an operation answers is a NaN (R15). -/
@[simp] theorem fval_nanOf (op : FOp) (a b : F) : fval (nanOf op a b) = .nan := by
  unfold nanOf
  dsimp only
  split
  · rename_i h; simpa [isNan] using h
  · decide +kernel

/-- A rounded magnitude is at most infinity's (R15). -/
theorem roundMag_le (num den : Nat) : roundMag num den ≤ 0x7F800000 := Nat.min_le_right _ _

/-- The sign is bit 31. -/
theorem withSign_eq (neg : Bool) (b : Nat) : withSign neg b = BitVec.ofNat 32 ((if neg then 2 ^ 31 else 0) + b) := by
  cases neg <;> simp [withSign]

end Sys2Proof.Machine
end

