-- ==== Sys2Proof/Laws/Decode.lean ====
section
/-! SUPPORT. The fields of a command word read back from `commandWord` (30_encoding.md R101). -/

namespace Sys2Proof

@[simp] theorem opcOf_commandWord (o : BitVec 6) (v : VoiceIx) (l s : BitVec 2) (m : BitVec 16) :
    opcOf (commandWord o v l s m) = o := by
  apply BitVec.eq_of_getLsbD_eq
  intro i hi
  simp only [opcOf, commandWord, BitVec.getLsbD_extractLsb', BitVec.getLsbD_append, decide_eq_true hi, Bool.true_and]
  simp only [show ¬ (26 + i < 16) by omega, show ¬ (26 + i - 16 < 2) by omega, if_false,
    show ¬ (26 + i - 16 - 2 < 2) by omega, show ¬ (26 + i - 16 - 2 - 2 < 6) by omega]
  rw [show 26 + i - 16 - 2 - 2 - 6 = i by omega]

@[simp] theorem voiceOf_commandWord (o : BitVec 6) (v : VoiceIx) (l s : BitVec 2) (m : BitVec 16) :
    voiceOf (commandWord o v l s m) = v := by
  apply BitVec.eq_of_getLsbD_eq
  intro i hi
  simp only [voiceOf, commandWord, BitVec.getLsbD_extractLsb', BitVec.getLsbD_append, decide_eq_true hi, Bool.true_and]
  simp only [show ¬ (20 + i < 16) by omega, show ¬ (20 + i - 16 < 2) by omega, if_false,
    show ¬ (20 + i - 16 - 2 < 2) by omega]
  rw [show 20 + i - 16 - 2 - 2 = i by omega]
  simp [hi]

@[simp] theorem laneBits_commandWord (o : BitVec 6) (v : VoiceIx) (l s : BitVec 2) (m : BitVec 16) :
    laneBits (commandWord o v l s m) = l := by
  apply BitVec.eq_of_getLsbD_eq
  intro i hi
  simp only [laneBits, commandWord, BitVec.getLsbD_extractLsb', BitVec.getLsbD_append, decide_eq_true hi, Bool.true_and]
  simp only [show ¬ (18 + i < 16) by omega, show ¬ (18 + i - 16 < 2) by omega, if_false]
  rw [show 18 + i - 16 - 2 = i by omega]
  simp [hi]

@[simp] theorem selBits_commandWord (o : BitVec 6) (v : VoiceIx) (l s : BitVec 2) (m : BitVec 16) :
    selBits (commandWord o v l s m) = s := by
  apply BitVec.eq_of_getLsbD_eq
  intro i hi
  simp only [selBits, commandWord, BitVec.getLsbD_extractLsb', BitVec.getLsbD_append, decide_eq_true hi, Bool.true_and]
  simp [hi, show ¬ (16 + i < 16) by omega]

@[simp] theorem immOf_commandWord (o : BitVec 6) (v : VoiceIx) (l s : BitVec 2) (m : BitVec 16) :
    immOf (commandWord o v l s m) = m := by
  apply BitVec.eq_of_getLsbD_eq
  intro i hi
  simp only [immOf, commandWord, BitVec.getLsbD_extractLsb', BitVec.getLsbD_append, decide_eq_true hi, Bool.true_and]
  simp [hi]

/-- A bit of IMM16. -/
theorem getLsbD_commandWord (o : BitVec 6) (v : VoiceIx) (l s : BitVec 2) (m : BitVec 16) {i : Nat} (hi : i < 16) :
    (commandWord o v l s m).getLsbD i = m.getLsbD i := by
  simp only [commandWord, BitVec.getLsbD_append]
  simp [hi]

@[simp] theorem immFlag_commandWord (o : BitVec 6) (v : VoiceIx) (l s : BitVec 2) (m : BitVec 16) :
    immFlag (commandWord o v l s m) = m.getLsbD 0 := getLsbD_commandWord o v l s m (by decide)

@[simp] theorem immLow6_commandWord (o : BitVec 6) (v : VoiceIx) (l s : BitVec 2) (m : BitVec 16) :
    immLow6 (commandWord o v l s m) = m.setWidth 6 := by
  apply BitVec.eq_of_getLsbD_eq
  intro i hi
  simp [immLow6, BitVec.getLsbD_extractLsb', getLsbD_commandWord o v l s m (show i < 16 by omega), BitVec.getLsbD_setWidth]

@[simp] theorem immIndex_commandWord (o : BitVec 6) (v : VoiceIx) (l s : BitVec 2) (m : BitVec 16) :
    immIndex (commandWord o v l s m) = m.setWidth 12 := by
  apply BitVec.eq_of_getLsbD_eq
  intro i hi
  simp [immIndex, BitVec.getLsbD_extractLsb', getLsbD_commandWord o v l s m (show i < 16 by omega), BitVec.getLsbD_setWidth]

@[simp] theorem laneOfBits_bitsOfLane (lane : LaneSel) : laneOfBits (bitsOfLane lane) = lane := by cases lane <;> rfl
@[simp] theorem selOfBits_bitsOfSel (sel : Sel) : selOfBits (bitsOfSel sel) = sel := by cases sel <;> rfl

@[simp] theorem laneOf_commandWord (o : BitVec 6) (v : VoiceIx) (l s : BitVec 2) (m : BitVec 16) :
    laneOf (commandWord o v l s m) = laneOfBits l := by simp [laneOf]

@[simp] theorem selOf_commandWord (o : BitVec 6) (v : VoiceIx) (l s : BitVec 2) (m : BitVec 16) :
    selOf (commandWord o v l s m) = selOfBits s := by simp [selOf]

/-- A command word is made of its fields. -/
theorem commandWord_fields (w : Word) : commandWord (opcOf w) (voiceOf w) (laneBits w) (selBits w) (immOf w) = w := by
  apply BitVec.eq_of_getLsbD_eq
  intro i hi
  simp only [commandWord, opcOf, voiceOf, laneBits, selBits, immOf, BitVec.getLsbD_append, BitVec.getLsbD_extractLsb']
  by_cases h1 : i < 16
  · simp [h1]
  · by_cases h2 : i - 16 < 2
    · simp [h1, h2, show 16 + (i - 16) = i by omega]
    · by_cases h3 : i - 16 - 2 < 2
      · simp [h1, h2, h3, show 18 + (i - 16 - 2) = i by omega]
      · by_cases h4 : i - 16 - 2 - 2 < 6
        · simp [h1, h2, h3, h4, show 20 + (i - 16 - 2 - 2) = i by omega]
        · simp [h1, h2, h3, h4, show 26 + (i - 16 - 2 - 2 - 6) = i by omega, show i - 16 - 2 - 2 - 6 < 6 by omega]

/-- OPC is the top six bits as a number. -/
theorem opcOf_toNat (w : Word) : (opcOf w).toNat = w.toNat / 2 ^ 26 := by
  have := w.isLt
  simp only [opcOf, BitVec.extractLsb'_toNat, Nat.shiftRight_eq_div_pow]
  omega

end Sys2Proof
end

