-- ==== Sys2Proof/Laws/Envelope.lean ====
section
/-! SUPPORT. The envelope cursor: what ADVANCE and LOOPS do to it, and that it stays between its two nodes
(43_envelope_lfo.md R263 to R265). -/

namespace Sys2Proof.Machine

open Sys2Proof

/-- Two envelopes with the same descriptor. -/
structure SameDescriptor (e f : Envelope) : Prop where
  flags : f.flags = e.flags
  n : f.n = e.n
  ls : f.ls = e.ls
  le : f.le = e.le
  ss : f.ss = e.ss
  se : f.se = e.se
  t : f.t = e.t
  y : f.y = e.y

theorem SameDescriptor.refl (e : Envelope) : SameDescriptor e e := ⟨rfl, rfl, rfl, rfl, rfl, rfl, rfl, rfl⟩

theorem SameDescriptor.trans {a b c : Envelope} (h : SameDescriptor a b) (k : SameDescriptor b c) : SameDescriptor a c :=
  ⟨k.flags.trans h.flags, k.n.trans h.n, k.ls.trans h.ls, k.le.trans h.le, k.ss.trans h.ss, k.se.trans h.se,
    k.t.trans h.t, k.y.trans h.y⟩

theorem SameDescriptor.nodeTick {e f : Envelope} (h : SameDescriptor e f) (i : Fin 25) : f.nodeTick i = e.nodeTick i := by
  simp [Envelope.nodeTick, h.t]

theorem SameDescriptor.nodeValue {e f : Envelope} (h : SameDescriptor e f) (i : Fin 25) :
    f.nodeValue i = e.nodeValue i := by
  simp [Envelope.nodeValue, h.y]

theorem SameDescriptor.wellFormed {e f : Envelope} (h : SameDescriptor e f) (he : e.wellFormed) : f.wellFormed := by
  obtain ⟨h1, h2, h3, h4, h5, h6⟩ := he
  refine ⟨fun i j hij hj => ?_, ?_, ?_, ?_, ?_, ?_⟩
  · rw [h.nodeTick, h.nodeTick]; exact h1 i j hij (h.n ▸ hj)
  · rw [h.ls, h.le]; exact h2
  · rw [h.le, h.n]; exact h3
  · rw [h.ss, h.se]; exact h4
  · rw [h.se, h.n]; exact h5
  · rw [h.nodeTick]; exact h6

/-- A tick keeps the descriptor (43_envelope_lfo.md R271). -/
theorem Envelope.ticked_same (e : Envelope) (mode : LoopMode) (released : Bool) :
    SameDescriptor e (e.ticked mode released) := by
  unfold Envelope.ticked Envelope.loops
  split
  · exact ⟨rfl, rfl, rfl, rfl, rfl, rfl, rfl, rfl⟩
  · split <;> exact ⟨rfl, rfl, rfl, rfl, rfl, rfl, rfl, rfl⟩

theorem Envelope.restart_same (e : Envelope) : SameDescriptor e e.restart := ⟨rfl, rfl, rfl, rfl, rfl, rfl, rfl, rfl⟩

/-- A run of ticks keeps the descriptor. -/
theorem Envelope.run_same (mode : LoopMode) : ∀ (rs : List Bool) (e : Envelope), SameDescriptor e (Envelope.run mode rs e)
  | [], e => .refl e
  | r :: rs, e => (e.ticked_same mode r).trans (Envelope.run_same mode rs _)

/-- A run ends with one tick. -/
theorem Envelope.run_append (mode : LoopMode) (r : Bool) : ∀ (rs : List Bool) (e : Envelope),
    Envelope.run mode (rs ++ [r]) e = (Envelope.run mode rs e).ticked mode r
  | [], _ => rfl
  | _ :: rs, _ => Envelope.run_append mode r rs _

/-- A property that every tick keeps holds after a run. -/
theorem Envelope.run_keeps (mode : LoopMode) (P : Envelope → Prop) (h : ∀ e r, P e → P (e.ticked mode r)) :
    ∀ (rs : List Bool) (e : Envelope), P e → P (Envelope.run mode rs e)
  | [], _, he => he
  | r :: rs, e, he => Envelope.run_keeps mode P h rs (e.ticked mode r) (h e r he)

/-- The cursor lies between its nodes: T[NEXT-1] ≤ TICK ≤ T[NEXT], with NEXT ≤ N, and TICK = 0 at NEXT = 0. -/
structure Envelope.CursorOk (e : Envelope) : Prop where
  bound : e.next.val ≤ e.n.val
  zero : e.next.val = 0 → e.tick.toNat = 0
  lower : ∀ i : Fin 25, i.val + 1 = e.next.val → e.nodeTick i ≤ e.tick.toNat
  upper : ∀ i : Fin 25, i.val = e.next.val → i.val < e.n.val → e.tick.toNat ≤ e.nodeTick i

/-- The inner loop of ADVANCE stops at N or at the first node at or after the tick (R264). -/
theorem Envelope.overtake_spec (e : Envelope) (tick : Nat) : ∀ (k : Nat) (nx : Fin 26), nx.val ≤ e.n.val → e.n.val - nx.val ≤ k →
    (∀ i : Fin 25, i.val + 1 = nx.val → e.nodeTick i ≤ tick) →
    nx.val ≤ (e.overtake tick k nx).val ∧ (e.overtake tick k nx).val ≤ e.n.val ∧
      (∀ i : Fin 25, i.val + 1 = (e.overtake tick k nx).val → e.nodeTick i ≤ tick) ∧
      (∀ i : Fin 25, i.val = (e.overtake tick k nx).val → i.val < e.n.val → tick ≤ e.nodeTick i) := by
  intro k
  induction k with
  | zero =>
    intro nx h1 h2 h3
    exact ⟨le_refl _, h1, h3, fun i hi hn => by simp only [Envelope.overtake] at hi; omega⟩
  | succ k ih =>
    intro nx h1 h2 h3
    unfold Envelope.overtake
    by_cases hn : nx.val < e.n.val
    · rw [dif_pos hn]
      by_cases ht : e.nodeTick ⟨nx.val, by omega⟩ < tick
      · rw [if_pos ht]
        obtain ⟨a, b, c, d⟩ := ih ⟨nx.val + 1, by omega⟩ (by simpa using hn) (by simp only; omega)
          (fun i hi => by
            have hi : i.val = nx.val := by simpa using hi
            have : i = ⟨nx.val, by omega⟩ := Fin.ext hi
            rw [this]; exact ht.le)
        exact ⟨by simp only at a; omega, b, c, d⟩
      · rw [if_neg ht]
        refine ⟨le_refl _, h1, h3, fun i hi _ => ?_⟩
        have : i = ⟨nx.val, by omega⟩ := Fin.ext hi
        rw [this]; exact Nat.le_of_not_lt ht
    · rw [dif_neg hn]
      exact ⟨le_refl _, h1, h3, fun i hi hi' => by omega⟩

/-- TICK after ADVANCE: one more, saturated (R264). -/
theorem tickSucc_toNat (t : BitVec 32) : (tickSucc t).toNat = min (t.toNat + 1) (2 ^ 32 - 1) := by
  have := t.isLt
  simp only [tickSucc, BitVec.toNat_ofNat]
  omega

/-- ADVANCE keeps the cursor between its nodes. -/
theorem Envelope.advance_ok {e : Envelope} (hw : e.wellFormed) (h : e.CursorOk) : e.advance.CursorOk := by
  have hn : 0 < e.n.val := by have := hw.2.2.1; omega
  have ht : e.tick.toNat ≤ (tickSucc e.tick).toNat := by rw [tickSucc_toNat]; have := e.tick.isLt; omega
  have h1 : 1 ≤ (tickSucc e.tick).toNat := by rw [tickSucc_toNat]; omega
  obtain ⟨a, b, c, d⟩ := e.overtake_spec (tickSucc e.tick).toNat 25 e.next h.bound (by have := e.n.isLt; omega)
    (fun i hi => (h.lower i hi).trans ht)
  refine ⟨b, fun h0 => ?_, c, d⟩
  have := d 0 (show (0 : Fin 25).val = _ from h0.symm) hn
  have h6 : e.nodeTick 0 = 0 := hw.2.2.2.2.2
  omega

/-- A jump to a node before N puts the cursor on that node (R265). -/
theorem Envelope.jumpTo_ok {e : Envelope} (hw : e.wellFormed) (i : Fin 25) (hi : i.val < e.n.val) : (e.jumpTo i).CursorOk := by
  have ht : (e.jumpTo i).tick.toNat = e.nodeTick i := by
    simp only [Envelope.jumpTo, Envelope.nodeTick, BitVec.toNat_setWidth]
    exact Nat.mod_eq_of_lt (lt_trans (e.t.get i).isLt (by decide))
  have hnx : (e.jumpTo i).next.val = i.val + 1 := rfl
  refine ⟨?_, fun h => ?_, fun j hj => ?_, fun j hj hj' => ?_⟩
  · rw [hnx]; exact hi
  · rw [hnx] at h; omega
  · rw [hnx] at hj
    have : j = i := Fin.ext (by omega)
    rw [this, ht]; exact le_refl _
  · rw [hnx] at hj
    rw [ht]
    exact hw.1 i j (by omega) hj'

/-- A tick keeps the cursor between its nodes. -/
theorem Envelope.ticked_ok {e : Envelope} (mode : LoopMode) (released : Bool) (hw : e.wellFormed) (h : e.CursorOk) :
    (e.ticked mode released).CursorOk := by
  have h' : ({ e with value := e.eval } : Envelope).CursorOk := ⟨h.bound, h.zero, h.lower, h.upper⟩
  have hw' : ({ e with value := e.eval } : Envelope).wellFormed := hw
  have ha := Envelope.advance_ok hw' h'
  have hwa : ({ e with value := e.eval } : Envelope).advance.wellFormed := hw
  obtain ⟨-, h2, h3, h4, h5, -⟩ := hw
  unfold Envelope.ticked Envelope.loops
  split
  · exact Envelope.jumpTo_ok hwa _ (show e.ss.val < e.n.val by omega)
  · split
    · exact Envelope.jumpTo_ok hwa _ (show e.ls.val < e.n.val by omega)
    · exact ha

/-- ENV.RESET puts the cursor at node 0 (R270). -/
theorem Envelope.restart_ok (e : Envelope) : e.restart.CursorOk := by
  refine ⟨Nat.zero_le _, fun _ => rfl, fun i hi => ?_, fun i _ _ => Nat.zero_le _⟩
  simp [Envelope.restart] at hi

end Sys2Proof.Machine
end

