-- ==== Sys2Proof/Laws/State.lean ====
section
/-! SUPPORT. One lemma for each field of the state and each named update of it, true by `rfl`. -/

namespace Sys2Proof.Machine

open Sys2Proof

/-! ## State.setVoice -/

@[simp] theorem State.setVoice_status (s : State) (v : VoiceIx) (c : Voice) : (s.setVoice v c).status = s.status := rfl
@[simp] theorem State.setVoice_acc (s : State) (v : VoiceIx) (c : Voice) : (s.setVoice v c).acc = s.acc := rfl
@[simp] theorem State.setVoice_rampDelta (s : State) (v : VoiceIx) (c : Voice) : (s.setVoice v c).rampDelta = s.rampDelta := rfl
@[simp] theorem State.setVoice_voices (s : State) (v : VoiceIx) (c : Voice) : (s.setVoice v c).voices = s.voices.set v.toNat c := rfl
@[simp] theorem State.setVoice_input (s : State) (v : VoiceIx) (c : Voice) : (s.setVoice v c).input = s.input := rfl
@[simp] theorem State.setVoice_responses (s : State) (v : VoiceIx) (c : Voice) : (s.setVoice v c).responses = s.responses := rfl
@[simp] theorem State.setVoice_params (s : State) (v : VoiceIx) (c : Voice) : (s.setVoice v c).params = s.params := rfl
@[simp] theorem State.setVoice_draws (s : State) (v : VoiceIx) (c : Voice) : (s.setVoice v c).draws = s.draws := rfl

/-! ## State.emit -/

@[simp] theorem State.emit_status (s : State) (w : Word) : (s.emit w).status = s.status := rfl
@[simp] theorem State.emit_acc (s : State) (w : Word) : (s.emit w).acc = s.acc := rfl
@[simp] theorem State.emit_rampDelta (s : State) (w : Word) : (s.emit w).rampDelta = s.rampDelta := rfl
@[simp] theorem State.emit_voices (s : State) (w : Word) : (s.emit w).voices = s.voices := rfl
@[simp] theorem State.emit_input (s : State) (w : Word) : (s.emit w).input = s.input := rfl
@[simp] theorem State.emit_responses (s : State) (w : Word) : (s.emit w).responses = s.responses ++ [w] := rfl
@[simp] theorem State.emit_params (s : State) (w : Word) : (s.emit w).params = s.params := rfl
@[simp] theorem State.emit_draws (s : State) (w : Word) : (s.emit w).draws = s.draws := rfl

/-! ## State.setAcc -/

@[simp] theorem State.setAcc_status (s : State) (w : Word) : (s.setAcc w).status = s.status := rfl
@[simp] theorem State.setAcc_acc (s : State) (w : Word) : (s.setAcc w).acc = w := rfl
@[simp] theorem State.setAcc_rampDelta (s : State) (w : Word) : (s.setAcc w).rampDelta = s.rampDelta := rfl
@[simp] theorem State.setAcc_voices (s : State) (w : Word) : (s.setAcc w).voices = s.voices := rfl
@[simp] theorem State.setAcc_input (s : State) (w : Word) : (s.setAcc w).input = s.input := rfl
@[simp] theorem State.setAcc_responses (s : State) (w : Word) : (s.setAcc w).responses = s.responses := rfl
@[simp] theorem State.setAcc_params (s : State) (w : Word) : (s.setAcc w).params = s.params := rfl
@[simp] theorem State.setAcc_draws (s : State) (w : Word) : (s.setAcc w).draws = s.draws := rfl

/-! ## State.setRampDelta -/

@[simp] theorem State.setRampDelta_status (s : State) (w : Word) : (s.setRampDelta w).status = s.status := rfl
@[simp] theorem State.setRampDelta_acc (s : State) (w : Word) : (s.setRampDelta w).acc = s.acc := rfl
@[simp] theorem State.setRampDelta_rampDelta (s : State) (w : Word) : (s.setRampDelta w).rampDelta = w := rfl
@[simp] theorem State.setRampDelta_voices (s : State) (w : Word) : (s.setRampDelta w).voices = s.voices := rfl
@[simp] theorem State.setRampDelta_input (s : State) (w : Word) : (s.setRampDelta w).input = s.input := rfl
@[simp] theorem State.setRampDelta_responses (s : State) (w : Word) : (s.setRampDelta w).responses = s.responses := rfl
@[simp] theorem State.setRampDelta_params (s : State) (w : Word) : (s.setRampDelta w).params = s.params := rfl
@[simp] theorem State.setRampDelta_draws (s : State) (w : Word) : (s.setRampDelta w).draws = s.draws := rfl

/-! ## State.setDraws -/

@[simp] theorem State.setDraws_status (s : State) (d : Nat) : (s.setDraws d).status = s.status := rfl
@[simp] theorem State.setDraws_acc (s : State) (d : Nat) : (s.setDraws d).acc = s.acc := rfl
@[simp] theorem State.setDraws_rampDelta (s : State) (d : Nat) : (s.setDraws d).rampDelta = s.rampDelta := rfl
@[simp] theorem State.setDraws_voices (s : State) (d : Nat) : (s.setDraws d).voices = s.voices := rfl
@[simp] theorem State.setDraws_input (s : State) (d : Nat) : (s.setDraws d).input = s.input := rfl
@[simp] theorem State.setDraws_responses (s : State) (d : Nat) : (s.setDraws d).responses = s.responses := rfl
@[simp] theorem State.setDraws_params (s : State) (d : Nat) : (s.setDraws d).params = s.params := rfl
@[simp] theorem State.setDraws_draws (s : State) (d : Nat) : (s.setDraws d).draws = d := rfl

/-! ## State.setInput -/

@[simp] theorem State.setInput_status (s : State) (ws : List Word) : (s.setInput ws).status = s.status := rfl
@[simp] theorem State.setInput_acc (s : State) (ws : List Word) : (s.setInput ws).acc = s.acc := rfl
@[simp] theorem State.setInput_rampDelta (s : State) (ws : List Word) : (s.setInput ws).rampDelta = s.rampDelta := rfl
@[simp] theorem State.setInput_voices (s : State) (ws : List Word) : (s.setInput ws).voices = s.voices := rfl
@[simp] theorem State.setInput_input (s : State) (ws : List Word) : (s.setInput ws).input = ws := rfl
@[simp] theorem State.setInput_responses (s : State) (ws : List Word) : (s.setInput ws).responses = s.responses := rfl
@[simp] theorem State.setInput_params (s : State) (ws : List Word) : (s.setInput ws).params = s.params := rfl
@[simp] theorem State.setInput_draws (s : State) (ws : List Word) : (s.setInput ws).draws = s.draws := rfl

/-! ## State.raise -/

@[simp] theorem State.raise_status (s : State) (e : ErrCode) : (s.raise e).status = statusAfterError s.status e := rfl
@[simp] theorem State.raise_acc (s : State) (e : ErrCode) : (s.raise e).acc = s.acc := rfl
@[simp] theorem State.raise_rampDelta (s : State) (e : ErrCode) : (s.raise e).rampDelta = s.rampDelta := rfl
@[simp] theorem State.raise_voices (s : State) (e : ErrCode) : (s.raise e).voices = s.voices := rfl
@[simp] theorem State.raise_input (s : State) (e : ErrCode) : (s.raise e).input = s.input := rfl
@[simp] theorem State.raise_responses (s : State) (e : ErrCode) : (s.raise e).responses = s.responses := rfl
@[simp] theorem State.raise_params (s : State) (e : ErrCode) : (s.raise e).params = s.params := rfl
@[simp] theorem State.raise_draws (s : State) (e : ErrCode) : (s.raise e).draws = s.draws := rfl

/-! ## State.clearStatus -/

@[simp] theorem State.clearStatus_status (s : State) (w : Word) : (s.clearStatus w).status = statusAfterClear s.status w := rfl
@[simp] theorem State.clearStatus_acc (s : State) (w : Word) : (s.clearStatus w).acc = s.acc := rfl
@[simp] theorem State.clearStatus_rampDelta (s : State) (w : Word) : (s.clearStatus w).rampDelta = s.rampDelta := rfl
@[simp] theorem State.clearStatus_voices (s : State) (w : Word) : (s.clearStatus w).voices = s.voices := rfl
@[simp] theorem State.clearStatus_input (s : State) (w : Word) : (s.clearStatus w).input = s.input := rfl
@[simp] theorem State.clearStatus_responses (s : State) (w : Word) : (s.clearStatus w).responses = s.responses := rfl
@[simp] theorem State.clearStatus_params (s : State) (w : Word) : (s.clearStatus w).params = s.params := rfl
@[simp] theorem State.clearStatus_draws (s : State) (w : Word) : (s.clearStatus w).draws = s.draws := rfl

/-! ## Derived reads -/

/-- NV is the same after a voice is replaced. -/
@[simp] theorem State.setVoice_nv (s : State) (v : VoiceIx) (c : Voice) : (s.setVoice v c).nv = s.nv := by
  simp [State.nv]

@[simp] theorem State.emit_nv (s : State) (w : Word) : (s.emit w).nv = s.nv := rfl
@[simp] theorem State.setAcc_nv (s : State) (w : Word) : (s.setAcc w).nv = s.nv := rfl
@[simp] theorem State.setRampDelta_nv (s : State) (w : Word) : (s.setRampDelta w).nv = s.nv := rfl
@[simp] theorem State.setDraws_nv (s : State) (d : Nat) : (s.setDraws d).nv = s.nv := rfl
@[simp] theorem State.setInput_nv (s : State) (ws : List Word) : (s.setInput ws).nv = s.nv := rfl
@[simp] theorem State.raise_nv (s : State) (e : ErrCode) : (s.raise e).nv = s.nv := rfl
@[simp] theorem State.clearStatus_nv (s : State) (w : Word) : (s.clearStatus w).nv = s.nv := rfl

@[simp] theorem State.emit_voice? (s : State) (w : Word) (u : VoiceIx) : (s.emit w).voice? u = s.voice? u := rfl
@[simp] theorem State.setAcc_voice? (s : State) (w : Word) (u : VoiceIx) : (s.setAcc w).voice? u = s.voice? u := rfl
@[simp] theorem State.setRampDelta_voice? (s : State) (w : Word) (u : VoiceIx) : (s.setRampDelta w).voice? u = s.voice? u := rfl
@[simp] theorem State.setDraws_voice? (s : State) (d : Nat) (u : VoiceIx) : (s.setDraws d).voice? u = s.voice? u := rfl
@[simp] theorem State.setInput_voice? (s : State) (ws : List Word) (u : VoiceIx) : (s.setInput ws).voice? u = s.voice? u := rfl
@[simp] theorem State.raise_voice? (s : State) (e : ErrCode) (u : VoiceIx) : (s.raise e).voice? u = s.voice? u := rfl
@[simp] theorem State.clearStatus_voice? (s : State) (w : Word) (u : VoiceIx) : (s.clearStatus w).voice? u = s.voice? u := rfl

/-- A voice exists exactly when its index is below NV. -/
theorem State.voice?_isSome_iff (s : State) (v : VoiceIx) : (s.voice? v).isSome ↔ v.toNat < s.nv := by
  simp [State.voice?, State.nv]

/-- A voice that does not exist has an index of at least NV. -/
theorem State.voice?_eq_none_iff (s : State) (v : VoiceIx) : s.voice? v = none ↔ s.nv ≤ v.toNat := by
  simp [State.voice?, State.nv]

/-- Reading the voice just stored. -/
theorem State.setVoice_voice?_self {s : State} {v : VoiceIx} {c₀ : Voice} (c : Voice) (h : s.voice? v = some c₀) :
    (s.setVoice v c).voice? v = some c := by
  have hv : v.toNat < s.voices.length := (s.voice?_isSome_iff v).1 (by simp [h])
  simp [State.voice?, hv]

/-- Storing a voice leaves every other voice. -/
theorem State.setVoice_voice?_ne (s : State) {v u : VoiceIx} (c : Voice) (h : u ≠ v) :
    (s.setVoice v c).voice? u = s.voice? u := by
  have hn : v.toNat ≠ u.toNat := fun e => h (BitVec.eq_of_toNat_eq e.symm)
  simp [State.voice?, List.getElem?_set_ne hn]

/-- Storing a voice back changes nothing. -/
theorem State.setVoice_voice?_id {s : State} {v : VoiceIx} {c : Voice} (h : s.voice? v = some c) :
    s.setVoice v c = s := by
  have hv : v.toNat < s.voices.length := (s.voice?_isSome_iff v).1 (by simp [h])
  have hc : s.voices[v.toNat] = c := by simpa [State.voice?, hv] using h
  simp [State.setVoice, ← hc]

/-- Every voice of the state after a store is the stored one or was there before. -/
theorem State.mem_setVoice {s : State} {v : VoiceIx} {c d : Voice} (h : d ∈ (s.setVoice v c).voices) :
    d = c ∨ d ∈ s.voices := by
  rcases List.mem_or_eq_of_mem_set h with h | h
  · exact .inr h
  · exact .inl h

/-- A voice that is read is one of the state's voices. -/
theorem State.mem_of_voice? {s : State} {v : VoiceIx} {c : Voice} (h : s.voice? v = some c) : c ∈ s.voices :=
  List.mem_of_getElem? h

/-! ## Sides, selectors, rings -/

@[simp] theorem Sides.get_set_self {α : Type} (p : Sides α) (x : Side) (a : α) : (p.set x a).get x = a := by
  cases x <;> rfl

theorem Sides.get_set_ne {α : Type} (p : Sides α) {x y : Side} (a : α) (h : y ≠ x) : (p.set x a).get y = p.get y := by
  cases x <;> cases y <;> first | rfl | exact absurd rfl h

@[simp] theorem Envelopes.get_set_self (p : Envelopes) (i : Fin 3) (e : Envelope) : (p.set i e).get i = e := by
  match i with
  | 0 => rfl
  | 1 => rfl
  | 2 => rfl

theorem Envelopes.get_set_ne (p : Envelopes) {i j : Fin 3} (e : Envelope) (h : j ≠ i) :
    (p.set i e).get j = p.get j := by
  match i, j with
  | 0, 0 | 1, 1 | 2, 2 => exact absurd rfl h
  | 0, 1 | 0, 2 | 1, 0 | 1, 2 | 2, 0 | 2, 1 => rfl

@[simp] theorem Lfos.get_set_self (p : Lfos) (i : Fin 3) (l : Lfo) : (p.set i l).get i = l := by
  match i with
  | 0 => rfl
  | 1 => rfl
  | 2 => rfl

theorem Lfos.get_set_ne (p : Lfos) {i j : Fin 3} (l : Lfo) (h : j ≠ i) : (p.set i l).get j = p.get j := by
  match i, j with
  | 0, 0 | 1, 1 | 2, 2 => exact absurd rfl h
  | 0, 1 | 0, 2 | 1, 0 | 1, 2 | 2, 0 | 2, 1 => rfl

/-- Reading the cell just stored, modulo 64. -/
theorem ringGet_ringSet_self (r : Ring) {i j : Nat} (x : F) (h : i % 64 = j % 64) : ringGet (ringSet r i x) j = x := by
  simp [ringGet, ringSet, h]

/-- Storing a cell leaves every other cell. -/
theorem ringGet_ringSet_ne (r : Ring) {i j : Nat} (x : F) (h : i % 64 ≠ j % 64) :
    ringGet (ringSet r i x) j = ringGet r j := by
  simp [ringGet, ringSet, h]

/-- A cell index counts modulo 64. -/
theorem ringGet_mod (r : Ring) (i : Nat) : ringGet r (i % 64) = ringGet r i := by
  simp [ringGet]

end Sys2Proof.Machine
end

