-- ==== Sys2Proof/Laws/Ops.lean ====
section
/-! SUPPORT. What each shared operation can answer, said once: the checks of 60_exceptions.md R345 and the commands that
change one voice or its lanes. -/

namespace Sys2Proof.Machine

open Sys2Proof

/-! ## The checks run -/

theorem withVoice_some {v : VoiceIx} {s : State} {c : Voice} (k : Voice → Out) (h : s.voice? v = some c) :
    withVoice v s k = k c := by
  simp [withVoice, h]

theorem withVoice_none {v : VoiceIx} {s : State} (k : Voice → Out) (h : s.voice? v = none) :
    withVoice v s k = .next (s.raise .voice) := by
  simp [withVoice, h]

@[simp] theorem withSide_laneOfSide (x : Side) (s : State) (k : Side → Out) : withSide (laneOfSide x) s k = k x := by
  cases x <;> rfl

@[simp] theorem withSel_selOfIndex (i : Fin 3) (s : State) (k : Fin 3 → Out) : withSel (selOfIndex i) s k = k i := by
  match i with
  | 0 => rfl
  | 1 => rfl
  | 2 => rfl

/-! ## What the checks can answer -/

/-- A command on a voice either runs on a voice that exists or raises ERR_VOICE. -/
theorem withVoice_cases {v : VoiceIx} {s : State} {k : Voice → Out} {o : Out} (h : withVoice v s k = o) :
    (∃ c, s.voice? v = some c ∧ k c = o) ∨ (s.voice? v = none ∧ o = .next (s.raise .voice)) := by
  unfold withVoice at h
  split at h
  · exact .inl ⟨_, ‹_›, h⟩
  · exact .inr ⟨‹_›, h.symm⟩

/-- A command on one lane either runs on that side or raises ERR_LANE. -/
theorem withSide_cases {lane : LaneSel} {s : State} {k : Side → Out} {o : Out} (h : withSide lane s k = o) :
    (∃ x, lane = laneOfSide x ∧ k x = o) ∨ ((lane = .both ∨ lane = .reserved) ∧ o = .next (s.raise .lane)) := by
  cases lane with
  | left => exact .inl ⟨.left, rfl, h⟩
  | right => exact .inl ⟨.right, rfl, h⟩
  | both => exact .inr ⟨.inl rfl, h.symm⟩
  | reserved => exact .inr ⟨.inr rfl, h.symm⟩

/-- A command with a selector either runs on the selected index or raises ERR_SEL. -/
theorem withSel_cases {sel : Sel} {s : State} {k : Fin 3 → Out} {o : Out} (h : withSel sel s k = o) :
    (∃ i, sel = selOfIndex i ∧ k i = o) ∨ (sel = .reserved ∧ o = .next (s.raise .sel)) := by
  cases sel with
  | s0 => exact .inl ⟨0, rfl, h⟩
  | s1 => exact .inl ⟨1, rfl, h⟩
  | s2 => exact .inl ⟨2, rfl, h⟩
  | reserved => exact .inr ⟨rfl, h.symm⟩

/-- A command that changes one voice: the change, or ERR_VOICE. -/
theorem updateVoice_cases {v : VoiceIx} {s : State} {f : Voice → Voice} {o : Out} (h : updateVoice v s f = o) :
    (∃ c, s.voice? v = some c ∧ o = .next (s.setVoice v (f c))) ∨
      (s.voice? v = none ∧ o = .next (s.raise .voice)) := by
  rcases withVoice_cases h with ⟨c, hc, hk⟩ | hn
  · exact .inl ⟨c, hc, hk.symm⟩
  · exact .inr hn

/-- A command that changes lanes: the change, or ERR_VOICE, or ERR_LANE. -/
theorem updateLanes_cases {v : VoiceIx} {lane : LaneSel} {s : State} {f : Lane → Lane} {o : Out}
    (h : updateLanes v lane s f = o) :
    (∃ c, s.voice? v = some c ∧ lane ≠ .reserved ∧ o = .next (s.setVoice v { c with lanes := c.lanes.update lane f })) ∨
      (s.voice? v = none ∧ o = .next (s.raise .voice)) ∨
      (lane = .reserved ∧ o = .next (s.raise .lane)) := by
  rcases withVoice_cases h with ⟨c, hc, hk⟩ | hn
  · cases lane with
    | left => exact .inl ⟨c, hc, by simp, hk.symm⟩
    | right => exact .inl ⟨c, hc, by simp, hk.symm⟩
    | both => exact .inl ⟨c, hc, by simp, hk.symm⟩
    | reserved => exact .inr (.inr ⟨rfl, hk.symm⟩)
  · exact .inr (.inl hn)

/-- A lane command runs when the voice exists and LANE is not reserved. -/
theorem updateLanes_run {v : VoiceIx} {lane : LaneSel} {s : State} {c : Voice} (f : Lane → Lane)
    (hv : s.voice? v = some c) (hl : lane ≠ .reserved) :
    updateLanes v lane s f = .next (s.setVoice v { c with lanes := c.lanes.update lane f }) := by
  unfold updateLanes
  rw [withVoice_some _ hv]
  cases lane with
  | left => rfl
  | right => rfl
  | both => rfl
  | reserved => exact absurd rfl hl

/-- A command on one lane: it runs on that lane, or raises ERR_VOICE, or raises ERR_LANE. -/
theorem withLane_cases {v : VoiceIx} {lane : LaneSel} {s : State} {k : Voice → Side → Lane → Out} {o : Out}
    (h : withLane v lane s k = o) :
    (∃ c x, s.voice? v = some c ∧ lane = laneOfSide x ∧ k c x (c.lanes.get x) = o) ∨
      (s.voice? v = none ∧ o = .next (s.raise .voice)) ∨
      ((lane = .both ∨ lane = .reserved) ∧ o = .next (s.raise .lane)) := by
  rcases withVoice_cases h with ⟨c, hc, hk⟩ | hn
  · rcases withSide_cases hk with ⟨x, hx, hk⟩ | hl
    · exact .inl ⟨c, x, hc, hx, hk⟩
    · exact .inr (.inr hl)
  · exact .inr (.inl hn)

/-! ## STATUS -/

/-- Raising an error sets its bit (R341). -/
theorem raise_sets_bit (s : State) (e : ErrCode) : (s.raise e).status.getLsbD e.bit = true := by
  cases e <;> simp [statusAfterError, ErrCode.mask, ErrCode.bit]

/-- Raising an error clears no bit: STATUS is sticky (R341). -/
theorem raise_keeps_bits (s : State) (e : ErrCode) (b : Nat) (h : s.status.getLsbD b = true) :
    (s.raise e).status.getLsbD b = true := by
  simp [statusAfterError, h]

end Sys2Proof.Machine
end

