-- ==== Sys2Proof/Laws/Registers.lean ====
section
/-! SUPPORT. The register index map agrees with the tables of reserved and read-only indexes (10_state.md R48 to R56). -/

namespace Sys2Proof.Machine

open Sys2Proof

/-- The global part of the index map, checked index by index. -/
theorem globalReg_table : ∀ n : Fin 256,
    (globalReg n.val).isNone = reservedIndex n.val ∧
      (reservedIndex n.val = false → (globalReg n.val).any GReg.readOnly = readOnlyIndex n.val) := by
  decide +kernel

/-- The per-voice part of the index map, checked index by index. -/
theorem voiceReg_table : ∀ (k : Fin 15) (n : Fin 256),
    (voiceReg (256 * (k.val + 1) + n.val)).isNone = reservedIndex (256 * (k.val + 1) + n.val) ∧
      (reservedIndex (256 * (k.val + 1) + n.val) = false →
        (voiceReg (256 * (k.val + 1) + n.val)).any VReg.readOnly = readOnlyIndex (256 * (k.val + 1) + n.val)) := by
  decide +kernel

/-- A global index that is not reserved names a register, read-only exactly where the table says so. -/
theorem globalReg_some {n : Nat} (h : n < 0x100) (hr : reservedIndex n = false) :
    ∃ r, globalReg n = some r ∧ r.readOnly = readOnlyIndex n := by
  obtain ⟨h1, h2⟩ := globalReg_table ⟨n, h⟩
  have h2 := h2 hr
  cases hg : globalReg n with
  | none => rw [hr] at h1; simp [hg] at h1
  | some r => exact ⟨r, rfl, by simpa [hg] using h2⟩

/-- A reserved global index names no register. -/
theorem globalReg_none {n : Nat} (h : n < 0x100) (hr : reservedIndex n = true) : globalReg n = none := by
  have h1 := (globalReg_table ⟨n, h⟩).1
  rw [hr] at h1
  simpa using h1

/-- An index of at least 0x100 as a page and an offset. -/
theorem index_split {n : Nat} (h : 0x100 ≤ n) (hn : n < 0x1000) :
    ∃ (k : Fin 15) (m : Fin 256), n = 256 * (k.val + 1) + m.val :=
  ⟨⟨n / 256 - 1, by omega⟩, ⟨n % 256, by omega⟩, by simp only; omega⟩

/-- A per-voice index that is not reserved names a register, read-only exactly where the table says so. -/
theorem voiceReg_some {n : Nat} (h : 0x100 ≤ n) (hn : n < 0x1000) (hr : reservedIndex n = false) :
    ∃ r, voiceReg n = some r ∧ r.readOnly = readOnlyIndex n := by
  obtain ⟨k, m, rfl⟩ := index_split h hn
  obtain ⟨h1, h2⟩ := voiceReg_table k m
  have h2 := h2 hr
  cases hg : voiceReg (256 * (k.val + 1) + m.val) with
  | none => rw [hr] at h1; simp [hg] at h1
  | some r => exact ⟨r, rfl, by simpa [hg] using h2⟩

/-- A reserved per-voice index names no register. -/
theorem voiceReg_none {n : Nat} (h : 0x100 ≤ n) (hn : n < 0x1000) (hr : reservedIndex n = true) : voiceReg n = none := by
  obtain ⟨k, m, rfl⟩ := index_split h hn
  have h1 := (voiceReg_table k m).1
  rw [hr] at h1
  simpa using h1

end Sys2Proof.Machine
end

