-- ==== Sys2Proof/Laws/Exec.lean ====
section
/-! SUPPORT. Every way a command can answer, said once: an error, response words alone, a global register, or one voice
context. -/

namespace Sys2Proof.Machine

open Sys2Proof

/-- The shapes of the next state of a command `i` from `s` (30_encoding.md R104; 60_exceptions.md R340). -/
inductive Effect (i : Instr) (s : State) : State → Prop where
  | raised (e : ErrCode) : Effect i s (s.raise e)
  | answered (ws : List Word) : Effect i s { s with responses := s.responses ++ ws }
  | accSet (w : Word) (h : i = .aclr ∨ (∃ x, i = .aadd x) ∨ (∃ x c, i = .amac x c) ∨ ∃ v w, i = .regWr v 0x003#12 w) :
      Effect i s (s.setAcc w)
  | rampSet (v : VoiceIx) (w : Word) (h : i = .regWr v 0x004#12 w) : Effect i s (s.setRampDelta (rampDeltaOfWord w))
  | statusCleared (v : VoiceIx) (w : Word) (h : i = .regWr v 0x000#12 w) : Effect i s (s.clearStatus w)
  | voiceSet (v : VoiceIx) (c c' : Voice) (d : Nat) (ws : List Word) (hi : i.voice? = some v) (hc : s.voice? v = some c)
      (hd : s.params.sumOrder = .scalar → d = s.draws) :
      Effect i s { s.setVoice v c' with draws := d, responses := s.responses ++ ws }

theorem Effect.same (i : Instr) (s : State) : Effect i s s := by
  have := Effect.answered (i := i) (s := s) []
  simpa using this

theorem Effect.emitted (i : Instr) (s : State) (w : Word) : Effect i s (s.emit w) := .answered [w]

theorem Effect.emitted2 (i : Instr) (s : State) (w w' : Word) : Effect i s ((s.emit w).emit w') := by
  have := Effect.answered (i := i) (s := s) [w, w']
  simpa [State.emit] using this

theorem Effect.voice {i : Instr} {s : State} {v : VoiceIx} {c : Voice} (c' : Voice) (hi : i.voice? = some v)
    (hc : s.voice? v = some c) : Effect i s (s.setVoice v c') := by
  have := Effect.voiceSet v c c' s.draws [] hi hc (fun _ => rfl)
  simpa [State.setVoice] using this

theorem Effect.voiceEmitted {i : Instr} {s : State} {v : VoiceIx} {c : Voice} (c' : Voice) (w : Word)
    (hi : i.voice? = some v) (hc : s.voice? v = some c) : Effect i s ((s.setVoice v c').emit w) :=
  Effect.voiceSet v c c' s.draws [w] hi hc (fun _ => rfl)

theorem Effect.voiceEmitted2 {i : Instr} {s : State} {v : VoiceIx} {c : Voice} (c' : Voice) (w w' : Word)
    (hi : i.voice? = some v) (hc : s.voice? v = some c) : Effect i s (((s.setVoice v c').emit w).emit w') := by
  have := Effect.voiceSet v c c' s.draws [w, w'] hi hc (fun _ => rfl)
  simpa [State.emit, State.setVoice] using this

/-- A command on one voice. -/
theorem Effect.ofUpdateVoice {i : Instr} {v : VoiceIx} {s t : State} {f : Voice → Voice} (hi : i.voice? = some v)
    (h : updateVoice v s f = .next t) : Effect i s t := by
  rcases updateVoice_cases h with ⟨c, hc, ho⟩ | ⟨-, ho⟩ <;> cases ho
  · exact .voice _ hi hc
  · exact .raised _

/-- A command on the lanes LANE names. -/
theorem Effect.ofUpdateLanes {i : Instr} {v : VoiceIx} {lane : LaneSel} {s t : State} {f : Lane → Lane}
    (hi : i.voice? = some v) (h : updateLanes v lane s f = .next t) : Effect i s t := by
  rcases updateLanes_cases h with ⟨c, hc, -, ho⟩ | ⟨-, ho⟩ | ⟨-, ho⟩ <;> cases ho
  · exact .voice _ hi hc
  · exact .raised _
  · exact .raised _

/-- A command on one voice with a continuation. -/
theorem Effect.ofWithVoice {i : Instr} {v : VoiceIx} {s t : State} {k : Voice → Out} (h : withVoice v s k = .next t)
    (hk : ∀ c, s.voice? v = some c → k c = .next t → Effect i s t) : Effect i s t := by
  rcases withVoice_cases h with ⟨c, hc, ho⟩ | ⟨-, ho⟩
  · exact hk c hc ho
  · cases ho; exact .raised _

/-- A command on one lane with a continuation. -/
theorem Effect.ofWithSide {i : Instr} {lane : LaneSel} {s t : State} {k : Side → Out} (h : withSide lane s k = .next t)
    (hk : ∀ x, k x = .next t → Effect i s t) : Effect i s t := by
  rcases withSide_cases h with ⟨x, -, ho⟩ | ⟨-, ho⟩
  · exact hk x ho
  · cases ho; exact .raised _

/-- A command with a selector and a continuation. -/
theorem Effect.ofWithSel {i : Instr} {sel : Sel} {s t : State} {k : Fin 3 → Out} (h : withSel sel s k = .next t)
    (hk : ∀ j, k j = .next t → Effect i s t) : Effect i s t := by
  rcases withSel_cases h with ⟨j, -, ho⟩ | ⟨-, ho⟩
  · exact hk j ho
  · cases ho; exact .raised _

/-- The draw counter only moves under a free summation order. -/
theorem nextDraw_scalar (d : Nat) : nextDraw .scalar d = d := rfl

theorem fillLoop_draws (p : Params) (h : p.sumOrder = .scalar) : ∀ (fuel : Nat) (x : Lane × Nat), (fillLoop p fuel x).2 = x.2 := by
  intro fuel
  induction fuel with
  | zero => intro x; rfl
  | succ fuel ih =>
    intro x
    unfold fillLoop
    split
    · rw [ih]; simp [h, nextDraw]
    · rfl

theorem ensureOutput_draws (p : Params) (h : p.sumOrder = .scalar) (l : Lane) (d : Nat) : (ensureOutput p l d).2 = d := by
  unfold ensureOutput
  split
  · dsimp only
    split <;> exact fillLoop_draws p h _ _
  · rfl

theorem Effect.ofFillThenEmit {i : Instr} {v : VoiceIx} {lane : LaneSel} {s t : State} {f : Lane → Word}
    (hi : i.voice? = some v) (h : fillThenEmit v lane s f = .next t) : Effect i s t := by
  refine .ofWithVoice h fun c hc h => .ofWithSide h fun x h => ?_
  cases h
  exact Effect.voiceSet v c _ _ [_] hi hc fun hs => ensureOutput_draws _ hs _ _

/-- Every next state of a command has one of the shapes of `Effect`. -/
theorem exec_effect (i : Instr) (s t : State) (h : exec i s = .next t) : Effect i s t := by
  cases i with
  | nop => cases h; exact .same _ _
  | mulsc a b => cases h; exact .emitted _ _ _
  | mulscv a b => cases h; exact .emitted _ _ _
  | mulsca x c => cases h; exact .emitted _ _ _
  | mulsc16 a b => cases h; exact .emitted _ _ _
  | lerp a b f => cases h; exact .emitted _ _ _
  | aclr => cases h; exact .accSet _ (.inl rfl)
  | aadd x => cases h; exact .accSet _ (.inr (.inl ⟨_, rfl⟩))
  | amac x c => cases h; exact .accSet _ (.inr (.inr (.inl ⟨_, _, rfl⟩)))
  | ard => cases h; exact .emitted _ _ _
  | rsInit v lane => exact .ofUpdateLanes rfl h
  | rsClear v lane => exact .ofUpdateLanes rfl h
  | rsSetq v lane level => exact .ofUpdateLanes rfl h
  | rsSetrate v lane lo hi => exact .ofUpdateLanes rfl h
  | rsWrite v lane sample => exact .ofUpdateLanes rfl h
  | rsWritef v lane depth value => exact .ofUpdateLanes rfl h
  | rsFree v lane =>
    exact .ofWithVoice h fun c _ h => .ofWithSide h fun x h => by cases h; exact .emitted _ _ _
  | rsReady v lane =>
    exact .ofWithVoice h fun c _ h => .ofWithSide h fun x h => by cases h; exact .emitted _ _ _
  | rsCount v lane => exact Effect.ofFillThenEmit (v := v) (lane := lane) rfl (by simpa only [exec, execRsCount] using h)
  | rsGet v lane => exact Effect.ofFillThenEmit (v := v) (lane := lane) rfl (by simpa only [exec, execRsGet] using h)
  | rsGetf v lane => exact Effect.ofFillThenEmit (v := v) (lane := lane) rfl (by simpa only [exec, execRsGetf] using h)
  | rsRemove v lane decay => exact .ofUpdateLanes rfl h
  | rsDup v lane srcVoice srcLane =>
    refine .ofWithVoice h fun c hc h => ?_
    cases lane with
    | left => exact .ofWithVoice h fun src _ h => by cases h; exact .voice _ rfl hc
    | right => exact .ofWithVoice h fun src _ h => by cases h; exact .voice _ rfl hc
    | both => exact .ofWithVoice h fun src _ h => by cases h; exact .voice _ rfl hc
    | reserved => cases h; exact .raised _
  | flCoef v cutoff resonance fs => exact .ofUpdateVoice rfl h
  | flSetc v a b c => exact .ofUpdateVoice rfl h
  | flRun v lane x =>
    refine .ofWithVoice h fun c hc h => .ofWithSide h fun y h => ?_
    split at h <;> cases h
    · exact .voiceEmitted _ _ rfl hc
    · exact .emitted _ _ _
  | flReset v => exact .ofUpdateVoice rfl h
  | flEn v e => exact .ofUpdateVoice rfl h
  | envReset v sel =>
    exact .ofWithVoice h fun c hc h => .ofWithSel h fun j h => by cases h; exact .voice _ rfl hc
  | envTick v sel =>
    refine .ofWithVoice h fun c hc h => .ofWithSel h fun j h => ?_
    dsimp only at h
    split at h <;> cases h
    · exact .voiceEmitted2 _ _ _ rfl hc
    · exact .emitted2 _ _ _ _
  | envRead v sel =>
    exact .ofWithVoice h fun c hc h => .ofWithSel h fun j h => by cases h; exact .emitted _ _ _
  | envRelease v k => exact .ofUpdateVoice rfl h
  | fadeStart v => exact .ofUpdateVoice rfl h
  | fadeTick v => exact .ofWithVoice h fun c hc h => by cases h; exact .voiceEmitted _ _ rfl hc
  | lfoReset v sel =>
    exact .ofWithVoice h fun c hc h => .ofWithSel h fun j h => by cases h; exact .voice _ rfl hc
  | lfoTick v sel =>
    exact .ofWithVoice h fun c hc h => .ofWithSel h fun j h => by cases h; exact .voiceEmitted _ _ rfl hc
  | dckSettgt v l r => exact .ofUpdateVoice rfl h
  | dckStep v xl xr => exact .ofWithVoice h fun c hc h => by cases h; exact .voiceEmitted2 _ _ _ rfl hc
  | dckCut v => exact .ofUpdateVoice rfl h
  | dckRetrig v => exact .ofUpdateVoice rfl h
  | dckHk v => exact .ofWithVoice h fun c hc h => by cases h; exact .voiceEmitted _ _ rfl hc
  | regRd v idx =>
    simp only [exec, execRegRd] at h
    split at h
    · split at h <;> cases h
      · exact .raised _
      · exact .emitted _ _ _
    · refine .ofWithVoice h fun c hc h => ?_
      split at h <;> cases h
      · exact .raised _
      · exact .emitted _ _ _
  | regWr v idx w =>
    simp only [exec, execRegWr] at h
    split at h
    · split at h
      · cases h; exact .raised _
      · rename_i hlt _ r hr
        split at h <;> cases h
        · exact .raised _
        · have hidx : ∀ n, idx.toNat = n → idx = BitVec.ofNat 12 n := fun n hn => by
            apply BitVec.eq_of_toNat_eq; rw [hn, BitVec.toNat_ofNat, ← hn, Nat.mod_eq_of_lt idx.isLt]
          unfold globalReg at hr
          split at hr <;> cases hr <;> rename_i hn _
          · exact .statusCleared v w (by rw [hidx _ hn])
          · exact .same _ _
          · exact .same _ _
          · exact .accSet _ (.inr (.inr (.inr ⟨v, w, by rw [hidx _ hn]⟩)))
          · exact .rampSet v w (by rw [hidx _ hn])
          · exact .same _ _
    · rename_i hge
      have hv : (Instr.regWr v idx w).voice? = some v := by simp only [Instr.voice?]; rw [if_pos (by omega)]
      refine .ofWithVoice h fun c hc h => ?_
      split at h
      · cases h; exact .raised _
      · split at h <;> cases h
        · exact .raised _
        · exact .voice _ hv hc
  | vcReset v => exact .ofUpdateVoice rfl h

end Sys2Proof.Machine
end

