-- ==== Sys2Proof/Laws/Lane.lean ====
section
/-! SUPPORT. The lane procedures of 41_resampler.md: what each changes, what a free sum answers, that FILL runs until it
cannot go on, and that each keeps the lane invariants of 10_state.md R40. -/

namespace Sys2Proof.Machine

open Sys2Proof

/-! ## Phase (R162) -/

/-- The advance is at most 32 when the increment is at most RATIO_MAX (R162). -/
theorem phaseAcc_adv_le {f : BitVec 32} {n : BitVec 64} (h : n.toNat ≤ Config.ratioMax) : (phaseAcc f n).2 ≤ 32 := by
  have := f.isLt
  simp only [phaseAcc, Config.ratioMax] at *
  omega

/-- An increment of at most RATIO_MAX, from the rate invariant. -/
theorem Lane.rateWf_inc_le {l : Lane} (h : l.rateWf) : l.inc.toNat ≤ Config.ratioMax := by
  rcases h with h | h
  · simp [h.1]
  · exact h.2.1

/-- An inverse increment of at most RATIO_MAX, from the rate invariant. -/
theorem Lane.rateWf_iinc_le {l : Lane} (h : l.rateWf) : l.iinc.toNat ≤ Config.ratioMax := by
  rcases h with h | ⟨h1, -, h2⟩
  · simp [h.2]
  · rw [h2]
    exact (Nat.div_le_div_left h1 (by decide)).trans (by decide)

/-! ## Free sums (R176) -/

/-- The terms of a sum may be listed in any order. -/
theorem SumOf.perm {xs ys : List F} {y : F} (s : SumOf xs y) (h : xs.Perm ys) : SumOf ys y := by
  cases s with
  | term => rw [List.perm_singleton.1 h.symm]; exact .term _
  | sum hp a b => exact .sum (hp.trans h) a b

/-- A term that is itself the sum of two terms may be replaced by the two. -/
theorem SumOf.split_term {xs : List F} {y : F} (h : SumOf xs y) :
    ∀ {a b : F} {r : List F}, xs.Perm (fadd a b :: r) → SumOf (a :: b :: r) y := by
  induction h with
  | term x =>
    intro a b r hp
    obtain ⟨rfl, rfl⟩ : x = fadd a b ∧ r = [] := by simpa [eq_comm] using List.perm_singleton.1 hp.symm
    exact .sum (as := [a]) (bs := [b]) (.refl _) (.term _) (.term _)
  | @sum xs as bs u v hp hu hv ihu ihv =>
    intro a b r hr
    rcases List.mem_append.1 ((hp.trans hr).mem_iff.2 List.mem_cons_self) with hm | hm
    · have e := List.perm_cons_erase hm
      exact .sum (as := a :: b :: as.erase (fadd a b))
        ((((e.symm.append_right bs).trans (hp.trans hr)).cons_inv.cons b).cons a) (ihu e) hv
    · have e := List.perm_cons_erase hm
      have hk := (List.perm_middle.symm.trans ((e.symm.append_left as).trans (hp.trans hr))).cons_inv
      exact .sum (bs := a :: b :: bs.erase (fadd a b))
        (List.perm_middle.trans ((List.perm_middle.trans (hk.cons b)).cons a)) hu (ihv e)

/-- Taking one entry out of a list and putting it in front permutes the list. -/
theorem getD_cons_eraseIdx_perm (xs : List F) {i : Nat} (h : i < xs.length) :
    (xs.getD i 0#32 :: xs.eraseIdx i).Perm xs := by
  simpa [List.getD_eq_getElem?_getD, List.getElem?_eq_getElem h] using List.getElem_cons_eraseIdx_perm h

/-- Whatever is picked, the picked sum is the sum of the terms in some association order. -/
theorem sumPicked_sumOf (draw : Nat) : ∀ (n k : Nat) (xs : List F), xs.length = n + 1 →
    SumOf xs (sumPicked draw n k xs) := by
  intro n
  induction n with
  | zero => intro k xs h; obtain ⟨x, rfl⟩ := List.length_eq_one_iff.1 h; exact .term x
  | succ n ih =>
    intro k xs h
    have hi : Config.sumPick draw k % xs.length < xs.length := Nat.mod_lt _ (by omega)
    have hr : (xs.eraseIdx (Config.sumPick draw k % xs.length)).length = n + 1 := by
      rw [List.length_eraseIdx_of_lt hi]; omega
    have hj := Nat.mod_lt (Config.sumPick draw (k + 1))
      (show 0 < (xs.eraseIdx (Config.sumPick draw k % xs.length)).length by omega)
    refine ((ih (k + 2) _ ?_).split_term (.refl _)).perm
      (((getD_cons_eraseIdx_perm _ hj).cons _).trans (getD_cons_eraseIdx_perm xs hi))
    simp only [List.length_cons]; rw [List.length_eraseIdx_of_lt hj, hr]; rfl

/-- REMOVE repeated is REMOVE iterated (R166). -/
theorem Lane.removeMany_eq_iterate (p : Params) (n : Nat) :
    ∀ l : Lane, l.removeMany p n = (Lane.remove p true)^[n] l := by
  induction n with
  | zero => exact fun _ => rfl
  | succ n ih => exact fun l => ih (l.remove p true)

/-! ## What an iteration changes -/

/-- The part of a lane that no kernel iteration changes. -/
structure SameInput (l m : Lane) : Prop where
  q : m.q = l.q
  inRing : m.inRing = l.inRing
  wpos : m.wpos = l.wpos
  rpos : m.rpos = l.rpos
  inc : m.inc = l.inc
  iinc : m.iinc = l.iinc
  inPrimed : m.inPrimed = l.inPrimed
  outPrimed : m.outPrimed = l.outPrimed

theorem SameInput.refl (l : Lane) : SameInput l l := ⟨rfl, rfl, rfl, rfl, rfl, rfl, rfl, rfl⟩

theorem SameInput.trans {a b c : Lane} (h : SameInput a b) (k : SameInput b c) : SameInput a c :=
  ⟨k.q.trans h.q, k.inRing.trans h.inRing, k.wpos.trans h.wpos, k.rpos.trans h.rpos, k.inc.trans h.inc,
    k.iinc.trans h.iinc, k.inPrimed.trans h.inPrimed, k.outPrimed.trans h.outPrimed⟩

/-- Spreading a step changes output cells only (R174). -/
theorem Lane.spread_same (d : F) (ks : List F) : ∀ (l : Lane) (m : Nat),
    SameInput l (l.spread d m ks) ∧ (l.spread d m ks).wfill = l.wfill ∧ (l.spread d m ks).rfill = l.rfill ∧
      (l.spread d m ks).phase = l.phase ∧ (l.spread d m ks).iphase = l.iphase ∧
      (l.spread d m ks).lastAmp = l.lastAmp ∧ (l.spread d m ks).accum = l.accum := by
  induction ks with
  | nil => intro l m; exact ⟨.refl l, rfl, rfl, rfl, rfl, rfl, rfl⟩
  | cons k ks ih =>
    intro l m
    obtain ⟨h, hr⟩ := ih (l.setOutcell m (fadd (l.outcell m) (fmul d k))) (m + 1)
    exact ⟨⟨h.q, h.inRing, h.wpos, h.rpos, h.inc, h.iinc, h.inPrimed, h.outPrimed⟩, hr⟩

/-- An amplitude step changes output cells and last_amp only (R174, R175). -/
theorem Lane.stepTo_same (l : Lane) (p : Params) (draw step : Nat) (x : F) :
    SameInput l (l.stepTo p draw step x) ∧ (l.stepTo p draw step x).wfill = l.wfill ∧
      (l.stepTo p draw step x).rfill = l.rfill ∧ (l.stepTo p draw step x).phase = l.phase ∧
      (l.stepTo p draw step x).iphase = l.iphase ∧ (l.stepTo p draw step x).accum = l.accum := by
  unfold Lane.stepTo
  split
  · obtain ⟨h, hw, hr, hp, hi, -, ha⟩ := Lane.spread_same
      (fdiv (fsub x l.lastAmp) (kernelSum p.sumOrder draw (kernelTaps step (phaseIndex l.iphase))))
      (kernelTaps step (phaseIndex l.iphase)) { l with lastAmp := fadd l.lastAmp (fsub x l.lastAmp) } 0
    exact ⟨⟨h.q, h.inRing, h.wpos, h.rpos, h.inc, h.iinc, h.inPrimed, h.outPrimed⟩, hw, hr, hp, hi, ha⟩
  · exact ⟨.refl l, rfl, rfl, rfl, rfl, rfl⟩

/-- How an iteration moves the counters: one output made, or one input taken (R170 to R175). -/
inductive Moved (l m : Lane) : Prop where
  | output (hr : m.rfill = l.rfill + 1) (hw : m.wfill = l.wfill - ((phaseAcc l.phase l.inc).2 : Nat))
  | input (hb : l.q.isBL = true) (hw : m.wfill = l.wfill - 1)
      (hr : m.rfill = l.rfill + (phaseAcc l.iphase l.iinc).2)

theorem Lane.putOutput_same (l : Lane) (y : F) : SameInput l (l.putOutput y) ∧ Moved l (l.putOutput y) :=
  ⟨⟨rfl, rfl, rfl, rfl, rfl, rfl, rfl, rfl⟩, .output rfl rfl⟩

/-- An iteration keeps the input side and moves the counters as R170 to R175 say. -/
theorem Lane.iter_spec (l : Lane) (p : Params) (draw : Nat) : SameInput l (l.iter p draw) ∧ Moved l (l.iter p draw) := by
  unfold Lane.iter
  split
  · exact l.putOutput_same _
  · rename_i hq
    obtain ⟨h, hw, hr, -, hi, -⟩ := l.stepTo_same p draw p.blepStep (l.inp 0)
    refine ⟨⟨h.q, h.inRing, h.wpos, h.rpos, h.inc, h.iinc, h.inPrimed, h.outPrimed⟩, .input (by simp [hq, Quality.isBL]) ?_ ?_⟩
    · simp [iterBlep, Lane.takeInput, hw]
    · simp [iterBlep, Lane.takeInput, hr, hi, h.iinc]
  · exact l.putOutput_same _
  · rename_i hq
    obtain ⟨h, hw, hr, hp, hi, -⟩ := l.stepTo_same p draw p.blamStep (blamTarget l)
    unfold iterBlam Lane.blamAdvance
    split
    · refine ⟨⟨h.q, h.inRing, h.wpos, h.rpos, h.inc, h.iinc, h.inPrimed, h.outPrimed⟩, .input (by simp [hq, Quality.isBL]) ?_ ?_⟩
      · simp [Lane.takeInput, hw]
      · simp [Lane.takeInput, hr, hi, h.iinc]
    · refine ⟨⟨h.q, h.inRing, h.wpos, h.rpos, h.inc, h.iinc, h.inPrimed, h.outPrimed⟩, .output ?_ ?_⟩
      · simp [Lane.finishOutput, hr]
      · simp [Lane.finishOutput, hw, hp, h.inc]
  · exact l.putOutput_same _
  · exact l.putOutput_same _

/-! ## FILL (R167) -/

/-- The guard of FILL, as propositions. -/
theorem Lane.canIterate_iff (l : Lane) :
    l.canIterate = true ↔ l.q.minFill < l.wfill ∧ l.rfill < 64 ∧ (l.q.isBL = true → l.rfill + 32 ≤ 64) := by
  simp only [Lane.canIterate, Bool.and_eq_true, decide_eq_true_eq, Bool.or_eq_true, Bool.not_eq_true', and_assoc]
  cases l.q.isBL <;> simp

/-- Every quality needs at least one pending sample. -/
theorem Quality.minFill_pos (q : Quality) : 1 ≤ q.minFill := by cases q <;> decide

/-- The bound on the iterations of FILL: input left, and output room left. -/
def Lane.work (l : Lane) : Nat := l.wfill.toNat + (64 - l.rfill)

/-- Every iteration lowers wfill or raises rfill (R167). -/
theorem Lane.iter_work_lt {l : Lane} (p : Params) (draw : Nat) (h : l.canIterate = true) :
    (l.iter p draw).work < l.work := by
  obtain ⟨hw, hr, -⟩ := l.canIterate_iff.1 h
  have hm := l.q.minFill_pos
  obtain ⟨-, hmv⟩ := l.iter_spec p draw
  unfold Lane.work
  cases hmv with
  | output h1 h2 => omega
  | input hb h1 h2 => omega

/-- A property that every iteration keeps holds after the loop. -/
theorem fillLoop_keeps (p : Params) (P : Lane → Prop)
    (hstep : ∀ l draw, l.canIterate = true → P l → P (l.iter p draw)) :
    ∀ (fuel : Nat) (x : Lane × Nat), P x.1 → P (fillLoop p fuel x).1 := by
  intro fuel
  induction fuel with
  | zero => intro x h; exact h
  | succ fuel ih =>
    intro x h
    unfold fillLoop
    split
    · exact ih _ (hstep _ _ ‹_› h)
    · exact h

/-- A property that every iteration keeps holds after FILL. -/
theorem fill_keeps (p : Params) (P : Lane → Prop)
    (hstep : ∀ l draw, l.canIterate = true → P l → P (l.iter p draw)) {l : Lane} (draw : Nat) (h : P l) :
    P (fill p l draw).1 :=
  fillLoop_keeps p P hstep _ _ h

/-- With as many rounds as work, the loop ends at a lane that cannot iterate. -/
theorem fillLoop_done (p : Params) : ∀ (fuel : Nat) (x : Lane × Nat), x.1.work ≤ fuel →
    (fillLoop p fuel x).1.canIterate = false := by
  intro fuel
  induction fuel with
  | zero =>
    intro x h
    cases hc : x.1.canIterate with
    | false => exact hc
    | true => exact absurd (x.1.iter_work_lt p x.2 hc) (by omega)
  | succ fuel ih =>
    intro x h
    unfold fillLoop
    split
    · rename_i hc
      exact ih _ (by have := x.1.iter_work_lt p x.2 hc; dsimp only at *; omega)
    · rename_i hc
      simpa using hc

/-- The loop does nothing to a lane that cannot iterate. -/
theorem fillLoop_stuck (p : Params) (fuel : Nat) (l : Lane) (draw : Nat) (h : l.canIterate = false) :
    fillLoop p fuel (l, draw) = (l, draw) := by
  cases fuel with
  | zero => rfl
  | succ fuel => simp [fillLoop, h]

/-- FILL does nothing to a lane that cannot iterate. -/
theorem fill_stuck (p : Params) {l : Lane} (draw : Nat) (h : l.canIterate = false) : fill p l draw = (l, draw) :=
  fillLoop_stuck p _ l draw h

/-- FILL keeps the input side of the lane. -/
theorem fill_same (p : Params) (l : Lane) (draw : Nat) : SameInput l (fill p l draw).1 :=
  fill_keeps p (SameInput l) (fun m d _ h => h.trans (m.iter_spec p d).1) draw (.refl l)

/-! ## The lane invariants (10_state.md R40) -/

/-- An iteration keeps the lane invariants (R164). -/
theorem Lane.iter_wf {l : Lane} (p : Params) (draw : Nat) (h : l.canIterate = true) (hl : l.wf) : (l.iter p draw).wf := by
  obtain ⟨hw, hr, hb⟩ := l.canIterate_iff.1 h
  have hm := l.q.minFill_pos
  obtain ⟨h1, h2, h3, h4⟩ := hl
  have hi := phaseAcc_adv_le (f := l.phase) (Lane.rateWf_inc_le h4)
  have hii := phaseAcc_adv_le (f := l.iphase) (Lane.rateWf_iinc_le h4)
  obtain ⟨hs, hmv⟩ := l.iter_spec p draw
  have hrate : (l.iter p draw).rateWf := by unfold Lane.rateWf at *; rw [hs.inc, hs.iinc]; exact h4
  cases hmv with
  | output hr' hw' => exact ⟨by omega, by omega, by omega, hrate⟩
  | input hbl hw' hr' => have := hb hbl; exact ⟨by omega, by omega, by omega, hrate⟩

/-- FILL keeps the lane invariants. -/
theorem fill_wf (p : Params) {l : Lane} (draw : Nat) (hl : l.wf) : (fill p l draw).1.wf :=
  fill_keeps p Lane.wf (fun _ d hc hm => Lane.iter_wf p d hc hm) draw hl

/-- REMOVE: what it does to the counters and the input side (R168). -/
theorem Lane.remove_spec (p : Params) (decay : Bool) (l : Lane) :
    (l.remove p decay).q = l.q ∧ (l.remove p decay).wfill = l.wfill ∧ (l.remove p decay).rfill = l.rfill - 1 ∧
      (l.remove p decay).inc = l.inc ∧ (l.remove p decay).iinc = l.iinc ∧
      (l.remove p decay).outPrimed = l.outPrimed ∧ (l.remove p decay).inPrimed = l.inPrimed ∧
      (l.remove p decay).inRing = l.inRing ∧ (l.remove p decay).wpos = l.wpos := by
  unfold Lane.remove
  split
  · cases l.q.isBL <;> exact ⟨rfl, rfl, rfl, rfl, rfl, rfl, rfl, rfl, rfl⟩
  · exact ⟨rfl, rfl, by omega, rfl, rfl, rfl, rfl, rfl, rfl⟩

/-- Repeated REMOVE: what it does to the counters and the input side (R166). -/
theorem Lane.removeMany_spec (p : Params) : ∀ (n : Nat) (l : Lane),
    (l.removeMany p n).q = l.q ∧ (l.removeMany p n).wfill = l.wfill ∧ (l.removeMany p n).rfill = l.rfill - n ∧
      (l.removeMany p n).inc = l.inc ∧ (l.removeMany p n).iinc = l.iinc ∧ (l.removeMany p n).outPrimed = l.outPrimed := by
  intro n
  induction n with
  | zero => intro l; exact ⟨rfl, rfl, rfl, rfl, rfl, rfl⟩
  | succ n ih =>
    intro l
    obtain ⟨a1, a2, a3, a4, a5, a6, -⟩ := l.remove_spec p true
    obtain ⟨b1, b2, b3, b4, b5, b6⟩ := ih (l.remove p true)
    exact ⟨b1.trans a1, b2.trans a2, b3.trans (by rw [a3]; omega), b4.trans a4, b5.trans a5, b6.trans a6⟩

/-- REMOVE keeps the lane invariants. -/
theorem Lane.remove_wf (p : Params) (decay : Bool) {l : Lane} (hl : l.wf) : (l.remove p decay).wf := by
  obtain ⟨-, h1, h2, h3, h4, -⟩ := l.remove_spec p decay
  obtain ⟨a, b, c, d⟩ := hl
  exact ⟨by omega, by omega, by omega, by unfold Lane.rateWf; rw [h3, h4]; exact d⟩

/-- Repeated REMOVE keeps the lane invariants. -/
theorem Lane.removeMany_wf (p : Params) (n : Nat) {l : Lane} (hl : l.wf) : (l.removeMany p n).wf := by
  obtain ⟨-, h1, h2, h3, h4, -⟩ := Lane.removeMany_spec p n l
  obtain ⟨a, b, c, d⟩ := hl
  exact ⟨by omega, by omega, by omega, by unfold Lane.rateWf; rw [h3, h4]; exact d⟩

/-- The lazy fill keeps the lane invariants (R166). -/
theorem ensureOutput_wf (p : Params) {l : Lane} (draw : Nat) (hl : l.wf) : (ensureOutput p l draw).1.wf := by
  unfold ensureOutput
  split
  · have hf := fill_wf p draw hl
    dsimp only
    split
    · exact hf
    · exact Lane.removeMany_wf p _ hf
  · exact hl

/-- write_in keeps the lane invariants (R165). -/
theorem Lane.writeIn_wf (v : F) {l : Lane} (hl : l.wf) : (l.writeIn v).wf := by
  obtain ⟨a, b, c, d⟩ := hl
  have hd : 0 ≤ l.q.inDelay ∧ l.q.inDelay ≤ 15 := by cases l.q <;> decide
  unfold Lane.writeIn
  cases hp : l.inPrimed
  · simp only [Bool.false_eq_true, if_false]
    rw [if_pos (show l.q.inDelay < 64 by omega)]
    exact ⟨a, show -30 ≤ l.q.inDelay + 1 by omega, show l.q.inDelay + 1 ≤ 64 by omega, d⟩
  · simp only [if_true]
    split
    · exact ⟨a, show -30 ≤ l.wfill + 1 by omega, show l.wfill + 1 ≤ 64 by omega, d⟩
    · exact ⟨a, b, c, d⟩

/-- CLEAR_CORE keeps the lane invariants (R179). -/
theorem Lane.clear_wf {l : Lane} (hl : l.rateWf) : l.clear.wf := by
  unfold Lane.clear
  dsimp only
  split <;> exact ⟨by simp, by simp, by simp, hl⟩

/-- RS.INIT always gives the reset state of a lane (R178; 10_state.md R39). -/
theorem clearCells_zeroRing : clearCells 15 zeroRing = zeroRing := by decide +kernel

/-- RS.INIT always gives the reset state of a lane (R178; 10_state.md R39). -/
theorem Lane.init_eq (l : Lane) : l.init = Lane.reset := by
  simp only [Lane.init, Lane.clear, Quality.isBL, clearCells_zeroRing]
  rfl

/-- The reset lane meets the lane invariants. -/
theorem Lane.reset_wf : Lane.reset.wf := by decide

/-- RS.SETQ keeps the lane invariants (R180). -/
theorem Lane.setQuality_wf (qn : Quality) {l : Lane} (hl : l.wf) : (l.setQuality qn).wf := by
  obtain ⟨a, b, c, d⟩ := hl
  unfold Lane.setQuality
  split
  · exact ⟨a, b, c, d⟩
  · dsimp only
    split
    · exact ⟨by simp, b, c, d⟩
    · exact ⟨a, b, c, d⟩

/-- The clamped ratio lies in RATIO_MIN..RATIO_MAX (R181). -/
theorem clampRatio_bounds (r : Nat) : Config.ratioMin ≤ clampRatio r ∧ clampRatio r ≤ Config.ratioMax := by
  simp only [clampRatio, Config.ratioMin, Config.ratioMax]
  omega

/-- RS.SETRATE stores a legal rate (R181). -/
theorem Lane.setRate_rateWf (r : Nat) (l : Lane) : (l.setRate r).rateWf := by
  obtain ⟨h1, h2⟩ := clampRatio_bounds r
  have hc : clampRatio r < 2 ^ 64 := lt_of_le_of_lt h2 (by decide)
  have hq : 2 ^ 64 / clampRatio r < 2 ^ 64 :=
    lt_of_le_of_lt (Nat.div_le_div_left h1 (by decide)) (by decide)
  refine .inr ⟨?_, ?_, ?_⟩ <;> simp only [Lane.setRate, BitVec.toNat_ofNat, Nat.mod_eq_of_lt hc, Nat.mod_eq_of_lt hq]
  · exact h1
  · exact h2

/-- RS.SETRATE keeps the lane invariants. -/
theorem Lane.setRate_wf (r : Nat) {l : Lane} (hl : l.wf) : (l.setRate r).wf :=
  ⟨hl.1, hl.2.1, hl.2.2.1, l.setRate_rateWf r⟩

end Sys2Proof.Machine
end

