-- ==== Sys2Proof/Laws/PerInstr.lean ====
section
/-! SUPPORT. Statements for all instructions, one lemma per constructor. -/

namespace Sys2Proof.Laws.EncodingLength

open Sys2Proof

/-- The words of a command are its command word and the operand words of the "ops" column, and the operand count that the
decoder takes from that command word's OPC is the same (30_encoding.md R100, R104, R111). -/
def Statement (i : Instr) : Prop :=
  (encode i).length = 1 + i.operands ∧ operandCount (opcOf ((encode i).headD 0#32)) = some i.operands

/-- The operand count read from a command word is that of the opcode it was built from. -/
theorem head_opcode (opc : BitVec 6) (v : VoiceIx) (lane sel : BitVec 2) (imm : BitVec 16) :
    operandCount (opcOf (commandWord opc v lane sel imm)) = operandCount opc := by
  rw [opcOf_commandWord]

theorem nop : Statement .nop := ⟨rfl, head_opcode ..⟩
theorem mulsc (a b : Word) : Statement (.mulsc a b) := ⟨rfl, head_opcode ..⟩
theorem mulscv (a b : Word) : Statement (.mulscv a b) := ⟨rfl, head_opcode ..⟩
theorem mulsca (x c : Word) : Statement (.mulsca x c) := ⟨rfl, head_opcode ..⟩
theorem mulsc16 (a b : Word) : Statement (.mulsc16 a b) := ⟨rfl, head_opcode ..⟩
theorem lerp (a b f : Word) : Statement (.lerp a b f) := ⟨rfl, head_opcode ..⟩
theorem aclr : Statement .aclr := ⟨rfl, head_opcode ..⟩
theorem aadd (x : Word) : Statement (.aadd x) := ⟨rfl, head_opcode ..⟩
theorem amac (x c : Word) : Statement (.amac x c) := ⟨rfl, head_opcode ..⟩
theorem ard : Statement .ard := ⟨rfl, head_opcode ..⟩
theorem rsInit (v : VoiceIx) (lane : LaneSel) : Statement (.rsInit v lane) := ⟨rfl, head_opcode ..⟩
theorem rsClear (v : VoiceIx) (lane : LaneSel) : Statement (.rsClear v lane) := ⟨rfl, head_opcode ..⟩
theorem rsSetq (v : VoiceIx) (lane : LaneSel) (level : BitVec 16) : Statement (.rsSetq v lane level) := ⟨rfl, head_opcode ..⟩
theorem rsSetrate (v : VoiceIx) (lane : LaneSel) (lo hi : Word) : Statement (.rsSetrate v lane lo hi) := ⟨rfl, head_opcode ..⟩
theorem rsWrite (v : VoiceIx) (lane : LaneSel) (sample : BitVec 16) : Statement (.rsWrite v lane sample) := ⟨rfl, head_opcode ..⟩
theorem rsWritef (v : VoiceIx) (lane : LaneSel) (depth : BitVec 6) (value : Word) : Statement (.rsWritef v lane depth value) := ⟨rfl, head_opcode ..⟩
theorem rsFree (v : VoiceIx) (lane : LaneSel) : Statement (.rsFree v lane) := ⟨rfl, head_opcode ..⟩
theorem rsReady (v : VoiceIx) (lane : LaneSel) : Statement (.rsReady v lane) := ⟨rfl, head_opcode ..⟩
theorem rsCount (v : VoiceIx) (lane : LaneSel) : Statement (.rsCount v lane) := ⟨rfl, head_opcode ..⟩
theorem rsGet (v : VoiceIx) (lane : LaneSel) : Statement (.rsGet v lane) := ⟨rfl, head_opcode ..⟩
theorem rsGetf (v : VoiceIx) (lane : LaneSel) : Statement (.rsGetf v lane) := ⟨rfl, head_opcode ..⟩
theorem rsRemove (v : VoiceIx) (lane : LaneSel) (decay : Bool) : Statement (.rsRemove v lane decay) := ⟨rfl, head_opcode ..⟩
theorem rsDup (v : VoiceIx) (lane : LaneSel) (srcVoice : VoiceIx) (srcLane : Side) : Statement (.rsDup v lane srcVoice srcLane) := ⟨rfl, head_opcode ..⟩
theorem flCoef (v : VoiceIx) (cutoff : BitVec 16) (resonance : BitVec 8) (fs : Word) : Statement (.flCoef v cutoff resonance fs) := ⟨rfl, head_opcode ..⟩
theorem flSetc (v : VoiceIx) (a b c : Word) : Statement (.flSetc v a b c) := ⟨rfl, head_opcode ..⟩
theorem flRun (v : VoiceIx) (lane : LaneSel) (x : Word) : Statement (.flRun v lane x) := ⟨rfl, head_opcode ..⟩
theorem flReset (v : VoiceIx) : Statement (.flReset v) := ⟨rfl, head_opcode ..⟩
theorem flEn (v : VoiceIx) (e : Bool) : Statement (.flEn v e) := ⟨rfl, head_opcode ..⟩
theorem envReset (v : VoiceIx) (sel : Sel) : Statement (.envReset v sel) := ⟨rfl, head_opcode ..⟩
theorem envTick (v : VoiceIx) (sel : Sel) : Statement (.envTick v sel) := ⟨rfl, head_opcode ..⟩
theorem envRead (v : VoiceIx) (sel : Sel) : Statement (.envRead v sel) := ⟨rfl, head_opcode ..⟩
theorem envRelease (v : VoiceIx) (k : Bool) : Statement (.envRelease v k) := ⟨rfl, head_opcode ..⟩
theorem fadeStart (v : VoiceIx) : Statement (.fadeStart v) := ⟨rfl, head_opcode ..⟩
theorem fadeTick (v : VoiceIx) : Statement (.fadeTick v) := ⟨rfl, head_opcode ..⟩
theorem lfoReset (v : VoiceIx) (sel : Sel) : Statement (.lfoReset v sel) := ⟨rfl, head_opcode ..⟩
theorem lfoTick (v : VoiceIx) (sel : Sel) : Statement (.lfoTick v sel) := ⟨rfl, head_opcode ..⟩
theorem dckSettgt (v : VoiceIx) (l r : Word) : Statement (.dckSettgt v l r) := ⟨rfl, head_opcode ..⟩
theorem dckStep (v : VoiceIx) (xl xr : Word) : Statement (.dckStep v xl xr) := ⟨rfl, head_opcode ..⟩
theorem dckCut (v : VoiceIx) : Statement (.dckCut v) := ⟨rfl, head_opcode ..⟩
theorem dckRetrig (v : VoiceIx) : Statement (.dckRetrig v) := ⟨rfl, head_opcode ..⟩
theorem dckHk (v : VoiceIx) : Statement (.dckHk v) := ⟨rfl, head_opcode ..⟩
theorem regRd (v : VoiceIx) (idx : BitVec 12) : Statement (.regRd v idx) := ⟨rfl, head_opcode ..⟩
theorem regWr (v : VoiceIx) (idx : BitVec 12) (w : Word) : Statement (.regWr v idx w) := ⟨rfl, head_opcode ..⟩
theorem vcReset (v : VoiceIx) : Statement (.vcReset v) := ⟨rfl, head_opcode ..⟩

end Sys2Proof.Laws.EncodingLength
end

