-- ==== Sys2Proof/Machine/Assembler.lean ====
section
/-! DEFINITION. The assembler text of a command (30_encoding.md R113) and the pseudo-instructions (R114). Nothing of the
machine depends on this file. -/

namespace Sys2Proof.Machine

open Sys2Proof

/-! ## Text (R113) -/

/-- A voice, `v<N>` in decimal. -/
def asmVoice (v : VoiceIx) : String := "v" ++ toString v.toNat

/-- An unsigned word. -/
def asmWord (w : Word) : String := toString w.toNat

/-- A flag operand, 0 or 1. -/
def asmFlag (b : Bool) : String := if b then "1" else "0"

/-- A lane suffix; LANE 3 has none. -/
def laneSuffix : LaneSel → Option String
  | .left => some ".l"
  | .right => some ".r"
  | .both => some ".lr"
  | .reserved => none

/-- The suffix of one lane. -/
def sideSuffix : Side → String
  | .left => ".l"
  | .right => ".r"

/-- An envelope selector suffix; SEL 3 has none. -/
def envSuffix : Sel → Option String
  | .s0 => some ".vol"
  | .s1 => some ".pan"
  | .s2 => some ".pitch"
  | .reserved => none

/-- An LFO selector suffix; SEL 3 has none. -/
def lfoSuffix : Sel → Option String
  | .s0 => some ".vib"
  | .s1 => some ".trem"
  | .s2 => some ".panb"
  | .reserved => none

/-- Operands after a mnemonic, separated by commas. -/
def asmLine (mnemonic : String) (operands : List String) : String :=
  match operands with
  | [] => mnemonic
  | _ => mnemonic ++ " " ++ String.intercalate ", " operands

/-- The raw-word form, for encodings the other forms cannot express. -/
def asmRaw (ws : List Word) : String := asmLine ".word" (ws.map asmWord)

/-- A command of one voice. -/
def asmVoiced (mnemonic : String) (v : VoiceIx) (operands : List String) : String :=
  asmLine mnemonic (asmVoice v :: operands)

/-- A command with a lane or selector suffix, or its raw words where the field has no suffix. -/
def asmSuffixed (i : Instr) (mnemonic : String) (v : VoiceIx) (suffix : Option String) (operands : List String) :
    String :=
  match suffix with
  | some x => asmLine mnemonic ((asmVoice v ++ x) :: operands)
  | none => asmRaw (encode i)

/-- REG.RD and REG.WR name the voice for a per-voice index only. -/
def asmReg (mnemonic : String) (v : VoiceIx) (idx : BitVec 12) (operands : List String) : String :=
  if idx.toNat < 0x100 then asmLine mnemonic (toString idx.toNat :: operands)
  else asmVoiced mnemonic v (toString idx.toNat :: operands)

/-- The source operand of RS.DUP: a lane for one lane, a voice for both. -/
def asmDupSource (lane : LaneSel) (srcVoice : VoiceIx) (srcLane : Side) : String :=
  match lane with
  | .left | .right => asmVoice srcVoice ++ sideSuffix srcLane
  | .both | .reserved => asmVoice srcVoice

/-- The assembler line of a command (R113). -/
def asmText (i : Instr) : String :=
  match i with
  | .nop => asmLine "nop" []
  | .mulsc a b => asmLine "mulsc" [asmWord a, asmWord b]
  | .mulscv a b => asmLine "mulscv" [asmWord a, asmWord b]
  | .mulsca x c => asmLine "mulsca" [asmWord x, asmWord c]
  | .mulsc16 a b => asmLine "mulsc16" [asmWord a, asmWord b]
  | .lerp a b f => asmLine "lerp" [asmWord a, asmWord b, asmWord f]
  | .aclr => asmLine "aclr" []
  | .aadd x => asmLine "aadd" [asmWord x]
  | .amac x c => asmLine "amac" [asmWord x, asmWord c]
  | .ard => asmLine "ard" []
  | .rsInit v lane => asmSuffixed i "rs.init" v (laneSuffix lane) []
  | .rsClear v lane => asmSuffixed i "rs.clear" v (laneSuffix lane) []
  | .rsSetq v lane level => asmSuffixed i "rs.setq" v (laneSuffix lane) [toString level.toInt]
  | .rsSetrate v lane lo hi =>
    asmSuffixed i "rs.setrate" v (laneSuffix lane) [toString (hi.toNat * 2 ^ 32 + lo.toNat)]
  | .rsWrite v lane sample => asmSuffixed i "rs.write" v (laneSuffix lane) [toString sample.toInt]
  | .rsWritef v lane depth value =>
    asmSuffixed i "rs.writef" v (laneSuffix lane) [asmWord value, toString depth.toNat]
  | .rsFree v lane => asmSuffixed i "rs.free" v (laneSuffix lane) []
  | .rsReady v lane => asmSuffixed i "rs.ready" v (laneSuffix lane) []
  | .rsCount v lane => asmSuffixed i "rs.count" v (laneSuffix lane) []
  | .rsGet v lane => asmSuffixed i "rs.get" v (laneSuffix lane) []
  | .rsGetf v lane => asmSuffixed i "rs.getf" v (laneSuffix lane) []
  | .rsRemove v lane decay => asmSuffixed i "rs.remove" v (laneSuffix lane) [asmFlag decay]
  | .rsDup v lane srcVoice srcLane =>
    asmSuffixed i "rs.dup" v (laneSuffix lane) [asmDupSource lane srcVoice srcLane]
  | .flCoef v cutoff resonance fs =>
    asmVoiced "fl.coef" v [toString cutoff.toNat, toString resonance.toNat, asmWord fs]
  | .flSetc v a b c => asmVoiced "fl.setc" v [asmWord a, asmWord b, asmWord c]
  | .flRun v lane x => asmSuffixed i "fl.run" v (laneSuffix lane) [asmWord x]
  | .flReset v => asmVoiced "fl.reset" v []
  | .flEn v e => asmVoiced "fl.en" v [asmFlag e]
  | .envReset v sel => asmSuffixed i "env.reset" v (envSuffix sel) []
  | .envTick v sel => asmSuffixed i "env.tick" v (envSuffix sel) []
  | .envRead v sel => asmSuffixed i "env.read" v (envSuffix sel) []
  | .envRelease v k => asmVoiced "env.release" v [asmFlag k]
  | .fadeStart v => asmVoiced "fade.start" v []
  | .fadeTick v => asmVoiced "fade.tick" v []
  | .lfoReset v sel => asmSuffixed i "lfo.reset" v (lfoSuffix sel) []
  | .lfoTick v sel => asmSuffixed i "lfo.tick" v (lfoSuffix sel) []
  | .dckSettgt v l r => asmVoiced "dck.settgt" v [asmWord l, asmWord r]
  | .dckStep v xl xr => asmVoiced "dck.step" v [asmWord xl, asmWord xr]
  | .dckCut v => asmVoiced "dck.cut" v []
  | .dckRetrig v => asmVoiced "dck.retrig" v []
  | .dckHk v => asmVoiced "dck.hk" v []
  | .regRd v idx => asmReg "reg.rd" v idx []
  | .regWr v idx w => asmReg "reg.wr" v idx [asmWord w]
  | .vcReset v => asmVoiced "vc.reset" v []

/-! ## Pseudo-instructions (R114) -/

/-- The pseudo-instructions; `lfo` and `env` are the legal selectors 0, 1 and 2. -/
inductive Pseudo where
  | status
  | clrstatus
  | rsSetrate1 (v : VoiceIx) (lane : LaneSel)
  | rsPop (v : VoiceIx) (lane : LaneSel)
  | flBypass (v : VoiceIx)
  | envKeyoff (v : VoiceIx)
  | envKeyon (v : VoiceIx)
  | lfoSet (v : VoiceIx) (lfo : Fin 3) (shape speed depth : Word)
  | envNode (v : VoiceIx) (env : Fin 3) (i : Fin 25) (t y : Word)
  deriving DecidableEq, Repr

/-- The commands a pseudo-instruction expands to (R114). -/
def Pseudo.expand : Pseudo → List Instr
  | .status => [.regRd 0#6 0x000#12]
  | .clrstatus => [.regWr 0#6 0x000#12 0x3F#32]
  | .rsSetrate1 v lane => [.rsSetrate v lane 0#32 1#32]
  | .rsPop v lane => [.rsGet v lane, .rsRemove v lane true]
  | .flBypass v => [.flEn v false]
  | .envKeyoff v => [.envRelease v true]
  | .envKeyon v => [.envRelease v false]
  | .lfoSet v lfo shape speed depth =>
    [.regWr v (BitVec.ofNat 12 (0x600 + 8 * lfo.val)) shape,
     .regWr v (BitVec.ofNat 12 (0x602 + 8 * lfo.val)) speed,
     .regWr v (BitVec.ofNat 12 (0x603 + 8 * lfo.val)) depth]
  | .envNode v env i t y =>
    [.regWr v (BitVec.ofNat 12 (0x420 + 0x80 * env.val + i.val)) t,
     .regWr v (BitVec.ofNat 12 (0x440 + 0x80 * env.val + i.val)) y]

end Sys2Proof.Machine
end

