-- ==== Sys2Proof/Machine/HostPort.lean ====
section
/-! DEFINITION. What the host does to the block: it pushes command words and pops response words (00_scope.md R3;
20_memory.md R80, R83). These are the host's actions, not steps of the block. -/

namespace Sys2Proof.Machine

open Sys2Proof

/-- The host pushes words at the end of the command stream. -/
def State.pushWords (s : State) (ws : List Word) : State := s.setInput (s.input ++ ws)

/-- The host takes the oldest response word, if there is one. -/
def State.popResponse (s : State) : Option (Word × State) :=
  match s.responses with
  | [] => none
  | w :: ws => some (w, { s with responses := ws })

/-- A word from the four bytes of a transport, in its byte order (20_memory.md R83). -/
def wordOfBytes (order : ByteOrder) (b0 b1 b2 b3 : BitVec 8) : Word :=
  match order with
  | .little => b3 ++ b2 ++ b1 ++ b0
  | .big => b0 ++ b1 ++ b2 ++ b3

/-- The four bytes of a word in a transport's order. -/
def bytesOfWord (order : ByteOrder) (w : Word) : List (BitVec 8) :=
  let little := [w.extractLsb' 0 8, w.extractLsb' 8 8, w.extractLsb' 16 8, w.extractLsb' 24 8]
  match order with
  | .little => little
  | .big => little.reverse

/-- The words of a transport's bytes, four bytes each, and the bytes of a last, unfinished word. -/
def wordsOfBytes (order : ByteOrder) : List (BitVec 8) → List Word × List (BitVec 8)
  | b0 :: b1 :: b2 :: b3 :: rest =>
    let r := wordsOfBytes order rest
    (wordOfBytes order b0 b1 b2 b3 :: r.1, r.2)
  | rest => ([], rest)

/-- The host pushes bytes through a transport of the parameter's byte order; an unfinished word stays with the
transport. -/
def State.pushBytes (s : State) (bytes : List (BitVec 8)) : State × List (BitVec 8) :=
  let r := wordsOfBytes s.params.byteOrder bytes
  (s.pushWords r.1, r.2)

end Sys2Proof.Machine
end

