-- ==== Sys2Proof/Tests/Slice0.lean ====
section
/-! SUPPORT. Tests. Expected values come from spec/: the encoding tables of 30_encoding.md and the worked vectors of
95_test_vectors.md (its Part is named), except where a comment says that a value was worked out by hand from a rule. Then,
for every obligation with hypotheses, states and operands that meet them (`witness_<obligation>`). -/

namespace Sys2Proof.Tests

open Sys2Proof Sys2Proof.Machine

set_option Elab.async false

/-! ## Helpers -/

/-- The reset state with voice 0 changed. -/
def v0 (f : Voice → Voice) : State := State.reset.setVoice 0#6 (f (Voice.reset 1024#32))

/-- The reset state with lane L of voice 0 changed. -/
def lane0 (f : Lane → Lane) : State := v0 fun c => { c with lanes := c.lanes.set .left (f (c.lanes.get .left)) }

/-- A lane after RS.SETQ, RS.SETRATE and RS.WRITE of each sample in turn. -/
def lane (q : Quality) (ratio : Nat) (xs : List Int) (l : Lane) : Lane :=
  xs.foldl (fun l x => l.writeIn (fOfInt x)) ((l.setQuality q).setRate ratio)

/-- Response words and STATUS after a command. -/
def answer (o : Out) : Option (List Word × BitVec 6) :=
  match o with
  | .next t => some (t.responses, t.status)
  | .fault _ => none
  | .refused _ => none

/-- What REG.RD would read of a voice after a command. -/
def regAfter (o : Out) (v : VoiceIx) (idx : Nat) : Option Word :=
  match o with
  | .next t => (t.voice? v).bind fun c => (voiceReg idx).map (readVoice c)
  | .fault _ => none
  | .refused _ => none

/-- A number of the response words as signed integers. -/
def signed (o : Out) : List Int :=
  match o with
  | .next t => t.responses.map BitVec.toInt
  | .fault _ => []
  | .refused _ => []

/-! ## WellFormed refuses each ill-formed term -/

theorem test_wellFormed_refuses_voice_of_global_read : (Instr.regRd 1#6 0x0FF#12).wellFormed = false := by decide
theorem test_wellFormed_refuses_voice_of_global_write : (Instr.regWr 7#6 0x001#12 0#32).wellFormed = false := by decide
theorem test_wellFormed_refuses_unused_source_lane : (Instr.rsDup 1#6 .both 0#6 .right).wellFormed = false := by decide
theorem test_wellFormed_refuses_source_of_reserved_lane : (Instr.rsDup 1#6 .reserved 0#6 .right).wellFormed = false := by
  decide
theorem test_wellFormed_accepts_neighbours :
    (Instr.regRd 1#6 0x100#12).wellFormed = true ∧ (Instr.regRd 0#6 0x0FF#12).wellFormed = true ∧
      (Instr.rsDup 1#6 .right 0#6 .right).wellFormed = true := by decide

/-! ## Decoding: every constructor, from words written out from 30_encoding.md R101, R104, R107 (95_test_vectors.md
Parts 2, 10 and 11 list many of them) -/

theorem test_decode_control_and_mac :
    decode [0x00000000#32] = .command .nop [] ∧
    decode [0x03FFFFFF#32] = .command .nop [] ∧
    decode [0x04000000#32, 5#32, 6#32] = .command (.mulsc 5#32 6#32) [] ∧
    decode [0x08000000#32, 5#32, 6#32] = .command (.mulscv 5#32 6#32) [] ∧
    decode [0x0C000000#32, 5#32, 6#32] = .command (.mulsca 5#32 6#32) [] ∧
    decode [0x10000000#32, 5#32, 6#32] = .command (.mulsc16 5#32 6#32) [] ∧
    decode [0x14000000#32, 100#32, 200#32, 0x4000#32] = .command (.lerp 100#32 200#32 0x4000#32) [] ∧
    decode [0x18000000#32] = .command .aclr [] ∧
    decode [0x1C000000#32, 0x7FFFFFFF#32] = .command (.aadd 0x7FFFFFFF#32) [] ∧
    decode [0x20000000#32, 0x3E8#32, 0x08000000#32] = .command (.amac 1000#32 0x08000000#32) [] ∧
    decode [0x24000000#32] = .command .ard [] := by decide

theorem test_decode_resampler :
    decode [0x40180000#32] = .command (.rsInit 1#6 .both) [] ∧
    decode [0x44040000#32] = .command (.rsClear 0#6 .right) [] ∧
    decode [0x48000004#32] = .command (.rsSetq 0#6 .left 4#16) [] ∧
    decode [0x4C280000#32, 0x80000000#32, 0x00000001#32] = .command (.rsSetrate 2#6 .both 0x80000000#32 1#32) [] ∧
    decode [0x5000FED4#32] = .command (.rsWrite 0#6 .left (BitVec.ofInt 16 (-300))) [] ∧
    decode [0x54000018#32, 0x00400000#32] = .command (.rsWritef 0#6 .left 24#6 0x00400000#32) [] ∧
    decode [0x58000000#32] = .command (.rsFree 0#6 .left) [] ∧
    decode [0x5FF40000#32] = .command (.rsReady 63#6 .right) [] ∧
    decode [0x60140000#32] = .command (.rsCount 1#6 .right) [] ∧
    decode [0x64100000#32] = .command (.rsGet 1#6 .left) [] ∧
    decode [0x640C0000#32] = .command (.rsGet 0#6 .reserved) [] ∧
    decode [0x68300000#32] = .command (.rsGetf 3#6 .left) [] ∧
    decode [0x6C180001#32] = .command (.rsRemove 1#6 .both true) [] ∧
    decode [0x70300000#32] = .command (.rsDup 3#6 .left 0#6 .left) [] ∧
    decode [0x70000109#32] = .command (.rsDup 0#6 .left 9#6 .right) [] := by decide

theorem test_decode_filter :
    decode [0x80104000#32, 64#32, 44100#32] = .command (.flCoef 1#6 16384#16 64#8 44100#32) [] ∧
    decode [0x84100000#32, 0x08000000#32, 0x08000000#32, 0#32] =
      .command (.flSetc 1#6 0x08000000#32 0x08000000#32 0#32) [] ∧
    decode [0x88100000#32, 0x3E8#32] = .command (.flRun 1#6 .left 1000#32) [] ∧
    decode [0x88080000#32, 5#32] = .command (.flRun 0#6 .both 5#32) [] ∧
    decode [0x8C100000#32] = .command (.flReset 1#6) [] ∧
    decode [0x90100001#32] = .command (.flEn 1#6 true) [] := by decide

theorem test_decode_envelope_fade_lfo :
    decode [0xA0200000#32] = .command (.envReset 2#6 .s0) [] ∧
    decode [0xA4200000#32] = .command (.envTick 2#6 .s0) [] ∧
    decode [0xA4030000#32] = .command (.envTick 0#6 .reserved) [] ∧
    decode [0xA8010000#32] = .command (.envRead 0#6 .s1) [] ∧
    decode [0xAC100001#32] = .command (.envRelease 1#6 true) [] ∧
    decode [0xB0200000#32] = .command (.fadeStart 2#6) [] ∧
    decode [0xB4200000#32] = .command (.fadeTick 2#6) [] ∧
    decode [0xB8020000#32] = .command (.lfoReset 0#6 .s2) [] ∧
    decode [0xBC310000#32] = .command (.lfoTick 3#6 .s1) [] := by decide

theorem test_decode_declick_registers_reset :
    decode [0xC0100000#32, 0x10000#32, 0x8000#32] = .command (.dckSettgt 1#6 0x10000#32 0x8000#32) [] ∧
    decode [0xC4100000#32, 0x1F4#32, 0x3E8#32] = .command (.dckStep 1#6 500#32 1000#32) [] ∧
    decode [0xC8300000#32] = .command (.dckCut 3#6) [] ∧
    decode [0xCC300000#32] = .command (.dckRetrig 3#6) [] ∧
    decode [0xD0200000#32] = .command (.dckHk 2#6) [] ∧
    decode [0xE0100700#32] = .command (.regRd 1#6 0x700#12) [] ∧
    decode [0xE0700001#32] = .command (.regRd 0#6 0x001#12) [] ∧
    decode [0xE4000004#32, 0x8000#32] = .command (.regWr 0#6 0x004#12 0x8000#32) [] ∧
    decode [0xE4200582#32, 512#32] = .command (.regWr 2#6 0x582#12 512#32) [] ∧
    decode [0xE8200000#32] = .command (.vcReset 2#6) [] := by decide

theorem test_decode_reserved_and_incomplete :
    decode [0x2C000000#32] = .reserved 0x0B#6 [] ∧
    decode [0x28000000#32, 0x04012345#32, 5#32, 6#32] = .reserved 0x0A#6 [0x04012345#32, 5#32, 6#32] ∧
    decode [0x04012345#32, 5#32, 6#32] = .command (.mulsc 5#32 6#32) [] ∧
    decode [0x04012345#32, 5#32] = .incomplete ∧ decode [] = .incomplete := by decide

/-! ## The assembler and the host's port -/

theorem test_assembler_text :
    asmText (.rsWrite 0#6 .left (BitVec.ofInt 16 (-300))) = "rs.write v0.l, -300" ∧
      asmText (.rsDup 3#6 .left 0#6 .left) = "rs.dup v3.l, v0.l" ∧ asmText (.regRd 0#6 0x004#12) = "reg.rd 4" := by
  decide +kernel

theorem test_pop_expands : (Pseudo.rsPop 1#6 .left).expand = [.rsGet 1#6 .left, .rsRemove 1#6 .left true] := by decide

theorem test_transport_bytes :
    wordsOfBytes .little [0xD4#8, 0xFE#8, 0x00#8, 0x50#8, 0x01#8] = ([0x5000FED4#32], [0x01#8]) ∧
      wordsOfBytes .big (bytesOfWord .big 0x5000FED4#32) = ([0x5000FED4#32], []) := by decide

/-! ## A step and the host's fetch word -/

theorem test_step_runs_fetch_word :
    answer (step (State.reset.withFetchWord 96 (0x04000000 + 1000 * 2 ^ 32 + 0x8000 * 2 ^ 64))) = some ([500#32], 0#6) := by
  decide +kernel
theorem test_step_waits : step State.reset = .fault .waiting := rfl
/-- Part 2: the reserved OPC 0x0B sets ERR_OPC and consumes one word. -/
theorem test_step_reserved : answer (step { State.reset with input := [0x2C000000#32] }) = some ([], 1#6) := by
  decide +kernel

/-! ## Control and MAC (Parts 3 and 10) -/

theorem test_nop : answer (exec .nop State.reset) = some ([], 0#6) := by decide +kernel

theorem test_mulsc :
    signed (exec (.mulsc (BitVec.ofInt 32 (-3)) 0x8000#32) State.reset) = [-2] ∧
      answer (exec (.mulsc 0x08000000#32 0x00010000#32) State.reset) = some ([0xF8000000#32], 0#6) := by decide +kernel

theorem test_mulscv :
    answer (exec (.mulscv 0x80000000#32 0x80000000#32) State.reset) = some ([0x40000000#32], 0#6) ∧
      signed (exec (.mulscv 0xFFFFFFFF#32 1#32) State.reset) = [-1] := by decide +kernel

theorem test_mulsca :
    signed (exec (.mulsca 0xFFFFFFFF#32 0x08000000#32) State.reset) = [-1] ∧
      signed (exec (.mulsca 1000#32 0xF0000000#32) State.reset) = [-1000] := by decide +kernel

theorem test_mulsc16 :
    answer (exec (.mulsc16 0x80000#32 1#32) State.reset) = some ([0xFFFFF800#32], 0#6) ∧
      signed (exec (.mulsc16 0x1000#32 0x1000#32) State.reset) = [0x10000] := by decide +kernel

theorem test_lerp :
    signed (exec (.lerp (BitVec.ofInt 32 (-100)) 100#32 0x4000#32) State.reset) = [-50] ∧
      signed (exec (.lerp 0#32 0x7FFFFFFF#32 0x8000#32) State.reset) = [-1] := by decide +kernel

theorem test_aclr : regAfter (exec .aclr State.reset) 0#6 0x581 = some 1024#32 ∧
    (match exec .aclr { State.reset with acc := 7#32 } with | .next t => t.acc | _ => 9#32) = 0#32 := by decide +kernel

theorem test_aadd_wraps :
    (match exec (.aadd 1#32) { State.reset with acc := 0x7FFFFFFF#32 } with | .next t => t.acc | _ => 9#32) =
      0x80000000#32 := by decide +kernel

theorem test_amac_adds :
    (match exec (.amac (BitVec.ofInt 32 (-2000)) 0x04000000#32) { State.reset with acc := 500#32 } with
      | .next t => t.acc | _ => 9#32) = 0#32 := by decide +kernel

theorem test_ard : answer (exec .ard { State.reset with acc := 300#32 }) = some ([300#32], 0#6) := by decide +kernel

/-- Part 10, the register reads and the corner cases of errors. -/
theorem test_regRd :
    answer (exec (.regRd 7#6 0x001#12) State.reset) = some ([0x00220007#32], 0#6) ∧
    answer (exec (.regRd 0#6 0x002#12) State.reset) = some ([4#32], 0#6) ∧
    answer (exec (.regRd 0#6 0x005#12) State.reset) = some ([0x05191040#32], 0#6) ∧
    answer (exec (.regRd 0#6 0x100#12) State.reset) = some ([5#32], 0#6) ∧
    answer (exec (.regRd 5#6 0x100#12) State.reset) = some ([], 2#6) ∧
    answer (exec (.regRd 0#6 0x419#12) State.reset) = some ([], 0x10#6) ∧
    answer (exec (.regRd 0#6 0x459#12) State.reset) = some ([], 0x10#6) ∧
    answer (exec (.regRd 0#6 0x800#12) State.reset) = some ([], 0x10#6) := by decide +kernel

/-- Parts 6.5 and 10. -/
theorem test_regWr :
    regAfter (exec (.regWr 0#6 0x401#12 30#32) State.reset) 0#6 0x401 = some 25#32 ∧
    regAfter (exec (.regWr 0#6 0x402#12 0xFFFFFFFF#32) State.reset) 0#6 0x402 = some 24#32 ∧
    regAfter (exec (.regWr 0#6 0x420#12 0x12345#32) State.reset) 0#6 0x420 = some 0x2345#32 ∧
    regAfter (exec (.regWr 0#6 0x440#12 0x80#32) State.reset) 0#6 0x440 = some 0xFFFFFF80#32 ∧
    regAfter (exec (.regWr 0#6 0x580#12 2#32) State.reset) 0#6 0x580 = some 0#32 ∧
    regAfter (exec (.regWr 0#6 0x600#12 7#32) State.reset) 0#6 0x600 = some 3#32 ∧
    answer (exec (.regWr 0#6 0x700#12 1#32) State.reset) = some ([], 0x20#6) ∧
    answer (exec (.regWr 0#6 0x000#12 0x21#32) { State.reset with status := 0x3F#6 }) = some ([], 0x1E#6) := by
  decide +kernel

theorem test_ramp_delta_clamps :
    (match exec (.regWr 0#6 0x004#12 0xFFFFFFFF#32) State.reset with | .next t => t.rampDelta | _ => 9#32) = 1#32 ∧
    (match exec (.regWr 0#6 0x004#12 0x80000#32) State.reset with | .next t => t.rampDelta | _ => 9#32) = 0x7FFFF#32 := by
  decide +kernel

theorem test_vcReset :
    regAfter (exec (.vcReset 0#6) (v0 fun c => { c with fade := 5#32, declick := { c.declick with stage := .dead } })) 0#6
      0x700 = some 0#32 ∧
    regAfter (exec (.vcReset 0#6) (v0 fun c => { c with fade := 5#32 })) 0#6 0x581 = some 1024#32 := by decide +kernel

/-! ## Tables (Part 4.1) -/

theorem test_sinc_and_window :
    [sincLut 0, sincLut 512, sincLut 1024, sincLut 1536, winLut 8192, winLut 16383, winLut 16384] =
      [0x3F800000#32, 0x3F22F983#32, 0#32, 0xBE594CAF#32, 0x3EA2C908#32, 0x312BA892#32, 0#32] := by decide +kernel

theorem test_cubic_rows :
    (List.range 4).map (cubicLut 256) = [0xBD900000#32, 0x3F5E0000#32, 0x3E680000#32, 0xBCC00000#32] ∧
      (List.range 4).map (cubicLut 1023) = [0xB4FFC000#32, 0x3A007FE8#32, 0x3F7FFFD8#32, 0xB9FF8010#32] := by
  decide +kernel

theorem test_sine_table :
    [0, 1, 2, 3, 64, 127, 128, 192, 255].map sineTab = [0, 2, 3, 5, 64, 2, 0, -64, -2] := by decide +kernel

theorem test_sinc_step :
    [2 ^ 27, 2 ^ 32, 2 ^ 32 + 1, 3 * 2 ^ 31, 2 ^ 33, 2 ^ 37].map (fun r => sincStep Params.candidate (BitVec.ofNat 64 r)) =
      [1022, 1022, 1022, 681, 511, 31] := by decide +kernel

/-- KERNEL(921, 0): S and the three middle taps. -/
theorem test_kernel_921 :
    kernelSum .scalar 0 (kernelTaps 921 0) = 0x3F8E50B0#32 ∧
      [14, 15, 16].map (kernelTap 921 0) = [0x3DDD8538#32, 0x3F800000#32, 0x3DDD8538#32] := by decide +kernel

/-! ## Resampler (Parts 1.1, 4 and 11) -/

theorem test_rsInit :
    regAfter (exec (.rsInit 0#6 .both) (lane0 (lane .zoh (2 ^ 32) [7, 8]))) 0#6 0x101 = some 15#32 ∧
    regAfter (exec (.rsInit 0#6 .both) (lane0 (lane .zoh (2 ^ 32) [7, 8]))) 0#6 0x107 = some 0#32 := by decide +kernel

theorem test_rsClear_keeps_rate :
    regAfter (exec (.rsClear 0#6 .left) (lane0 (lane .zoh (2 ^ 32) [7, 8]))) 0#6 0x102 = some 0#32 ∧
    regAfter (exec (.rsClear 0#6 .left) (lane0 (lane .zoh (2 ^ 32) [7, 8]))) 0#6 0x107 = some 1#32 := by decide +kernel

/-- Part 4.2. -/
theorem test_rsSetq_clamps :
    [0xFFFF#16, 3#16, 6#16, 0x7FFF#16].map (fun q => regAfter (exec (.rsSetq 0#6 .left q) State.reset) 0#6 0x100) =
      [some 0#32, some 3#32, some 5#32, some 5#32] := by decide +kernel

/-- Part 4.2: ratio 1.5, and the clamp at both ends. -/
theorem test_rsSetrate :
    [0x106, 0x107, 0x109, 0x10A].map
        (regAfter (exec (.rsSetrate 0#6 .left 0x80000000#32 1#32) State.reset) 0#6) =
      [some 0x80000000#32, some 1#32, some 0xAAAAAAAA#32, some 0#32] ∧
    [0x106, 0x10A].map (regAfter (exec (.rsSetrate 0#6 .left 1#32 0#32) State.reset) 0#6) =
      [some 0x08000000#32, some 0x20#32] := by decide +kernel

/-- Part 4.3: the first write to a Sinc lane primes 15 history samples, and a full ring drops. -/
theorem test_rsWrite_primes :
    regAfter (exec (.rsWrite 0#6 .left 5#16) State.reset) 0#6 0x102 = some 16#32 := by decide +kernel
theorem test_rsWrite_drops_when_full :
    regAfter (exec (.rsWrite 0#6 .left 5#16) (lane0 (lane .zoh (2 ^ 32) ((List.range 66).map Int.ofNat)))) 0#6 0x102 =
      some 64#32 ∧
    regAfter (exec (.rsWrite 0#6 .left 5#16) (lane0 (lane .zoh (2 ^ 32) ((List.range 66).map Int.ofNat)))) 0#6 0x23F =
      some (fOfInt 48) := by decide +kernel

/-- Part 4.4: IN[15] after one RS.WRITEF. -/
theorem test_rsWritef :
    [(24#6, 0x00400000#32), (16#6, 0xFFFF8000#32), (0#6, 3#32), (40#6, 0x40000000#32), (1#6, 0x01000001#32)].map
        (fun x => regAfter (exec (.rsWritef 0#6 .left x.1 x.2) State.reset) 0#6 0x20F) =
      [some 0x3F000000#32, some 0xBF800000#32, some 0x40400000#32, some 0x3F000000#32, some 0x4B800000#32] := by
  decide +kernel

/-- Part 4.8: input debt makes the free count 94. -/
theorem test_rsFree :
    answer (exec (.rsFree 0#6 .left) (lane0 fun l => (ensureOutput Params.candidate (lane .zoh (2 ^ 37) [10, 20] l) 0).1)) =
      some ([94#32], 0#6) := by decide +kernel

/-- Part 4.3: a Linear lane is ready with three samples. -/
theorem test_rsReady :
    answer (exec (.rsReady 0#6 .left) (lane0 (lane .linear (2 ^ 32) [5, 5]))) = some ([0#32], 0#6) ∧
    answer (exec (.rsReady 0#6 .left) (lane0 (lane .linear (2 ^ 32) [5, 5, 5]))) = some ([1#32], 0#6) := by decide +kernel

/-- Part 1.1: five outputs. -/
theorem test_rsCount_cubic :
    answer (exec (.rsCount 0#6 .left) (lane0 (lane .cubic (3 * 2 ^ 31) [0, 1000, 2000, -1000, 0, 0, 0, 0, 0, 0]))) =
      some ([5#32], 0#6) := by decide +kernel
/-- Part 4.7, BLEP with one sample before the first RS.COUNT: the first leading sample. -/
theorem test_rsGetf_blep_leading :
    answer (exec (.rsGetf 0#6 .left) (lane0 fun l => { lane .blep (2 ^ 32) [1, 2] l with outPrimed := true })) =
      some ([0xB86E46CC#32], 0#6) := by decide +kernel

/-- Program P1: the first output; -2.5 truncates toward zero (Part 4.8). -/
theorem test_rsGet_truncates :
    signed (exec (.rsGet 0#6 .left) (lane0 fun l =>
      ((ensureOutput Params.candidate (lane .linear (2 ^ 31) [0, -5, -10] l) 0).1).remove Params.candidate false)) =
      [-2] := by decide +kernel

/-- Part 1.1, output 2 of the cubic scenario, 1750.0; program P5, the Sinc output 99.951675. -/
theorem test_rsGetf_cubic :
    answer (exec (.rsGetf 0#6 .left) (lane0 fun l =>
      ((ensureOutput Params.candidate
        (lane .cubic (3 * 2 ^ 31) [0, 1000, 2000, -1000, 0, 0, 0, 0, 0, 0] l) 0).1).remove Params.candidate false)) =
      some ([0x44DAC000#32], 0#6) := by decide +kernel
theorem test_rsGetf_sinc :
    answer (exec (.rsGetf 0#6 .left) (lane0 (lane .sinc (2 ^ 32) ((List.range 18).map fun n => 100 * ((n : Int) + 1))))) =
      some ([0x42C7E742#32], 0#6) := by decide +kernel
/-- One BLEP and one BLAM iteration on a step from 0 to 1: the cells 14 and 15 are K[14]/S and 1/S, worked out from the
kernel values of Part 4.1 with one rounding for each operation. -/
theorem test_rsCount_blep_blam_cells :
    [0x24E, 0x24F].map (regAfter (exec (.rsCount 0#6 .left) (lane0 (lane .blep (2 ^ 32) [1, 1]))) 0#6) =
      [some 0x3DC73CF5#32, some 0x3F663FDF#32] ∧
    [0x24E, 0x24F].map (regAfter (exec (.rsCount 0#6 .left) (lane0 (lane .blam (2 ^ 32) [1, 1, 1]))) 0#6) =
      [some 0x3D8C785D#32, some 0x3F6E0025#32] := by decide +kernel

/-- Part 4.8: RS.REMOVE on an empty ring changes nothing; with one output it moves rpos. -/
theorem test_rsRemove :
    regAfter (exec (.rsRemove 0#6 .left true) State.reset) 0#6 0x103 = some 0#32 ∧
    regAfter (exec (.rsRemove 0#6 .left true) (lane0 fun l => { l with q := .zoh, rfill := 1, rpos := 63#6 })) 0#6 0x103 =
      some 0#32 ∧
    regAfter (exec (.rsRemove 0#6 .left true) (lane0 fun l => { l with q := .zoh, rfill := 1, rpos := 63#6 })) 0#6 0x104 =
      some 0#32 := by decide +kernel

/-- Part 4.9. -/
theorem test_rsDup :
    regAfter (exec (.rsDup 3#6 .right 0#6 .left) (lane0 (lane .zoh (2 ^ 32) [10, 20, 30]))) 3#6 0x142 = some 3#32 ∧
    answer (exec (.rsDup 0#6 .left 9#6 .right) State.reset) = some ([], 2#6) ∧
    answer (exec (.rsDup 0#6 .reserved 9#6 .right) State.reset) = some ([], 4#6) := by decide +kernel

/-! ## Filter (Part 5) -/

theorem test_flCoef_identity :
    [0x301, 0x302, 0x303].map (regAfter (exec (.flCoef 0#6 16384#16 64#8 0#32) State.reset) 0#6) =
      [some 0x10000000#32, some 0#32, some 0#32] := by decide +kernel

theorem test_flSetc :
    [0x301, 0x302, 0x303].map (regAfter (exec (.flSetc 0#6 1#32 2#32 3#32) State.reset) 0#6) =
      [some 1#32, some 2#32, some 3#32] := by decide +kernel

/-- The third output of the first sequence, 875, from cur 750 and prev 500. -/
theorem test_flRun :
    answer (exec (.flRun 0#6 .left 1000#32) (v0 fun c => { c with
      filter := ⟨true, 0x08000000#32, 0x08000000#32, 0#32, ⟨750#32, 0#32⟩, ⟨500#32, 0#32⟩⟩ })) = some ([875#32], 0#6) ∧
    [0x304, 0x305, 0x306].map (regAfter (exec (.flRun 0#6 .left 1000#32) (v0 fun c => { c with
      filter := ⟨true, 0x08000000#32, 0x08000000#32, 0#32, ⟨750#32, 0#32⟩, ⟨500#32, 0#32⟩⟩ })) 0#6) =
        [some 875#32, some 750#32, some 0#32] := by decide +kernel
/-- The third output with every coefficient 0x7FFFFFFF, from the first two; and the LANE 2 error. -/
theorem test_flRun_wraps :
    answer (exec (.flRun 0#6 .left 0x07FFFFFF#32) (v0 fun c => { c with
      filter := ⟨true, 0x7FFFFFFF#32, 0x7FFFFFFF#32, 0x7FFFFFFF#32, ⟨0x3FFFFFAF#32, 0#32⟩, ⟨0x3FFFFFF7#32, 0#32⟩⟩ })) =
      some ([0x3FFFFD27#32], 0#6) ∧
    answer (exec (.flRun 0#6 .both 5#32) State.reset) = some ([], 4#6) := by decide +kernel

theorem test_flReset :
    [0x304, 0x305].map (regAfter (exec (.flReset 0#6) (v0 fun c => { c with
      filter := { c.filter with cur := ⟨1#32, 2#32⟩, prev := ⟨3#32, 4#32⟩ } })) 0#6) = [some 0#32, some 0#32] := by
  decide +kernel

theorem test_flEn : regAfter (exec (.flEn 0#6 true) State.reset) 0#6 0x300 = some 1#32 := by decide +kernel

/-! ## Envelope, fade (Parts 6 and 7) -/

/-- Part 6.1: flags, nodes (0, 64), (10, 32), (20, 0). -/
def slope (flags : BitVec 3) (tick : Nat) (next : Fin 26) (e : Envelope) : Envelope :=
  { e with
    flags := flags, n := 3, tick := BitVec.ofNat 32 tick, next := next
    t := (e.t.set 1 10#16).set 2 20#16
    y := (e.y.set 0 64#8).set 1 32#8 }

/-- The reset state with the volume envelope of voice 0 at a tick of that descriptor. -/
def slopeState (flags : BitVec 3) (tick : Nat) (next : Fin 26) : State :=
  v0 fun c => { c with envs := { c.envs with volume := slope flags tick next c.envs.volume } }

theorem test_envReset :
    [0x406, 0x407, 0x408].map (regAfter (exec (.envReset 0#6 .s0) (slopeState 1#3 7 1)) 0#6) =
      [some 0#32, some 0#32, some 16384#32] := by decide +kernel

/-- The second value, and the end on call 21, which starts FADING. -/
theorem test_envTick :
    signed (exec (.envTick 0#6 .s0) (slopeState 1#3 1 1)) = [15565, 0] ∧
      signed (exec (.envTick 0#6 .s0) (slopeState 1#3 20 2)) = [0, 1] ∧
      regAfter (exec (.envTick 0#6 .s0) (slopeState 1#3 20 2)) 0#6 0x583 = some 1#32 := by decide +kernel
/-- An envelope that is off repeats VALUE and does not end (Part 6.5); SEL 3 is an error. -/
theorem test_envTick_off :
    signed (exec (.envTick 0#6 .s0) (slopeState 0#3 20 2)) = [0, 0] ∧
      regAfter (exec (.envTick 0#6 .s0) (slopeState 0#3 20 2)) 0#6 0x406 = some 20#32 ∧
      answer (exec (.envTick 0#6 .reserved) State.reset) = some ([], 8#6) := by decide +kernel

theorem test_envRead :
    signed (exec (.envRead 0#6 .s2) (v0 fun c => { c with
      envs := { c.envs with pitch := { c.envs.pitch with value := 2560#32 } } })) = [2560] := by decide +kernel

theorem test_envRelease : regAfter (exec (.envRelease 0#6 true) State.reset) 0#6 0x580 = some 1#32 := by decide +kernel

theorem test_fadeStart : regAfter (exec (.fadeStart 0#6) State.reset) 0#6 0x583 = some 1#32 := by decide +kernel

/-- The first and the fourth FADE.TICK of Part 7. -/
theorem test_fadeTick :
    answer (exec (.fadeTick 0#6) (v0 fun c => { c with fading := true, fadeRate := 300#32 })) = some ([724#32], 0#6) ∧
    answer (exec (.fadeTick 0#6) (v0 fun c => { c with fading := true, fade := 124#32, fadeRate := 300#32 })) =
      some ([0#32], 0#6) ∧
    regAfter (exec (.fadeTick 0#6) (v0 fun c => { c with
      fading := true, fade := 124#32, fadeRate := 300#32, declick := { c.declick with stage := .rampingIn } })) 0#6 0x700 =
      some 3#32 := by decide +kernel

/-! ## LFO (Part 8) -/

theorem test_lfoReset :
    regAfter (exec (.lfoReset 0#6 .s1) (v0 fun c => { c with
      lfos := { c.lfos with tremolo := ⟨.sine, 200#8, 0#8, 0#8⟩ } })) 0#6 0x609 = some 0#32 := by decide +kernel

/-- The eight values of each shape, SPEED 32 and DEPTH 2. -/
theorem test_lfoTick_shapes :
    [Shape.sine, .square, .sawtooth, .triangle].map (fun sh => [0, 32, 64, 96, 128, 160, 192, 224].map fun p =>
      signed (exec (.lfoTick 0#6 .s0) (v0 fun c => { c with
        lfos := { c.lfos with vibrato := ⟨sh, BitVec.ofNat 8 p, 32#8, 2#8⟩ } }))) =
      [[[0], [90], [128], [90], [0], [-90], [-128], [-90]],
       [[128], [128], [128], [128], [-128], [-128], [-128], [-128]],
       [[128], [96], [64], [32], [0], [-32], [-64], [-96]],
       [[0], [64], [128], [64], [0], [-64], [-128], [-64]]] := by decide +kernel
theorem test_lfoTick_wraps :
    signed (exec (.lfoTick 0#6 .s2) (v0 fun c => { c with
      lfos := { c.lfos with panbrello := ⟨.sawtooth, 255#8, 1#8, 255#8⟩ } })) = [-16065] ∧
    regAfter (exec (.lfoTick 0#6 .s2) (v0 fun c => { c with
      lfos := { c.lfos with panbrello := ⟨.sawtooth, 255#8, 1#8, 255#8⟩ } })) 0#6 0x611 = some 0#32 := by decide +kernel

/-! ## Declick (Part 9) -/

/-- The reset state with the declick unit of voice 0 at a stage, volumes and the targets (4096, 2048) of 9.1. -/
def dck (st : Stage) (l r : BitVec 19) : State :=
  v0 fun c => { c with declick := ⟨st, ⟨l, r⟩, ⟨4096#19, 2048#19⟩⟩ }

theorem test_dckSettgt :
    [0x703, 0x704].map (regAfter (exec (.dckSettgt 0#6 0x10000#32 (BitVec.ofInt 32 (-5))) State.reset) 0#6) =
      [some 0x10000#32, some 0#32] ∧
    regAfter (exec (.dckSettgt 0#6 0x80000#32 0#32) State.reset) 0#6 0x703 = some 0x7FFFF#32 := by decide +kernel

/-- Steps 1, 2, 5, 8 and 9 of 9.1: the words emitted. -/
theorem test_dckStep_emits :
    [dck .silent 0#19 0#19, dck .rampingIn 0#19 0#19, dck .rampingIn 3072#19 2048#19, dck .cutRequested 2048#19 0#19,
        dck .cutRequested 1024#19 0#19].map (fun s => signed (exec (.dckStep 0#6 1000#32 (BitVec.ofInt 32 (-1000))) s)) =
      [[0, 0], [15, -16], [62, -32], [15, 0], [0, 0]] := by decide +kernel
/-- The stages after the same steps. -/
theorem test_dckStep_stages :
    [dck .silent 0#19 0#19, dck .rampingIn 0#19 0#19, dck .rampingIn 3072#19 2048#19, dck .cutRequested 2048#19 0#19,
        dck .cutRequested 1024#19 0#19].map
        (fun s => regAfter (exec (.dckStep 0#6 1000#32 (BitVec.ofInt 32 (-1000))) s) 0#6 0x700) =
      [some 1#32, some 1#32, some 2#32, some 3#32, some 4#32] := by decide +kernel

theorem test_dckCut :
    regAfter (exec (.dckCut 0#6) (dck .steady 0#19 0#19)) 0#6 0x700 = some 3#32 ∧
      regAfter (exec (.dckCut 0#6) (dck .dead 0#19 0#19)) 0#6 0x700 = some 5#32 := by decide +kernel

theorem test_dckRetrig :
    [0x700, 0x701].map (regAfter (exec (.dckRetrig 0#6) (dck .cutRequested 2048#19 0#19)) 0#6) =
      [some 1#32, some 2048#32] := by decide +kernel

theorem test_dckHk :
    answer (exec (.dckHk 0#6) (dck .rampedOut 0#19 0#19)) = some ([5#32], 0#6) ∧
      answer (exec (.dckHk 0#6) (dck .steady 0#19 0#19)) = some ([2#32], 0#6) := by decide +kernel

/-! ## Witnesses: states and operands that meet the hypotheses of each obligation, at the boundaries of its clauses -/

/-- The voice of the reset state, which the statements about a voice take. -/
theorem witness_voice :
    State.reset.voice? 0#6 = some (Voice.reset 1024#32) ∧ State.reset.voice? 3#6 = some (Voice.reset 1024#32) ∧
      State.reset.voice? 4#6 = none ∧ (0#6).toNat < State.reset.nv ∧ (3#6).toNat < State.reset.nv := by
  refine ⟨rfl, rfl, rfl, ?_, ?_⟩ <;> decide +kernel

theorem witness_DecodeInvertsEncode :
    (Instr.regWr 63#6 0xFFF#12 7#32).wellFormed = true ∧ (Instr.regRd 0#6 0x0FF#12).wellFormed = true ∧
      (Instr.rsDup 1#6 .right 63#6 .right).wellFormed = true ∧ (Instr.rsDup 1#6 .both 63#6 .left).wellFormed = true := by
  decide

theorem witness_DecodedCommandLength :
    decode [0x04000000#32, 1#32, 2#32, 3#32] = .command (.mulsc 1#32 2#32) [3#32] := by decide

/-- Every end of the reserved OPC ranges, and the defined OPC next to it. -/
theorem witness_ReservedOpcodeRaisesErrOpc :
    ({ State.reset with input := [0x28000000#32, 5#32] } : State).input = 0x28000000#32 :: [5#32] ∧
    [0x0A, 0x0F, 0x1D, 0x1F, 0x25, 0x27, 0x35, 0x37, 0x3B, 0x3F].all reservedOpcode = true ∧
    [0x00, 0x09, 0x10, 0x1C, 0x20, 0x24, 0x28, 0x34, 0x38, 0x3A].all (fun o => !reservedOpcode o) = true := by
  refine ⟨rfl, ?_, ?_⟩ <;> decide

theorem witness_UnusedFieldsIgnored :
    0x03FFFFFF#32 &&& usedBits 0x03FFFFFF#32 = 0#32 &&& usedBits 0x03FFFFFF#32 ∧
    0xE07F00FF#32 &&& usedBits 0xE07F00FF#32 = 0xE00000FF#32 &&& usedBits 0xE07F00FF#32 ∧
    0x70080100#32 &&& usedBits 0x70080100#32 = 0x70080000#32 &&& usedBits 0x70080100#32 ∧
    (Instr.envTick 2#6 .s0).wellFormed = true ∧ encode (.envTick 2#6 .s0) = 0xA4200000#32 :: [] ∧
    (0x80001000#32).toNat / 2 ^ 26 = 0x20 ∧ (0xFFFFFF40#32).toNat % 2 ^ 8 = (0x40#32).toNat % 2 ^ 8 := by decide

theorem witness_StepRunsDecodedCommand :
    decode ({ State.reset with input := [0x1C000000#32, 9#32, 1#32] } : State).input = .command (.aadd 9#32) [1#32] ∧
      (Instr.aadd 9#32).wellFormed = true ∧
      ({ State.reset with input := [0x1C000000#32, 9#32, 1#32] } : State).input = encode (.aadd 9#32) ++ [1#32] := by
  decide +kernel

/-- One word short, and complete. -/
theorem witness_StepWaitsOrAdvances :
    step { State.reset with input := [0x20000000#32, 1#32] } = .fault .waiting ∧
      answer (step { State.reset with input := [0x20000000#32, 1#32, 2#32] }) = some ([], 0#6) :=
  ⟨rfl, by decide +kernel⟩

theorem witness_StepKeepsLegalState :
    ({ State.reset with input := [0x64000000#32] } : State).wf ∧
      answer (step { State.reset with input := [0x64000000#32] }) = some ([0#32], 0#6) := by decide +kernel

/-- Each cause of R345 in its order, NV = 4. -/
theorem witness_FirstErrorChangesStatusOnly :
    firstError (.rsGet 4#6 .both) 4 = some .voice ∧ firstError (.rsGet 3#6 .both) 4 = some .lane ∧
    firstError (.rsInit 0#6 .reserved) 4 = some .lane ∧ firstError (.flRun 0#6 .reserved 1#32) 4 = some .lane ∧
    firstError (.lfoTick 0#6 .reserved) 4 = some .sel ∧ firstError (.rsDup 0#6 .reserved 9#6 .left) 4 = some .lane ∧
    firstError (.rsDup 0#6 .both 4#6 .left) 4 = some .voice ∧ firstError (.regRd 63#6 0x0FF#12) 4 = some .reg ∧
    firstError (.regRd 4#6 0x100#12) 4 = some .voice ∧ firstError (.regWr 0#6 0x705#12 1#32) 4 = some .reg ∧
    firstError (.regWr 0#6 0x702#12 1#32) 4 = some .ro ∧
    ({ State.reset with input := [0xFC000000#32] } : State).input = 0xFC000000#32 :: [] ∧
    reservedOpcode ((0xFC000000#32).toNat / 2 ^ 26) = true := by decide +kernel

/-- One command of each family, at a boundary of its checks, NV = 4. -/
theorem witness_LegalCommandCompletes :
    firstError .nop 4 = none ∧ firstError (.lerp 1#32 2#32 3#32) 4 = none ∧ firstError (.rsInit 3#6 .both) 4 = none ∧
    firstError (.rsGetf 3#6 .right) 4 = none ∧ firstError (.rsDup 3#6 .both 3#6 .left) 4 = none ∧
    firstError (.flRun 3#6 .right 1#32) 4 = none ∧ firstError (.envTick 3#6 .s2) 4 = none ∧
    firstError (.fadeTick 3#6) 4 = none ∧ firstError (.lfoTick 0#6 .s2) 4 = none ∧
    firstError (.dckStep 3#6 1#32 2#32) 4 = none ∧ firstError (.regRd 63#6 0x005#12) 4 = none ∧
    firstError (.regWr 3#6 0x704#12 1#32) 4 = none ∧ firstError (.regWr 63#6 0x000#12 1#32) 4 = none ∧
    firstError (.vcReset 3#6) 4 = none := by decide +kernel

theorem witness_OnlyStatusWriteClearsErrors :
    step { State.reset with status := 0x3F#6, input := [0xE4000000#32, 0x20#32] } =
        .next { State.reset with status := 0x1F#6 } ∧
      (0x3F#6).getLsbD 5 = true ∧ (0x1F#6).getLsbD 5 = false ∧
      answer (exec (.vcReset 3#6) { State.reset with status := 0x3F#6 }) = some ([], 0x3F#6) ∧
      (3#6).toNat < State.reset.nv := ⟨rfl, rfl, rfl, by decide +kernel, by decide +kernel⟩

theorem witness_OtherVoicesUnchanged :
    answer (exec (.envRelease 1#6 true) State.reset) = some ([], 0#6) ∧
      (Instr.envRelease 1#6 true).voice? ≠ some 2#6 := by decide +kernel

/-- A summing command under both settings of SUM_ORDER. -/
theorem witness_GlobalStateFrame :
    answer (exec (.rsCount 0#6 .left) (lane0 (lane .cubic (2 ^ 32) [1, 2, 3, 4, 5]))) = some ([2#32], 0#6) ∧
    (lane0 (lane .cubic (2 ^ 32) [1, 2, 3, 4, 5])).params.sumOrder = .scalar ∧
    (State.resetWith 4 { Params.candidate with sumOrder := .reassociated }).params.sumOrder ≠ .scalar := by decide +kernel

/-- The ends of every range, of both signs, with the quotient of one product of each clause. -/
theorem witness_MultiplyResults :
    (0x07FFFFFF#32).toInt.natAbs < 2 ^ 27 ∧ (0xF8000001#32).toInt.natAbs < 2 ^ 27 ∧ (0x0007FFFF#32).toInt.natAbs < 2 ^ 19 ∧
    (0xFFF80001#32).toInt.natAbs < 2 ^ 19 ∧
    (highProduct (0x07FFFFFF#32 <<< 4) (0xFFF80001#32 <<< 12)).toInt = (2 ^ 27 - 1) * (-(2 ^ 19 - 1)) / 2 ^ 16 ∧
    (highProduct (0xF8000001#32 <<< 4) 0x80000000#32).toInt = -(2 ^ 27 - 1) * (-2 ^ 31) / 2 ^ 28 ∧
    (highProduct (0xFFF80001#32 <<< 12) (0x0007FFFF#32 <<< 12)).toInt = -(2 ^ 19 - 1) * (2 ^ 19 - 1) / 2 ^ 8 := by
  decide

/-- |b - a| = 2^27 - 1, and the last f before the pre-shift wraps. -/
theorem witness_LerpResults :
    ((0x07FFFFFF#32).toInt - (0#32).toInt).natAbs < 2 ^ 27 ∧ (0x10000#32 : Word) = 0x10000#32 ∧
      (0x7FFFF#32).toNat < 2 ^ 19 ∧ ((0#32).toInt - (0x07FFFFFF#32).toInt).natAbs < 2 ^ 27 := by decide

/-- A tie (2^24 + 1, which goes to the even encoding), the largest finite value, and the first value rounded to infinity. -/
theorem witness_RoundsToNearestEven_rounding :
    0 < 1 ∧ roundMag ((2 ^ 24 + 1) * 2 ^ 149) 1 < 0x7F800000 ∧ roundMag ((2 ^ 24 + 1) * 2 ^ 149) 1 = 0x4B800000 ∧
    ((finiteMagnitude 0x4B800000 : Int) - ((2 ^ 24 + 1) * 2 ^ 149 : Nat)).natAbs =
      ((finiteMagnitude 0x4B800001 : Int) - ((2 ^ 24 + 1) * 2 ^ 149 : Nat)).natAbs ∧
    roundMag ((2 ^ 25 - 1) * 2 ^ 252) 1 = 0x7F800000 ∧ roundMag ((2 ^ 25 - 1) * 2 ^ 252 - 1) 1 = 0x7F7FFFFF := by
  decide +kernel

/-- The last finite encoding, infinity, the first NaN; 1.0 and -1.0, whose sum is 0 and difference is not; the zeros; and
the function that names the infinities. -/
theorem witness_RoundsToNearestEven :
    magnitudeBits 0xFF7FFFFF#32 < 0x7F800000 ∧ magnitudeBits 0xFF800000#32 = 0x7F800000 ∧
    0x7F800000 < magnitudeBits 0x7F800001#32 ∧ fval 0x7F800001#32 = .nan ∧
    fval 0x3F800000#32 = .finite false (2 ^ 149) ∧ fval 0xBF800000#32 = .finite true (2 ^ 149) ∧
    fval 0#32 = .finite false 0 ∧ fval 0x80000000#32 = .finite true 0 ∧
    ((2 ^ 149 : Nat) : Int) + (-(2 ^ 149 : Nat)) = 0 ∧ ((2 ^ 149 : Nat) : Int) - (-(2 ^ 149 : Nat)) ≠ 0 ∧
    ∃ inf : Bool → F, inf false = 0x7F800000#32 ∧ inf true = 0xFF800000#32 := by
  refine ⟨by decide, by decide, by decide, by decide +kernel, by decide +kernel, by decide +kernel, by decide +kernel,
    by decide +kernel, by decide +kernel, by decide +kernel, fun b => if b then 0xFF800000#32 else 0x7F800000#32, rfl, rfl⟩

/-- The largest value below 2^31, 2^31 itself, an infinity and a NaN, as `int_of_f` takes them; both zeros, and the
smallest magnitude. -/
theorem witness_SampleConversionExact_values :
    fval 0x4EFFFFFF#32 = .finite false ((2 ^ 31 - 128) * 2 ^ 149) ∧ (2 ^ 31 - 128) * 2 ^ 149 < 2 ^ 180 ∧
    fval 0xCF000000#32 = .finite true (2 ^ 180) ∧ fval 0xFF800000#32 = .inf true ∧ fval 0x7FC00000#32 = .nan ∧
    magnitudeBits 0x80000000#32 = 0 ∧ magnitudeBits 0x80000001#32 ≠ 0 ∧
    magnitudeBits 0x80000001#32 < (2#32).toNat ∧ (0x7F800000#32).toNat ≤ 0x7F800000 := by decide +kernel

theorem witness_SampleConversionExact :
    (2 ^ 24 : Int).natAbs ≤ 2 ^ 24 ∧ (-2 ^ 24 : Int).natAbs ≤ 2 ^ 24 ∧ (0xFFFFFF#32).toInt.natAbs < 2 ^ 24 ∧
      (0xFF000001#32).toInt.natAbs < 2 ^ 24 := by decide

/-- Both tables' last index, at the first and the last tap; increments on both sides of 2^32. -/
theorem witness_KernelTapsAndSteps :
    (1024 ≤ 1024 ∧ 1023 < 1024 ∧ 0 < 32 ∧ 31 < 32 ∧ Params.candidate.wf) ∧
    (((1023 * 1024 / 1024 : Nat) : Int) - (((31 : Nat) : Int) - 15) * (1024 : Nat)).natAbs = 15361 ∧
    (((0 : Nat) : Int) - (((31 : Nat) : Int) - 15) * 1024).natAbs = 16384 ∧
    (((1023 : Nat) : Int) - (((0 : Nat) : Int) - 15) * 1024).natAbs = 16383 ∧
    2 ^ 32 < (0x100000001#64).toNat ∧ (0x100000000#64).toNat ≤ 2 ^ 32 := by decide

theorem witness_PhaseAdvanceBound :
    (0x2000000000#64).toNat ≤ 2 ^ 37 ∧ (phaseAcc 0xFFFFFFFF#32 0x2000000000#64).2 = 32 := by decide

/-- The lane selectors of the commands that name 0, 1 or 2; the voice is that of `witness_voice`. -/
theorem witness_lane_selectors :
    LaneSel.left ≠ .reserved ∧ LaneSel.right ≠ .reserved ∧ LaneSel.both ≠ .reserved := by decide

theorem witness_RsInitResetsLanes : State.reset.voice? 3#6 = some (Voice.reset 1024#32) ∧ LaneSel.both ≠ .reserved :=
  ⟨rfl, by decide⟩
theorem witness_RsClearEmptiesLanes : State.reset.voice? 0#6 = some (Voice.reset 1024#32) ∧ LaneSel.left ≠ .reserved :=
  ⟨rfl, by decide⟩
theorem witness_RsSetqSwitchesQuality :
    State.reset.voice? 0#6 = some (Voice.reset 1024#32) ∧ LaneSel.right ≠ .reserved := ⟨rfl, by decide⟩
theorem witness_RsSetrateStoresRates :
    State.reset.voice? 3#6 = some (Voice.reset 1024#32) ∧ LaneSel.right ≠ .reserved := ⟨rfl, by decide⟩

/-- A primed lane with 64 and with 63 samples, and one not primed. -/
theorem witness_RsWritePushesSample :
    (State.reset.voice? 0#6 = some (Voice.reset 1024#32) ∧ LaneSel.both ≠ .reserved) ∧
    (({ Lane.reset with inPrimed := true, wfill := 64 } : Lane).inPrimed = true ∧
      64 ≤ ({ Lane.reset with inPrimed := true, wfill := 64 } : Lane).wfill) ∧
    ({ Lane.reset with inPrimed := true, wfill := 63 } : Lane).wfill < 64 ∧ Lane.reset.inPrimed = false :=
  ⟨⟨rfl, by decide⟩, ⟨rfl, by decide⟩, by decide, rfl⟩

/-- A legal lane in its deepest debt and a full one. -/
theorem witness_RsFreeAndReady :
    State.reset.voice? 0#6 = some (Voice.reset 1024#32) ∧ (Voice.reset 1024#32).lanes.get .right = Lane.reset ∧
      ({ Lane.reset with wfill := -30 } : Lane).wf ∧ ({ Lane.reset with wfill := 64 } : Lane).wf :=
  ⟨rfl, rfl, by decide, by decide⟩

theorem witness_RsReadsFillFirst :
    State.reset.voice? 0#6 = some (Voice.reset 1024#32) ∧
      ensureOutput State.reset.params ((Voice.reset 1024#32).lanes.get .left) State.reset.draws = (Lane.reset, 0) ∧
      ({ Lane.reset with rfill := 1 } : Lane).rfill ≠ 0 ∧ Lane.reset.inc = 0#64 :=
  ⟨rfl, rfl, by decide, rfl⟩

/-- Lanes that a read fills, with the delay still to remove and with it removed; of BLEP and of another quality. -/
theorem witness_RsReadsFillFirst_fill : ∀ q ∈ [Quality.blep, .linear], ∀ o : Bool,
    ({ lane q (2 ^ 32) [10, 20] Lane.reset with outPrimed := o } : Lane).rfill = 0 ∧
      ({ lane q (2 ^ 32) [10, 20] Lane.reset with outPrimed := o } : Lane).inc ≠ 0#64 ∧
      ({ lane q (2 ^ 32) [10, 20] Lane.reset with outPrimed := o } : Lane).outPrimed = o ∧
      ∃ m d, fill Params.candidate { lane q (2 ^ 32) [10, 20] Lane.reset with outPrimed := o } 0 = (m, d) := by
  intro q hq o
  simp only [List.mem_cons, List.not_mem_nil, or_false] at hq
  rcases hq with rfl | rfl <;> cases o <;> exact ⟨by decide +kernel, by decide +kernel, rfl, _, _, rfl⟩

/-- A lane that the read fills. -/
theorem witness_RepeatedReadIsSame :
    (0#6).toNat < (lane0 (lane .zoh (2 ^ 32) [10, 20])).nv ∧
      answer (exec (.rsGet 0#6 (laneOfSide .left)) (lane0 (lane .zoh (2 ^ 32) [10, 20]))) = some ([10#32], 0#6) := by
  decide +kernel

/-- A legal lane; and the guard, as the hypothesis of the statement defines it. -/
theorem witness_FillTakesAtMost64 : (lane .zoh (2 ^ 32) [10, 20] Lane.reset).wf ∧ ∃ guard : Lane → Prop, ∀ m, guard m ↔
    (match m.q with | .zoh | .blep => 1 | .linear | .blam => 2 | .cubic => 4 | .sinc => 32) < m.wfill ∧ m.rfill < 64 ∧
      ¬ ((m.q = .blep ∨ m.q = .blam) ∧ 64 < m.rfill + 32) :=
  ⟨by decide +kernel, _, fun _ => Iff.rfl⟩

/-- One pending sample, and 64. -/
theorem witness_ZohReproducesInput :
    (lane .zoh (2 ^ 32) [10] Lane.reset).q = .zoh ∧ (lane .zoh (2 ^ 32) [10] Lane.reset).inc = 0x100000000#64 ∧
    (lane .zoh (2 ^ 32) [10] Lane.reset).phase = 0#32 ∧ (lane .zoh (2 ^ 32) [10] Lane.reset).rfill = 0 ∧
    1 ≤ (lane .zoh (2 ^ 32) [10] Lane.reset).wfill ∧
    (lane .zoh (2 ^ 32) ((List.range 64).map Int.ofNat) Lane.reset).wfill = 64 := by decide +kernel

/-- A lane of each quality; BLAM both above and below ratio 1.0; both settings of SUM_ORDER. -/
theorem witness_KernelIterations :
    Params.candidate.sumOrder = .scalar ∧
    ({ Params.candidate with sumOrder := .reassociated } : Params).sumOrder = .reassociated ∧
    [Quality.zoh, .linear, .cubic, .sinc, .blep, .blam].map (fun q => (lane q (2 ^ 32) [7, -5] Lane.reset).q) =
      [.zoh, .linear, .cubic, .sinc, .blep, .blam] ∧
    (lane .blam (2 ^ 31) [7, -5] Lane.reset).inc.toNat < 2 ^ 32 ∧
    (lane .blam (2 ^ 33) [7, -5] Lane.reset).iinc.toNat < 2 ^ 32 ∧
    ¬ (lane .blam (2 ^ 32) [7, -5] Lane.reset).iinc.toNat < 2 ^ 32 := by decide +kernel

/-- The function and the numbers that the hypotheses of the statement define. -/
theorem witness_KernelIterations_put (l : Lane) (p : Params) : ∃ (put : F → Lane) (k step : Nat),
    (∀ y, put y = { l with
      outRing := ringSet l.outRing (l.rpos.toNat + l.rfill) y, rfill := l.rfill + 1
      phase := (phaseAcc l.phase l.inc).1, wfill := l.wfill - (phaseAcc l.phase l.inc).2 }) ∧
    k = l.phase.toNat / 2 ^ 22 ∧ step = sincStep p l.inc := ⟨_, _, _, fun _ => rfl, rfl, rfl⟩

/-- A non-zero input, and a zero. -/
theorem witness_LinearExactAtPhaseZero :
    ((lane .linear (2 ^ 32) [7, -5] Lane.reset).phase = 0#32 ∧
      fval ((lane .linear (2 ^ 32) [7, -5] Lane.reset).inp 0) = .finite false (7 * 2 ^ 149) ∧ 0 < 7 * 2 ^ 149 ∧
      fval (fsub ((lane .linear (2 ^ 32) [7, -5] Lane.reset).inp 1) ((lane .linear (2 ^ 32) [7, -5] Lane.reset).inp 0)) =
        .finite true (12 * 2 ^ 149)) ∧
    fval ((lane .linear (2 ^ 32) [0, -5] Lane.reset).inp 0) = .finite false 0 ∧
    fval (fsub ((lane .linear (2 ^ 32) [0, -5] Lane.reset).inp 1) ((lane .linear (2 ^ 32) [0, -5] Lane.reset).inp 0)) =
      .finite true (5 * 2 ^ 149) := by decide +kernel

/-- No change of the amplitude, and a change to 1.0. -/
theorem witness_AmplitudeStepSpreads :
    fneZero (fsub 0#32 Lane.reset.lastAmp) = false ∧ fneZero (fsub 0x3F800000#32 Lane.reset.lastAmp) = true := by
  decide +kernel

/-- An empty output ring, the last output of a Sinc lane, and one of a BLEP and a BLAM lane. -/
theorem witness_RsRemoveConsumesOutput :
    Lane.reset.rfill = 0 ∧ 0 < ({ Lane.reset with rfill := 1 } : Lane).rfill ∧
      ¬ (Lane.reset.q = .blep ∨ Lane.reset.q = .blam) ∧
      (({ Lane.reset with q := .blep, rfill := 64 } : Lane).q = .blep ∨
        ({ Lane.reset with q := .blep, rfill := 64 } : Lane).q = .blam) := by decide +kernel

theorem witness_RsDupCopiesLanes :
    State.reset.voice? 3#6 = some (Voice.reset 1024#32) ∧ State.reset.voice? 0#6 = some (Voice.reset 1024#32) := ⟨rfl, rfl⟩

/-- Bypass, and the filter on, with the second output of Part 5's first sequence. -/
theorem witness_FilterRun :
    State.reset.voice? 0#6 = some (Voice.reset 1024#32) ∧ (Voice.reset 1024#32).filter.en = false ∧
    ((v0 fun c => { c with filter := { c.filter with en := true } }).voice? 0#6).map (fun c => c.filter.en) = some true ∧
    750#32 = highProduct (1000#32 <<< 4) 0x08000000#32 + highProduct (500#32 <<< 4) 0x08000000#32
      + highProduct (0#32 <<< 4) 0#32 := ⟨rfl, rfl, rfl, by decide⟩

theorem witness_FilterIdentityAtReset :
    (Voice.reset 1024#32).filter.a = 0x10000000#32 ∧ (Voice.reset 1024#32).filter.b = 0#32 ∧
      (Voice.reset 1024#32).filter.c = 0#32 ∧ (0x07FFFFFF#32).toInt.natAbs < 2 ^ 27 ∧
      (0xF8000001#32).toInt.natAbs < 2 ^ 27 := by decide +kernel

theorem witness_FilterLoads : State.reset.voice? 3#6 = some (Voice.reset 1024#32) ∧ (44100#32 : Word) ≠ 0#32 :=
  ⟨rfl, by decide⟩

/-- The descriptor of Part 6.1 is well formed, its node ticks rise, and its values lie in 0..16384. -/
theorem witness_EnvelopeValueBounds :
    (slope 1#3 0 0 Envelope.reset).wellFormed ∧
      ∀ i : Fin 25, i.val < (slope 1#3 0 0 Envelope.reset).n.val →
        (0 : Int) ≤ (slope 1#3 0 0 Envelope.reset).nodeValue i ∧ (slope 1#3 0 0 Envelope.reset).nodeValue i ≤ 16384 := by
  decide +kernel

/-- The second node is met after ten ticks, the last after twenty. -/
theorem witness_EnvelopeExactAtNodes :
    (slope 1#3 0 0 Envelope.reset).wellFormed ∧
      (∀ j k : Fin 25, j.val < k.val → k.val < (slope 1#3 0 0 Envelope.reset).n.val →
        (slope 1#3 0 0 Envelope.reset).nodeTick j < (slope 1#3 0 0 Envelope.reset).nodeTick k) ∧
      (Envelope.run .always (List.replicate 10 false) (slope 1#3 0 0 Envelope.reset).restart).tick.toNat =
        (slope 1#3 0 0 Envelope.reset).nodeTick 1 ∧
      (Envelope.run .always (List.replicate 20 false) (slope 1#3 0 0 Envelope.reset).restart).tick.toNat =
        (slope 1#3 0 0 Envelope.reset).nodeTick 2 := by decide +kernel

theorem witness_EnvelopeEndsAfterLastNode :
    (slope 1#3 0 0 Envelope.reset).loop = false ∧ (slope 1#3 0 0 Envelope.reset).susLoop = false ∧
      (List.replicate 21 false).length =
        (slope 1#3 0 0 Envelope.reset).nodeTick (slope 1#3 0 0 Envelope.reset).lastNode + 1 := by decide +kernel

/-- The same descriptor with SUSLOOP and the sustain loop between nodes 1 and 2. -/
theorem witness_SustainLoopHolds :
    ({ slope 5#3 0 0 Envelope.reset with ss := 1, se := 2 } : Envelope).wellFormed ∧
      ({ slope 5#3 0 0 Envelope.reset with ss := 1, se := 2 } : Envelope).susLoop = true := by decide +kernel

/-- The cursor before the first node, between two nodes, and past the last; nodes with equal ticks; a sustain loop and a
release loop that reset. -/
theorem witness_EnvelopeCursor :
    (slope 1#3 0 0 Envelope.reset).next.val = 0 ∧
    ((slope 1#3 5 1 Envelope.reset).next.val = (1 : Fin 25).val ∧ (0 : Fin 25).val + 1 = (1 : Fin 25).val ∧
      (1 : Fin 25).val < (slope 1#3 5 1 Envelope.reset).n.val ∧
      (slope 1#3 5 1 Envelope.reset).nodeTick 0 ≠ (slope 1#3 5 1 Envelope.reset).nodeTick 1 ∧
      Envelope.reset.nodeTick 0 = Envelope.reset.nodeTick 1) ∧
    (0 < (slope 1#3 21 3 Envelope.reset).next.val ∧
      (slope 1#3 21 3 Envelope.reset).n.val ≤ (slope 1#3 21 3 Envelope.reset).next.val ∧
      (2 : Fin 25).val + 1 = (slope 1#3 21 3 Envelope.reset).n.val) ∧
    ((slope 5#3 11 2 Envelope.reset).flags.getLsbD 2 = true ∧
      (slope 5#3 11 2 Envelope.reset).nodeTick (slope 5#3 11 2 Envelope.reset).se <
        (slope 5#3 11 2 Envelope.reset).tick.toNat) ∧
    ((slope 3#3 11 2 Envelope.reset).flags.getLsbD 2 = false ∧ (slope 3#3 11 2 Envelope.reset).flags.getLsbD 1 = true ∧
      (slope 3#3 11 2 Envelope.reset).nodeTick (slope 3#3 11 2 Envelope.reset).le <
        (slope 3#3 11 2 Envelope.reset).tick.toNat) := by decide +kernel

/-- The propositions that the hypotheses of its last clause define. -/
theorem witness_EnvelopeCursor_loops (e : Envelope) (mode : LoopMode) (released : Bool) : ∃ sus rel : Prop,
    (sus ↔ e.flags.getLsbD 2 = true ∧ released = false) ∧ (rel ↔ e.flags.getLsbD 1 = true ∧ (mode = .always ∨ ¬ sus)) :=
  ⟨_, _, Iff.rfl, Iff.rfl⟩

/-- An envelope that is off, one with no node, and one that runs to its end. -/
theorem witness_EnvelopeCommands :
    (slopeState 1#3 20 2).voice? 0#6 ≠ none ∧ Envelope.reset.flags.getLsbD 0 = false ∧ Envelope.reset.n.val = 0 ∧
    (slope 1#3 20 2 Envelope.reset).flags.getLsbD 0 = true ∧ 0 < (slope 1#3 20 2 Envelope.reset).n.val ∧
    (((({ slope 1#3 20 2 Envelope.reset with value := (slope 1#3 20 2 Envelope.reset).eval } : Envelope).advance).loops
      .always false).tick.toNat = 21) ∧
    (slope 1#3 20 2 Envelope.reset).nodeTick (slope 1#3 20 2 Envelope.reset).lastNode < 21 := by decide +kernel

/-- Not fading, fading at 0, and fading with a rate above and below the counter. -/
theorem witness_FadeCommands :
    (Voice.reset 1024#32).fading = false ∧ (Voice.reset 0#32).fade = 0#32 ∧
    ({ Voice.reset 124#32 with fading := true, fadeRate := 300#32 } : Voice).fading = true ∧
    ({ Voice.reset 124#32 with fading := true, fadeRate := 300#32 } : Voice).fade ≠ 0#32 ∧
    (0#32).toNat = (124#32).toNat - (300#32).toNat ∧ (724#32).toNat = (1024#32).toNat - (300#32).toNat := by
  decide +kernel

/-- The ends of each segment of the waveforms. -/
theorem witness_LfoCommands :
    (State.reset.voice? 0#6 = some (Voice.reset 1024#32) ∧ (Voice.reset 1024#32).lfos.get 2 = Lfo.reset) ∧
    ((127#8).toNat < 128 ∧ 128 ≤ (128#8).toNat ∧ (63#8).toNat < 64 ∧ 64 ≤ (64#8).toNat ∧ 64 < (65#8).toNat ∧ (191#8).toNat < 192 ∧
      192 ≤ (192#8).toNat) := ⟨⟨rfl, rfl⟩, by decide⟩

theorem witness_LfoProperties :
    (⟨.sine, 7#8, 0#8, 255#8⟩ : Lfo).speed = 0#8 ∧ (⟨.sine, 7#8, 128#8, 255#8⟩ : Lfo).speed ≠ 0#8 ∧
      (128#8).toNat ∣ 256 ∧ (1#8).toNat ∣ 256 := by decide

/-- A voice in each stage, and samples at the ends of the exact range. -/
theorem witness_DeclickStep :
    [Stage.silent, .rampingIn, .steady, .cutRequested, .rampedOut, .dead].map
        (fun st => ((dck st 0#19 0#19).voice? 0#6).map fun c => c.declick.stage) =
      [some .silent, some .rampingIn, some .steady, some .cutRequested, some .rampedOut, some .dead] ∧
    (0x07FFFFFF#32).toInt.natAbs < 2 ^ 27 ∧ (0xF8000001#32).toInt.natAbs < 2 ^ 27 := by decide +kernel

/-- A step from stage 1; and ramps up, down and to 0, each needing its last step (4096 / 1000 rounded up is 5). -/
theorem witness_RampBounds :
    ((dck .rampingIn 0#19 0#19).voice? 0#6).map (fun c => c.declick.stage) = some .rampingIn ∧
    answer (exec (.dckStep 0#6 0#32 0#32) (dck .rampingIn 0#19 0#19)) = some ([0#32, 0#32], 0#6) ∧
    (1 ≤ 1000 ∧ ((⟨.rampingIn, ⟨0#19, 0#19⟩, ⟨4096#19, 2048#19⟩⟩ : Declick).cur.get .left).toNat = 0 ∧
      ((⟨.rampingIn, ⟨0#19, 0#19⟩, ⟨4096#19, 2048#19⟩⟩ : Declick).tgt.get .left).toNat = 4096 ∧
      (((4096 : Nat) : Int) - (0 : Nat)).natAbs + 1000 - 1 = 5 * 1000 + 95) ∧
    ((⟨.cutRequested, ⟨4096#19, 0#19⟩, ⟨4096#19, 2048#19⟩⟩ : Declick).cur.get .left).toNat = 4096 := by decide +kernel

theorem witness_StageNeverFalls :
    answer (exec (.dckCut 0#6) (dck .steady 0#19 0#19)) = some ([], 0#6) ∧ Instr.dckCut 0#6 ≠ .dckRetrig 0#6 ∧
      Instr.dckCut 0#6 ≠ .vcReset 0#6 ∧ (0#6).toNat < State.reset.nv := by decide +kernel

/-- Targets below 0, at VOL_MAX and above it; stage 4 and the others. -/
theorem witness_DeclickCommands :
    State.reset.voice? 0#6 = some (Voice.reset 1024#32) ∧
    (((0#19).toNat : Int) = min (max (0xFFFFFFFB#32).toInt 0) 0x7FFFF ∧
      ((0x7FFFF#19).toNat : Int) = min (max (0x80000#32).toInt 0) 0x7FFFF ∧
      ((0x7FFFF#19).toNat : Int) = min (max (0x7FFFF#32).toInt 0) 0x7FFFF) ∧
    (⟨.rampedOut, ⟨0#19, 0#19⟩, ⟨0#19, 0#19⟩⟩ : Declick).stage = .rampedOut ∧ Declick.reset.stage ≠ .rampedOut :=
  ⟨rfl, by decide, rfl, by decide⟩

/-- Every end of the reserved ranges, and the defined index next to it. -/
theorem witness_ReservedIndexRaisesErrReg :
    [0x006, 0x0FF, 0x10E, 0x13F, 0x14E, 0x17F, 0x180, 0x1FF, 0x308, 0x3FF, 0x409, 0x41F, 0x439, 0x43F, 0x459, 0x47F, 0x489,
      0x509, 0x559, 0x57F, 0x584, 0x5FF, 0x604, 0x607, 0x60C, 0x614, 0x617, 0x618, 0x6FF, 0x705, 0x7FF, 0x800,
      0xFFF].all reservedIndex = true ∧
    [0x000, 0x005, 0x100, 0x10D, 0x140, 0x14D, 0x200, 0x2FF, 0x300, 0x307, 0x400, 0x408, 0x420, 0x438, 0x440, 0x458, 0x480,
      0x500, 0x558, 0x580, 0x583, 0x600, 0x603, 0x608, 0x60B, 0x610, 0x613, 0x700, 0x704].all
      (fun i => !reservedIndex i) = true ∧
    ((0x0FF#12).toNat < 0x100 ∨ (63#6).toNat < State.reset.nv) ∧ ((0xFFF#12).toNat < 0x100 ∨ (3#6).toNat < State.reset.nv) := by
  decide +kernel

theorem witness_RegisterReads :
    State.reset.voice? 3#6 = some (Voice.reset 1024#32) ∧
    (Voice.reset 1024#32).lanes.get .left = Lane.reset ∧ (Voice.reset 1024#32).lanes.get .right = Lane.reset ∧
    (Voice.reset 1024#32).envs.get 2 = Envelope.reset ∧ (Voice.reset 1024#32).lfos.get 2 = Lfo.reset :=
  ⟨rfl, rfl, rfl, rfl, rfl⟩

/-- The relation `reads` of the statement, for any voice number, 63 included. -/
theorem witness_RegisterReads_relation (v : VoiceIx) :
    ∃ reads : Nat → Word → Prop, ∀ (idx : Nat) (w : Word), reads idx w ↔
      exec (.regRd v (BitVec.ofNat 12 idx)) State.reset = .next { State.reset with
        responses := State.reset.responses ++ [w] } := ⟨_, fun _ _ => Iff.rfl⟩

/-- The first and the last writable index of each block. -/
theorem witness_RegisterWrites :
    State.reset.voice? 3#6 = some (Voice.reset 1024#32) ∧
    [0x300, 0x307, 0x400, 0x405, 0x420, 0x438, 0x440, 0x458, 0x480, 0x558, 0x580, 0x583, 0x600, 0x603, 0x613, 0x703,
      0x704].all (fun i => decide (0x100 ≤ i) && !reservedIndex i && !readOnlyIndex i) = true := ⟨rfl, by decide +kernel⟩

theorem witness_ResetStateIsLegal : 1 ≤ 1 ∧ 1 ≤ 64 ∧ 64 ≤ 64 ∧ Params.candidate.wf := by decide

theorem witness_VoiceResetIsPowerOn : (3#6).toNat < State.reset.nv ∧ State.reset.nv = 4 := by decide +kernel

end Sys2Proof.Tests
end

section
/-! The reset state is legal (00_scope.md R11; 10_state.md R40). -/

namespace Sys2Proof.Machine

open Sys2Proof

/-- The power-on voice is legal: both lanes are at reset, and the declick unit's ramp volume is 0. -/
theorem Voice.reset_wf (fadeInit : Word) : (Voice.reset fadeInit).wf :=
  ⟨Lane.reset_wf, Lane.reset_wf, fun _ => rfl⟩

/-- RAMP_DELTA_RESET is in range, whatever the parameters are (10_state.md R37). -/
theorem reset_rampDelta_wf (nv : Nat) (p : Params) : rampDeltaWf (State.resetWith nv p).rampDelta := by
  change rampDeltaWf Config.rampDeltaReset
  decide

/-- Settles O59: every voice of the reset state is the power-on voice. -/
theorem resetStateIsLegal : Obligations.ResetStateIsLegal := by
  intro nv p hpos hmax hp
  have hnv : (State.resetWith nv p).nv = nv := List.length_replicate
  refine ⟨hnv.symm ▸ hpos, hnv.symm ▸ hmax, hp, reset_rampDelta_wf nv p, fun c hc => ?_⟩
  rw [List.eq_of_mem_replicate hc]
  exact Voice.reset_wf p.fadeInit

end Sys2Proof.Machine
end

section
/-! Rounding to nearest, ties to even (00_scope.md R15): the magnitudes of the encodings in order, and the encoding
that `roundMag` chooses among them. -/

namespace Sys2Proof.Machine

open Sys2Proof

/-- Exponent step `e` with significand `d` is the magnitude d * 2^e; `d` = 2^24 is the carry into the exponent. -/
theorem finiteMagnitude_step {e d : Nat} (hd : d ≤ 2 ^ 24) (hn : e = 0 ∨ 2 ^ 23 ≤ d) :
    finiteMagnitude (e * 2 ^ 23 + d) = d * 2 ^ e := by
  unfold finiteMagnitude
  obtain hsub | hnorm | hcarry : d < 2 ^ 23 ∨ (2 ^ 23 ≤ d ∧ d < 2 ^ 24) ∨ d = 2 ^ 24 := by omega
  · obtain rfl : e = 0 := by omega
    rw [zero_mul, zero_add, if_pos (Nat.div_eq_of_lt hsub), pow_zero, mul_one]
  · have hdiv : (e * 2 ^ 23 + d) / 2 ^ 23 = e + 1 := by omega
    have hmod : 2 ^ 23 + (e * 2 ^ 23 + d) % 2 ^ 23 = d := by omega
    rw [hdiv, hmod]
    simp
  · have hdiv : (e * 2 ^ 23 + d) / 2 ^ 23 = e + 2 := by omega
    have hmod : (e * 2 ^ 23 + d) % 2 ^ 23 = 0 := by omega
    rw [hdiv, hmod, hcarry, if_neg (by omega), show e + 2 - 1 = e + 1 by omega, pow_succ]
    ring

/-- Every encoding has such a step, with a significand below 2^24. -/
theorem exists_exponent_step (b : Nat) : ∃ e d, b = e * 2 ^ 23 + d ∧ d < 2 ^ 24 ∧ (e = 0 ∨ 2 ^ 23 ≤ d) :=
  ⟨b / 2 ^ 23 - 1, b - (b / 2 ^ 23 - 1) * 2 ^ 23, by omega, by omega, by omega⟩

/-- The encodings are in the order of their magnitudes. -/
theorem finiteMagnitude_strictMono : StrictMono finiteMagnitude := by
  refine strictMono_nat_of_lt_succ fun b => ?_
  obtain ⟨e, d, rfl, hd, hn⟩ := exists_exponent_step b
  rw [add_assoc, finiteMagnitude_step hd.le hn, finiteMagnitude_step hd (by omega)]
  exact Nat.mul_lt_mul_of_pos_right d.lt_succ_self (by positivity)

/-- On the grid of step 2^e a magnitude is a grid point, or it lies below every normal significand of that step. -/
theorem finiteMagnitude_grid (e b : Nat) :
    (∃ k, finiteMagnitude b = k * 2 ^ e) ∨ (0 < e ∧ finiteMagnitude b < 2 ^ 23 * 2 ^ e) := by
  obtain ⟨e', d, rfl, hd, hn⟩ := exists_exponent_step b
  rw [finiteMagnitude_step hd.le hn]
  by_cases he : e ≤ e'
  · obtain ⟨i, rfl⟩ := Nat.exists_eq_add_of_le he
    exact .inl ⟨d * 2 ^ i, by ring⟩
  · refine .inr ⟨by omega, ?_⟩
    calc d * 2 ^ e' < 2 ^ 24 * 2 ^ e' := Nat.mul_lt_mul_of_pos_right hd (by positivity)
      _ = 2 ^ 23 * 2 ^ (e' + 1) := by ring
      _ ≤ 2 ^ 23 * 2 ^ e := Nat.mul_le_mul_left _ (Nat.pow_le_pow_right (by decide) (by omega))

/-- A significand of at most 24 bits has an encoding at every exponent. -/
theorem exists_finiteMagnitude_eq (e : Nat) : ∀ d ≤ 2 ^ 24, ∃ b, finiteMagnitude b = d * 2 ^ e := by
  induction e with
  | zero => exact fun d hd => ⟨0 * 2 ^ 23 + d, finiteMagnitude_step hd (.inl rfl)⟩
  | succ e ih =>
    intro d hd
    by_cases hn : 2 ^ 23 ≤ d
    · exact ⟨_, finiteMagnitude_step hd (.inr hn)⟩
    · obtain ⟨b, hb⟩ := ih (2 * d) (by omega)
      exact ⟨b, by rw [hb]; ring⟩

/-- The encodings below infinity's are those of magnitude below 2^277. -/
theorem finiteMagnitude_lt_iff (b : Nat) : finiteMagnitude b < 2 ^ 277 ↔ b < 0x7F800000 := by
  have hinf : finiteMagnitude 0x7F800000 = 2 ^ 277 := by decide +kernel
  rw [← hinf, finiteMagnitude_strictMono.lt_iff_lt]

/-! ## The rounded quotient -/

/-- The rounded quotient is at most half a step from the exact one, and an odd one is nearer than that. -/
theorem divNearestEven_error (n : Nat) {D : Nat} (hD : 0 < D) :
    2 * ((divNearestEven n D * D : Int) - n).natAbs ≤ D ∧
      (divNearestEven n D % 2 = 1 → 2 * ((divNearestEven n D * D : Int) - n).natAbs < D) := by
  have hn := Nat.div_add_mod' n D
  have hr := Nat.mod_lt n hD
  unfold divNearestEven
  dsimp only
  generalize n / D = q at *
  generalize n % D = r at *
  split <;> push_cast [add_mul] <;> omega

/-- No multiple of the divisor is nearer than the rounded quotient's, and an odd quotient is strictly the nearest. -/
theorem divNearestEven_nearest (n k : Nat) {D : Nat} (hD : 0 < D) (hk : k ≠ divNearestEven n D) :
    ((divNearestEven n D * D : Int) - n).natAbs ≤ ((k * D : Int) - n).natAbs ∧
      (divNearestEven n D % 2 = 1 → ((divNearestEven n D * D : Int) - n).natAbs < ((k * D : Int) - n).natAbs) := by
  have herr := divNearestEven_error n hD
  generalize divNearestEven n D = d at *
  have hstep : (k * D : Int) + D ≤ d * D ∨ (d * D : Int) + D ≤ k * D := by
    obtain hlt | hgt := Nat.lt_or_gt_of_ne hk
    · exact .inl (by exact_mod_cast (add_one_mul k D).symm.trans_le (Nat.mul_le_mul_right D hlt))
    · exact .inr (by exact_mod_cast (add_one_mul d D).symm.trans_le (Nat.mul_le_mul_right D hgt))
  omega

/-- The quotient reaches an even number from half a step below it, the tie included. -/
theorem succ_le_divNearestEven_iff {n D k : Nat} (hD : 0 < D) (hk : k % 2 = 1) :
    k + 1 ≤ divNearestEven n D ↔ (2 * k + 1) * D ≤ 2 * n := by
  have herr := divNearestEven_error n hD
  generalize divNearestEven n D = d at *
  rw [show (2 * k + 1) * D = 2 * (k * D) + D by ring]
  obtain hlt | rfl | hgt := Nat.lt_trichotomy d k
  · have := Nat.mul_le_mul_right D hlt
    rw [Nat.succ_mul] at this
    omega
  · omega
  · have := Nat.mul_le_mul_right D hgt
    rw [Nat.succ_mul] at this
    omega

/-- Rounding keeps whole bounds. -/
theorem divNearestEven_bounds {n D a b : Nat} (ha : a * D ≤ n) (hb : n < b * D) :
    a ≤ divNearestEven n D ∧ divNearestEven n D ≤ b := by
  have hD : 0 < D := Nat.pos_of_ne_zero fun h => by simp [h] at hb
  have hq : a ≤ n / D := (Nat.le_div_iff_mul_le hD).2 ha
  have hq' : n / D < b := (Nat.div_lt_iff_lt_mul hD).2 hb
  unfold divNearestEven
  dsimp only
  split <;> omega

/-! ## The rounded magnitude -/

/-- The exponent step `roundMag` rounds at: the exact quotient has 24 bits there, or fewer at step 0. -/
theorem exists_roundMag_step (num : Nat) {den : Nat} (hden : 0 < den) :
    ∃ e, roundMag num den = min (e * 2 ^ 23 + divNearestEven num (den * 2 ^ e)) 0x7F800000 ∧
      num < 2 ^ 24 * (den * 2 ^ e) ∧ (e = 0 ∨ 2 ^ 23 * (den * 2 ^ e) ≤ num) := by
  refine ⟨Nat.log2 (num / den) - 23, rfl, ?_, ?_⟩
  · have hlt : num / den < 2 ^ (24 + (Nat.log2 (num / den) - 23)) :=
      Nat.lt_log2_self.trans_le (Nat.pow_le_pow_right (by decide) (by omega))
    calc num < 2 ^ (24 + (Nat.log2 (num / den) - 23)) * den := (Nat.div_lt_iff_lt_mul hden).1 hlt
      _ = _ := by ring
  · obtain hzero | hpos := Nat.eq_zero_or_pos (Nat.log2 (num / den) - 23)
    · exact .inl hzero
    · have hne : num / den ≠ 0 := fun h => by simp [h] at hpos
      have hle : 2 ^ (23 + (Nat.log2 (num / den) - 23)) ≤ num / den := by
        rw [Nat.add_sub_cancel' (by omega)]
        exact Nat.log2_self_le hne
      refine .inr ?_
      calc _ = 2 ^ (23 + (Nat.log2 (num / den) - 23)) * den := by ring
        _ ≤ num := (Nat.le_div_iff_mul_le hden).1 hle

/-- The rounded quotient at that step is a significand of it. -/
theorem divNearestEven_step {num den e : Nat} (hlt : num < 2 ^ 24 * (den * 2 ^ e))
    (hle : e = 0 ∨ 2 ^ 23 * (den * 2 ^ e) ≤ num) :
    divNearestEven num (den * 2 ^ e) ≤ 2 ^ 24 ∧ (e = 0 ∨ 2 ^ 23 ≤ divNearestEven num (den * 2 ^ e)) :=
  ⟨(divNearestEven_bounds (a := 0) (by omega) hlt).2, hle.imp_right fun h => (divNearestEven_bounds h hlt).1⟩

/-- Infinity is chosen exactly from half a step above the largest finite value. -/
theorem roundMag_eq_inf_iff (num : Nat) {den : Nat} (hden : 0 < den) :
    roundMag num den = 0x7F800000 ↔ (2 ^ 25 - 1) * 2 ^ 252 * den ≤ num := by
  obtain ⟨e, hround, hlt, hle⟩ := exists_roundMag_step num hden
  obtain ⟨hd, hn⟩ := divNearestEven_step hlt hle
  rw [hround, min_eq_right_iff]
  obtain hsmall | rfl | hlarge := Nat.lt_trichotomy e 253
  · have hpow : den * 2 ^ e ≤ den * 2 ^ 252 :=
      Nat.mul_le_mul_left den (Nat.pow_le_pow_right (by decide) (by omega))
    omega
  · have htie := succ_le_divNearestEven_iff (n := num) (D := den * 2 ^ 253) (k := 2 ^ 24 - 1) (by positivity) (by decide)
    omega
  · have hpow : den * 2 ^ 254 ≤ den * 2 ^ e :=
      Nat.mul_le_mul_left den (Nat.pow_le_pow_right (by decide) (by omega))
    omega

/-- No encoding is nearer than the rounded one, and an odd rounded one is strictly the nearest. -/
theorem roundMag_nearest (num : Nat) {den b : Nat} (hden : 0 < den) (hfin : roundMag num den < 0x7F800000)
    (hb : b ≠ roundMag num den) :
    ((finiteMagnitude (roundMag num den) * den : Int) - num).natAbs ≤ ((finiteMagnitude b * den : Int) - num).natAbs ∧
      (roundMag num den % 2 = 1 → ((finiteMagnitude (roundMag num den) * den : Int) - num).natAbs <
        ((finiteMagnitude b * den : Int) - num).natAbs) := by
  obtain ⟨e, hround, hlt, hle⟩ := exists_roundMag_step num hden
  obtain ⟨hd, hn⟩ := divNearestEven_step hlt hle
  have hstep : roundMag num den = e * 2 ^ 23 + divNearestEven num (den * 2 ^ e) := by omega
  have hpos : 0 < den * 2 ^ e := by positivity
  have hval : finiteMagnitude (roundMag num den) = divNearestEven num (den * 2 ^ e) * 2 ^ e := by
    rw [hstep, finiteMagnitude_step hd hn]
  have hgrid (k : Nat) : ((k * 2 ^ e : Nat) * den : Int) = k * (den * 2 ^ e : Nat) := by push_cast; ring
  obtain ⟨k, hk⟩ | ⟨he, hbelow⟩ := finiteMagnitude_grid e b
  · have hne : k ≠ divNearestEven num (den * 2 ^ e) := by
      rintro rfl
      exact hb (finiteMagnitude_strictMono.injective (hk.trans hval.symm))
    obtain ⟨hnear, hodd⟩ := divNearestEven_nearest num k hpos hne
    rw [hval, hk, hgrid, hgrid]
    exact ⟨hnear, fun h => hodd (by omega)⟩
  · have hfloor : 2 ^ 23 * (den * 2 ^ e) ≤ num := hle.resolve_left he.ne'
    have hcmp : finiteMagnitude b * den < 2 ^ 23 * (den * 2 ^ e) := by
      calc _ < 2 ^ 23 * 2 ^ e * den := Nat.mul_lt_mul_of_pos_right hbelow hden
        _ = _ := by ring
    have hnear : ((divNearestEven num (den * 2 ^ e) * (den * 2 ^ e : Nat) : Int) - num).natAbs ≤
        ((2 ^ 23 * (den * 2 ^ e) : Nat) - num : Int).natAbs := by
      by_cases h : 2 ^ 23 = divNearestEven num (den * 2 ^ e)
      · rw [← h]; rfl
      · exact (divNearestEven_nearest num (2 ^ 23) hpos h).1
    rw [hval, hgrid]
    omega

/-- A value that has an encoding is kept. -/
theorem roundMag_finiteMagnitude {b den : Nat} (hb : b < 0x7F800000) (hden : 0 < den) :
    roundMag (finiteMagnitude b * den) den = b := by
  have hmax : finiteMagnitude b ≤ finiteMagnitude 0x7F7FFFFF := finiteMagnitude_strictMono.monotone (by omega)
  have htop : finiteMagnitude 0x7F7FFFFF = (2 ^ 24 - 1) * 2 ^ 253 := by decide +kernel
  have hfin : roundMag (finiteMagnitude b * den) den < 0x7F800000 := by
    refine lt_of_le_of_ne (roundMag_le _ _) fun h => ?_
    have := (roundMag_eq_inf_iff _ hden).1 h
    have := Nat.le_of_mul_le_mul_right this hden
    omega
  by_contra hne
  have hzero := (roundMag_nearest _ hden hfin (Ne.symm hne)).1
  push_cast at hzero
  rw [sub_self, Int.natAbs_zero, Nat.le_zero, Int.natAbs_eq_zero, sub_eq_zero] at hzero
  exact hne (finiteMagnitude_strictMono.injective (Nat.eq_of_mul_eq_mul_right hden (by exact_mod_cast hzero)))

end Sys2Proof.Machine
end

section
/-! What an encoding stands for, and the four operations on finite values, infinities and NaNs (00_scope.md R15). -/

namespace Sys2Proof.Machine

open Sys2Proof

/-- An encoding is its sign bit and its magnitude bits. -/
theorem toNat_eq_sign_add_magnitudeBits (x : F) : x.toNat = (if x.msb then 2 ^ 31 else 0) + magnitudeBits x := by
  have hx := x.isLt
  simp only [magnitudeBits, BitVec.msb_eq_decide, decide_eq_true_eq]
  split <;> omega

/-- What an encoding stands for is decided by its magnitude bits: below infinity's, equal to them, above them. -/
theorem fval_eq (x : F) :
    fval x = if magnitudeBits x < 0x7F800000 then .finite x.msb (finiteMagnitude (magnitudeBits x))
      else if magnitudeBits x = 0x7F800000 then .inf x.msb else .nan := by
  have hexp : x.toNat / 2 ^ 23 % 2 ^ 8 = magnitudeBits x / 2 ^ 23 := by unfold magnitudeBits; omega
  have hfrac : x.toNat % 2 ^ 23 = magnitudeBits x % 2 ^ 23 := by unfold magnitudeBits; omega
  have hlt : magnitudeBits x < 2 ^ 31 := Nat.mod_lt _ (by decide)
  unfold fval finiteMagnitude
  dsimp only
  rw [hexp, hfrac]
  generalize magnitudeBits x = b at *
  obtain hsub | hnorm | hmax : b / 2 ^ 23 = 0 ∨ (0 < b / 2 ^ 23 ∧ b / 2 ^ 23 < 255) ∨ b / 2 ^ 23 = 255 := by omega
  · have hfin : b < 0x7F800000 := by omega
    rw [if_pos hfin, if_neg (by omega), if_pos hsub, if_pos hsub, Nat.mod_eq_of_lt (by omega)]
  · have hfin : b < 0x7F800000 := by omega
    rw [if_pos hfin, if_neg hnorm.2.ne, if_neg hnorm.1.ne', if_neg hnorm.1.ne']
  · have hfin : ¬ b < 0x7F800000 := by omega
    have hinf : b % 2 ^ 23 = 0 ↔ b = 0x7F800000 := by omega
    simp only [if_neg hfin, if_pos hmax, hinf]

theorem fval_eq_finite_iff {x : F} {s : Bool} {m : Nat} :
    fval x = .finite s m ↔ magnitudeBits x < 0x7F800000 ∧ x.msb = s ∧ finiteMagnitude (magnitudeBits x) = m := by
  rw [fval_eq]
  split
  · simp [*]
  · split <;> simp [*]

theorem fval_eq_inf_iff {x : F} {s : Bool} : fval x = .inf s ↔ magnitudeBits x = 0x7F800000 ∧ x.msb = s := by
  rw [fval_eq]
  split
  · rename_i hfin
    simp [hfin.ne]
  · split <;> simp [*]

theorem fval_eq_nan_iff {x : F} : fval x = .nan ↔ 0x7F800000 < magnitudeBits x := by
  rw [fval_eq]
  split
  · rename_i hfin
    simp [hfin.le]
  · split
    · rename_i hinf
      simp [hinf]
    · simp only [true_iff]
      omega

theorem magnitudeBits_withSign (neg : Bool) {b : Nat} (hb : b < 2 ^ 31) : magnitudeBits (withSign neg b) = b := by
  cases neg <;> simp [withSign, magnitudeBits] <;> omega

theorem msb_withSign (neg : Bool) {b : Nat} (hb : b < 2 ^ 31) : (withSign neg b).msb = neg := by
  cases neg <;> simp [withSign, BitVec.msb_eq_decide] <;> omega

/-- A sign and magnitude bits below infinity's stand for the finite value they name. -/
theorem fval_withSign (neg : Bool) {b : Nat} (hb : b < 0x7F800000) :
    fval (withSign neg b) = .finite neg (finiteMagnitude b) := by
  have hlt : b < 2 ^ 31 := by omega
  rw [fval_eq_finite_iff, magnitudeBits_withSign neg hlt, msb_withSign neg hlt]
  exact ⟨hb, rfl, rfl⟩

@[simp] theorem fval_infF (neg : Bool) : fval (infF neg) = .inf neg :=
  fval_eq_inf_iff.2 ⟨magnitudeBits_withSign neg (by decide), msb_withSign neg (by decide)⟩

/-- `round_F` as a word: the sign in bit 31, the rounded magnitude below it. -/
theorem roundUnits_eq (neg : Bool) (num den : Nat) :
    roundUnits neg num den = BitVec.ofNat 32 ((if neg then 2 ^ 31 else 0) + roundMag num den) := withSign_eq _ _

@[simp] theorem signedMag_false (m : Nat) : signedMag false m = m := rfl

@[simp] theorem signedMag_true (m : Nat) : signedMag true m = -m := rfl

theorem signedMag_not (s : Bool) (m : Nat) : signedMag (!s) m = -signedMag s m := by cases s <;> simp

/-- A sum of finite values that is not 0 is rounded once. -/
theorem addVal_finite_of_ne_zero (nan : F) {s t : Bool} {m n : Nat} (h : signedMag s m + signedMag t n ≠ 0) :
    addVal nan (.finite s m) (.finite t n) =
      BitVec.ofNat 32 ((if signedMag s m + signedMag t n < 0 then 2 ^ 31 else 0) +
        roundMag (signedMag s m + signedMag t n).natAbs 1) := by
  simp [addVal, h, roundUnits_eq]

/-- A sum of finite values that is 0 is -0.0 when both are negative, and +0.0 otherwise. -/
theorem addVal_finite_of_eq_zero (nan : F) {s t : Bool} {m n : Nat} (h : signedMag s m + signedMag t n = 0) :
    addVal nan (.finite s m) (.finite t n) = if s = true ∧ t = true then 0x80000000#32 else 0#32 := by
  simp only [addVal, if_pos h]
  cases s <;> cases t <;> rfl

section Finite
variable {x y : F} {s t : Bool} {m n : Nat} (hx : fval x = .finite s m) (hy : fval y = .finite t n)
include hx hy

theorem fadd_finite : fadd x y = addVal (nanOf .add x y) (.finite s m) (.finite t n) := by rw [fadd, hx, hy]

theorem fsub_finite : fsub x y = addVal (nanOf .sub x y) (.finite s m) (.finite (!t) n) := by rw [fsub, hx, hy]; rfl

theorem fmul_finite : fmul x y = roundUnits (s ^^ t) (m * n) (2 ^ 149) := by simp only [fmul, hx, hy]

theorem fdiv_finite : fdiv x y =
    if n = 0 then (if m = 0 then nanOf .div x y else infF (s ^^ t)) else roundUnits (s ^^ t) (m * 2 ^ 149) n := by
  simp only [fdiv, hx, hy]

end Finite

/-- The sign of a product or a quotient. -/
theorem xor_sign_eq (s t : Bool) : (if (s ^^ t) = true then 2 ^ 31 else 0) = if s = t then 0 else 2 ^ 31 := by
  cases s <;> cases t <;> rfl

/-! ## The parts of the statement -/

/-- What the encodings stand for. -/
theorem fval_of_magnitudeBits (x : F) :
    (magnitudeBits x < 0x7F800000 → fval x = .finite x.msb (finiteMagnitude (magnitudeBits x))) ∧
    (magnitudeBits x = 0x7F800000 → fval x = .inf x.msb) ∧ (0x7F800000 < magnitudeBits x → fval x = .nan) :=
  ⟨fun h => fval_eq_finite_iff.2 ⟨h, rfl, rfl⟩, fun h => fval_eq_inf_iff.2 ⟨h, rfl⟩, fval_eq_nan_iff.2⟩

/-- Among all finite encodings the one chosen is nearest, and it is even when another is as near. -/
theorem roundMag_nearest_even (num : Nat) {den : Nat} (hden : 0 < den) (hfin : roundMag num den < 0x7F800000) (b : Nat) :
    ((finiteMagnitude (roundMag num den) * den : Int) - num).natAbs ≤ ((finiteMagnitude b * den : Int) - num).natAbs ∧
    (((finiteMagnitude (roundMag num den) * den : Int) - num).natAbs = ((finiteMagnitude b * den : Int) - num).natAbs →
      b = roundMag num den ∨ roundMag num den % 2 = 0) := by
  by_cases hb : b = roundMag num den
  · exact ⟨by rw [hb], fun _ => .inl hb⟩
  · obtain ⟨hle, hodd⟩ := roundMag_nearest num hden hfin hb
    refine ⟨hle, fun htie => .inr ?_⟩
    by_contra hne
    exact absurd htie (hodd (by omega)).ne

/-- The operations on finite operands, with the operands' signed values `a` and `b`. -/
theorem ops_finite {x y : F} {s t : Bool} {m n : Nat} {a b : Int} (hx : fval x = .finite s m) (hy : fval y = .finite t n)
    (ha : a = signedMag s m) (hb : b = signedMag t n) :
    (a + b ≠ 0 → fadd x y = BitVec.ofNat 32 ((if a + b < 0 then 2 ^ 31 else 0) + roundMag (a + b).natAbs 1)) ∧
    (a + b = 0 → fadd x y = if s = true ∧ t = true then 0x80000000#32 else 0#32) ∧
    (a - b ≠ 0 → fsub x y = BitVec.ofNat 32 ((if a - b < 0 then 2 ^ 31 else 0) + roundMag (a - b).natAbs 1)) ∧
    (a - b = 0 → fsub x y = if s = true ∧ t = false then 0x80000000#32 else 0#32) ∧
    (fmul x y = BitVec.ofNat 32 ((if s = t then 0 else 2 ^ 31) + roundMag (m * n) (2 ^ 149))) ∧
    (n ≠ 0 → fdiv x y = BitVec.ofNat 32 ((if s = t then 0 else 2 ^ 31) + roundMag (m * 2 ^ 149) n)) ∧
    (n = 0 → m ≠ 0 → fdiv x y = if s = t then 0x7F800000#32 else 0xFF800000#32) ∧
    (n = 0 → m = 0 → fval (fdiv x y) = .nan) := by
  have hsub : a - b = signedMag s m + signedMag (!t) n := by rw [signedMag_not, ha, hb, sub_eq_add_neg]
  rw [hsub, ha, hb, fadd_finite hx hy, fsub_finite hx hy, fmul_finite hx hy, fdiv_finite hx hy]
  refine ⟨addVal_finite_of_ne_zero _, addVal_finite_of_eq_zero _, addVal_finite_of_ne_zero _, fun h => ?_, ?_, fun hn => ?_,
    fun hn hm => ?_, fun hn hm => ?_⟩
  · simp only [addVal_finite_of_eq_zero _ h, Bool.not_eq_true']
  · rw [roundUnits_eq, xor_sign_eq]
  · rw [if_neg hn, roundUnits_eq, xor_sign_eq]
  · rw [if_pos hn, if_neg hm]
    cases s <;> cases t <;> rfl
  · rw [if_pos hn, if_pos hm, fval_nanOf]

/-- Two infinities. -/
theorem ops_inf_inf (s t : Bool) :
    fadd (infF s) (infF s) = infF s ∧ fsub (infF s) (infF (!s)) = infF s ∧ fmul (infF s) (infF t) = infF (s ^^ t) ∧
      fval (fadd (infF s) (infF (!s))) = .nan ∧ fval (fsub (infF s) (infF s)) = .nan ∧
      fval (fdiv (infF s) (infF t)) = .nan := by
  simp [fadd, fsub, fmul, fdiv, addVal, negVal]

/-- An infinity and a finite value, in either order. -/
theorem ops_inf_finite (s : Bool) {t : Bool} {y : F} {n : Nat} (hy : fval y = .finite t n) :
    fadd (infF s) y = infF s ∧ fadd y (infF s) = infF s ∧ fsub (infF s) y = infF s ∧ fsub y (infF s) = infF (!s) ∧
      fdiv (infF s) y = infF (s ^^ t) ∧ fdiv y (infF s) = (if s = t then 0#32 else 0x80000000#32) ∧
      (n ≠ 0 → fmul (infF s) y = infF (s ^^ t) ∧ fmul y (infF s) = infF (s ^^ t)) ∧
      (n = 0 → fval (fmul (infF s) y) = .nan ∧ fval (fmul y (infF s)) = .nan) := by
  have hzero : withSign (t ^^ s) 0 = if s = t then 0#32 else 0x80000000#32 := by cases s <;> cases t <;> rfl
  refine ⟨?_, ?_, ?_, ?_, ?_, ?_, fun hn => ?_, fun hn => ?_⟩
  · simp only [fadd, fval_infF, hy, addVal]
  · simp only [fadd, fval_infF, hy, addVal]
  · simp only [fsub, fval_infF, hy, negVal, addVal]
  · simp only [fsub, fval_infF, hy, negVal, addVal]
  · simp only [fdiv, fval_infF, hy]
  · simp only [fdiv, fval_infF, hy, hzero]
  · simp only [fmul, fval_infF, hy, if_neg hn, Bool.xor_comm t s, and_self]
  · simp only [fmul, fval_infF, hy, if_pos hn, fval_nanOf, and_self]

/-- A sum with a NaN is the NaN to answer. -/
theorem addVal_nan {nan : F} {u v : FVal} (h : u = .nan ∨ v = .nan) : addVal nan u v = nan := by
  obtain rfl | rfl := h
  · rfl
  · cases u <;> rfl

/-- Every operation with a NaN operand answers a NaN. -/
theorem ops_nan {x y : F} (h : fval x = .nan ∨ fval y = .nan) :
    fval (fadd x y) = .nan ∧ fval (fsub x y) = .nan ∧ fval (fmul x y) = .nan ∧ fval (fdiv x y) = .nan := by
  have hneg : fval x = .nan ∨ negVal (fval y) = .nan := h.imp_right fun hy => by rw [hy]; rfl
  have hmul : fmul x y = nanOf .mul x y := by
    unfold fmul
    obtain hx | hy := h
    · rw [hx]
    · rw [hy]; cases fval x <;> rfl
  have hdiv : fdiv x y = nanOf .div x y := by
    unfold fdiv
    obtain hx | hy := h
    · rw [hx]
    · rw [hy]; cases fval x <;> rfl
  rw [fadd, fsub, addVal_nan h, addVal_nan hneg, hmul, hdiv]
  exact ⟨fval_nanOf _ _ _, fval_nanOf _ _ _, fval_nanOf _ _ _, fval_nanOf _ _ _⟩

/-- Settles O18: the rounding by the grid of its exponent step, the operations by the cases of their operands. -/
theorem roundsToNearestEven : Obligations.RoundsToNearestEven := by
  refine ⟨fval_of_magnitudeBits, fun num den hden => ?_, fun x y s t m n a b => ops_finite, fun inf s t y n hinf => ?_,
    fun x y => ops_nan⟩
  · exact ⟨fun hfin b _ => roundMag_nearest_even num hden hfin b, roundMag_le num den, roundMag_eq_inf_iff num hden⟩
  · obtain rfl : inf = infF := by
      funext u
      cases u
      · exact hinf.1
      · exact hinf.2
    exact ⟨ops_inf_inf s t, ops_inf_finite s⟩

end Sys2Proof.Machine
end

section
/-! Conversions and comparisons of binary32, and the samples that convert exactly (00_scope.md R15; 41_resampler.md R182,
R183). -/

namespace Sys2Proof.Machine

open Sys2Proof

/-- Rounding keeps a value whose significand has at most 24 bits and whose magnitude is in range. -/
theorem fval_roundUnits_exact (neg : Bool) {num den d e : Nat} (hden : 0 < den) (hnum : num = d * 2 ^ e * den)
    (hd : d ≤ 2 ^ 24) (he : e ≤ 252) : fval (roundUnits neg num den) = .finite neg (d * 2 ^ e) := by
  obtain ⟨b, hb⟩ := exists_finiteMagnitude_eq e d hd
  have hfin : b < 0x7F800000 := by
    rw [← finiteMagnitude_lt_iff, hb]
    calc d * 2 ^ e ≤ 2 ^ 24 * 2 ^ 252 := Nat.mul_le_mul hd (Nat.pow_le_pow_right (by decide) he)
      _ < 2 ^ 277 := by decide +kernel
  rw [hnum, ← hb, roundUnits, roundMag_finiteMagnitude hfin hden, fval_withSign neg hfin]

/-- Integers of at most 24 bits convert exactly. -/
theorem fval_fOfInt {n : Int} (hn : n.natAbs ≤ 2 ^ 24) :
    fval (fOfInt n) = .finite (decide (n < 0)) (n.natAbs * 2 ^ 149) :=
  fval_roundUnits_exact _ one_pos (mul_one _).symm hn (by decide)

theorem signedMag_natAbs (n : Int) : signedMag (decide (n < 0)) n.natAbs = n := by
  by_cases hn : n < 0
  · rw [decide_eq_true hn, signedMag_true]
    omega
  · rw [decide_eq_false hn, signedMag_false]
    omega

/-- The conversion of a finite value truncates, then saturates. -/
theorem intOfF_finite {x : F} {s : Bool} {m : Nat} (hx : fval x = .finite s m) :
    intOfF x = min (max (signedMag s (m / 2 ^ 149)) (-(2 ^ 31))) (2 ^ 31 - 1) := by rw [intOfF, hx]

/-- An integer of at most 24 bits comes back. -/
theorem intOfF_fOfInt {n : Int} (hn : n.natAbs ≤ 2 ^ 24) : intOfF (fOfInt n) = n := by
  rw [intOfF_finite (fval_fOfInt hn), Nat.mul_div_cancel _ (by positivity), signedMag_natAbs]
  omega

/-- RS.WRITE's sample is its operand (R182). -/
theorem intOfF_sampleOfImm (sample : BitVec 16) : intOfF (sampleOfImm sample) = sample.toInt := by
  have hlo := BitVec.le_toInt sample
  have hhi := BitVec.toInt_lt (x := sample)
  exact intOfF_fOfInt (n := sample.toInt) (by omega)

/-- The scale of RS.WRITEF is an exact power of two. -/
theorem fval_twoPowNeg {k : Nat} (hk : k < 127) : fval (twoPowNeg k) = .finite false (2 ^ (149 - k)) := by
  have hbits : twoPowNeg k = withSign false ((126 - k) * 2 ^ 23 + 2 ^ 23) := by
    rw [← Nat.succ_mul, show (126 - k).succ = 127 - k by omega]
    rfl
  rw [hbits, fval_withSign _ (by omega), finiteMagnitude_step (by decide) (.inr le_rfl), ← pow_add,
    show 23 + (126 - k) = 149 - k by omega]

/-- RS.WRITEF's sample is its operand scaled by 2^-(depth-1), with no rounding (R183). -/
theorem fval_sampleOfFixed (value : Word) (depth : BitVec 6) (hv : value.toInt.natAbs < 2 ^ 24) :
    fval (sampleOfFixed value depth) =
      .finite (decide (value.toInt < 0)) (value.toInt.natAbs * 2 ^ (150 - min (max depth.toNat 1) 32)) := by
  have hscale := fval_twoPowNeg (k := depthOfImm depth - 1) (by unfold depthOfImm; omega)
  have hexp : 149 - (depthOfImm depth - 1) = 150 - min (max depth.toNat 1) 32 := by unfold depthOfImm; omega
  rw [sampleOfFixed, sword, fmul_finite (fval_fOfInt hv.le) hscale, Bool.xor_false, hexp]
  exact fval_roundUnits_exact _ (by positivity) (by ring) hv.le (by omega)

/-- A finite value below 2^31 is truncated toward zero. -/
theorem intOfF_of_lt {x : F} {s : Bool} {m : Nat} (hx : fval x = .finite s m) (hm : m < 2 ^ 180) :
    (intOfF x).natAbs * 2 ^ 149 ≤ m ∧ m < ((intOfF x).natAbs + 1) * 2 ^ 149 ∧
      if s then intOfF x ≤ 0 else 0 ≤ intOfF x := by
  have hq : m / 2 ^ 149 < 2 ^ 31 := by omega
  have hval : intOfF x = signedMag s (m / 2 ^ 149) := by
    rw [intOfF_finite hx]
    cases s
    · rw [signedMag_false]; omega
    · rw [signedMag_true]; omega
  rw [hval]
  cases s
  · simp only [signedMag_false, Bool.false_eq_true, if_false]; omega
  · simp only [signedMag_true, if_true]; omega

/-- A finite value from 2^31 on saturates. -/
theorem intOfF_of_le {x : F} {s : Bool} {m : Nat} (hx : fval x = .finite s m) (hm : 2 ^ 180 ≤ m) :
    intOfF x = if s then -2 ^ 31 else 2 ^ 31 - 1 := by
  have hq : 2 ^ 31 ≤ m / 2 ^ 149 := by omega
  rw [intOfF_finite hx]
  cases s
  · simp only [signedMag_false, Bool.false_eq_true, if_false]; omega
  · simp only [signedMag_true, if_true]; omega

/-- A value differs from 0 unless its encoding is one of the two zeros. -/
theorem fneZero_iff (x : F) : fneZero x = true ↔ magnitudeBits x ≠ 0 := by
  have hzero : finiteMagnitude 0 = 0 := rfl
  unfold fneZero
  cases hx : fval x with
  | nan =>
    have hnan := fval_eq_nan_iff.1 hx
    simp only [true_iff]
    omega
  | inf s =>
    have hinf := (fval_eq_inf_iff.1 hx).1
    simp [hinf]
  | finite s m =>
    obtain ⟨-, -, rfl⟩ := fval_eq_finite_iff.1 hx
    simpa [hzero] using (finiteMagnitude_strictMono.injective.ne_iff (x := magnitudeBits x) (y := 0))

/-- `|a| < b` is the order of the magnitudes; a NaN or a negative b makes it false. -/
theorem fabsLt_iff (x y : F) :
    fabsLt x y = true ↔ magnitudeBits x ≤ 0x7F800000 ∧ y.toNat ≤ 0x7F800000 ∧ magnitudeBits x < y.toNat := by
  have hsign := toNat_eq_sign_add_magnitudeBits y
  unfold fabsLt
  cases hx : fval x with
  | nan =>
    have hnan := fval_eq_nan_iff.1 hx
    simp only [Bool.false_eq_true, false_iff]
    omega
  | inf s =>
    have hinf := (fval_eq_inf_iff.1 hx).1
    have hfalse : ¬ (magnitudeBits x ≤ 0x7F800000 ∧ y.toNat ≤ 0x7F800000 ∧ magnitudeBits x < y.toNat) := by omega
    cases fval y <;> simp only [Bool.false_eq_true, hfalse]
  | finite s m =>
    obtain ⟨hxfin, -, rfl⟩ := fval_eq_finite_iff.1 hx
    cases hy : fval y with
    | nan =>
      have hnan := fval_eq_nan_iff.1 hy
      simp only [Bool.false_eq_true, false_iff]
      omega
    | inf t =>
      obtain ⟨hyinf, rfl⟩ := fval_eq_inf_iff.1 hy
      cases hmsb : y.msb <;> rw [hmsb] at hsign <;>
        simp only [Bool.not_false, Bool.not_true, Bool.false_eq_true, true_iff, false_iff, if_true, if_false] at hsign ⊢
      · omega
      · omega
    | finite t n =>
      obtain ⟨hyfin, rfl, rfl⟩ := fval_eq_finite_iff.1 hy
      simp only [finiteMagnitude_strictMono.lt_iff_lt]
      cases hmsb : y.msb <;> rw [hmsb] at hsign <;>
        simp only [Bool.not_false, Bool.not_true, Bool.true_and, Bool.false_and, Bool.false_eq_true, false_iff,
          decide_eq_true_eq, if_true, if_false] at hsign ⊢
      · omega
      · omega

/-- Settles O19: the exact conversions by the exactness of rounding, the comparisons by the order of the encodings. -/
theorem sampleConversionExact : Obligations.SampleConversionExact := by
  refine ⟨fun n hn => ⟨fval_fOfInt hn, intOfF_fOfInt hn⟩, intOfF_sampleOfImm, fval_sampleOfFixed,
    fun n den f => ⟨?_, rfl, rfl⟩, fun x s m => ⟨intOfF_of_lt, intOfF_of_le, ?_, ?_⟩,
    fun x y => ⟨fneZero_iff x, fabsLt_iff x y⟩⟩
  · simp only [roundRat, roundUnits_eq, decide_eq_true_eq]
  · intro hx
    rw [intOfF, hx]
  · intro hx
    rw [intOfF, hx]

end Sys2Proof.Machine
end

section
/-! Every command keeps a legal state legal (10_state.md R37, R40; 44_declick.md R305): first the updates of the state
and the parts of a voice, then the checks, then the commands. -/

namespace Sys2Proof.Machine

open Sys2Proof

/-! ## Updates of the state -/

theorem State.emit_wf {s : State} {w : Word} (hs : s.wf) : (s.emit w).wf := hs
theorem State.setAcc_wf {s : State} {w : Word} (hs : s.wf) : (s.setAcc w).wf := hs
theorem State.setDraws_wf {s : State} {d : Nat} (hs : s.wf) : (s.setDraws d).wf := hs
theorem State.setInput_wf {s : State} {ws : List Word} (hs : s.wf) : (s.setInput ws).wf := hs
theorem State.raise_wf {s : State} {e : ErrCode} (hs : s.wf) : (s.raise e).wf := hs
theorem State.clearStatus_wf {s : State} {w : Word} (hs : s.wf) : (s.clearStatus w).wf := hs

/-- Storing a legal voice context keeps a legal state. -/
theorem State.setVoice_wf {s : State} {v : VoiceIx} {c : Voice} (hs : s.wf) (hc : c.wf) : (s.setVoice v c).wf := by
  obtain ⟨hpos, hmax, hparams, hramp, hvoices⟩ := hs
  refine ⟨by simpa using hpos, by simpa using hmax, hparams, hramp, fun d hd => ?_⟩
  rcases State.mem_setVoice hd with rfl | hd
  · exact hc
  · exact hvoices d hd

/-- A voice that is read from a legal state is legal. -/
theorem State.voice?_wf {s : State} (hs : s.wf) {v : VoiceIx} {c : Voice} (h : s.voice? v = some c) : c.wf := by
  obtain ⟨-, -, -, -, hvoices⟩ := hs
  exact hvoices c (State.mem_of_voice? h)

/-- What RAMP_DELTA stores, as the clamp of the spec (10_state.md R37). -/
theorem rampDeltaOfWord_toInt (w : Word) : (rampDeltaOfWord w).toInt = min (max w.toInt 1) 0x7FFFF := by
  simp only [rampDeltaOfWord, u32, clamp, sword, Config.volMax, BitVec.toInt_ofInt]
  rw [Int.bmod_eq_of_le] <;> omega

theorem rampDeltaOfWord_wf (w : Word) : rampDeltaWf (rampDeltaOfWord w) := by
  have hval := rampDeltaOfWord_toInt w
  simp only [BitVec.toInt_eq_toNat_cond] at hval
  simp only [rampDeltaWf, Config.volMax]
  split at hval <;> omega

theorem State.setRampDelta_wf {s : State} {w : Word} (hs : s.wf) : (s.setRampDelta (rampDeltaOfWord w)).wf := by
  obtain ⟨hpos, hmax, hparams, -, hvoices⟩ := hs
  exact ⟨hpos, hmax, hparams, rampDeltaOfWord_wf w, hvoices⟩

/-- REG.WR to a global register keeps a legal state. -/
theorem writeGlobal_wf {s : State} {r : GReg} {w : Word} (hs : s.wf) : (writeGlobal s r w).wf := by
  cases r with
  | status => exact State.clearStatus_wf hs
  | macAcc => exact State.setAcc_wf hs
  | rampDelta => exact State.setRampDelta_wf hs
  | id | nv | caps => exact hs

/-! ## The declick unit (44_declick.md R305) -/

/-- Below stage 4 the declick unit has no invariant to keep. -/
theorem Declick.wf_of_stage_lt {st : Stage} {cur tgt : Sides (BitVec 19)} (h : st.toNat < 4) :
    Declick.wf ⟨st, cur, tgt⟩ :=
  fun hd => absurd h (Nat.not_lt.2 hd)

/-- The cut never moves a stage to 4 or 5 (R306). -/
theorem Stage.four_le_cut_iff (st : Stage) : 4 ≤ st.cut.toNat ↔ 4 ≤ st.toNat := by
  cases st <;> decide

/-- Housekeeping moves stage 4 to 5 only (R308). -/
theorem Stage.four_le_housekeep_iff (st : Stage) : 4 ≤ st.housekeep.toNat ↔ 4 ≤ st.toNat := by
  cases st <;> decide

theorem Declick.cut_wf {d : Declick} (hd : d.wf) : ({ d with stage := d.stage.cut } : Declick).wf :=
  fun h => hd (d.stage.four_le_cut_iff.1 h)

theorem Declick.housekeep_wf {d : Declick} (hd : d.wf) : ({ d with stage := d.stage.housekeep } : Declick).wf :=
  fun h => hd (d.stage.four_le_housekeep_iff.1 h)

/-- A ramp step enters stage 4 only when it has brought the volume to 0 (R305). -/
theorem Declick.step_wf {d : Declick} (hd : d.wf) (δ : Nat) : (d.step δ).wf := by
  cases hst : d.stage <;> simp only [Declick.step, hst]
  case silent => exact wf_of_stage_lt (by decide)
  case rampingIn => split <;> exact wf_of_stage_lt (by decide)
  case steady => exact wf_of_stage_lt (by decide)
  case cutRequested =>
    split
    · exact fun _ => ‹_›
    · exact wf_of_stage_lt (by decide)
  case rampedOut => exact hd
  case dead => exact hd

/-! ## Lanes and voices -/

theorem Lane.wf_rate {l : Lane} (hl : l.wf) : l.rateWf := by
  obtain ⟨-, -, -, hrate⟩ := hl
  exact hrate

/-- What is legal in a voice is its lanes and its declick unit. -/
theorem Voice.wf_of_eq {c c' : Voice} (hc : c.wf) (hlanes : c'.lanes = c.lanes) (hd : c'.declick = c.declick) :
    c'.wf := by
  unfold Voice.wf
  rw [hlanes, hd]
  exact hc

/-- A legal voice has a legal declick unit. -/
theorem Voice.wf_declick {c : Voice} (hc : c.wf) : c.declick.wf := by
  obtain ⟨-, -, hd⟩ := hc
  exact hd

/-- A legal voice has a legal lane on each side. -/
theorem Voice.wf_lane {c : Voice} (hc : c.wf) (x : Side) : (c.lanes.get x).wf := by
  obtain ⟨hleft, hright, -⟩ := hc
  cases x with
  | left => exact hleft
  | right => exact hright

/-- Storing a legal lane keeps a legal voice. -/
theorem Voice.setLane_wf {c : Voice} (hc : c.wf) (x : Side) {l : Lane} (hl : l.wf) :
    ({ c with lanes := c.lanes.set x l } : Voice).wf := by
  obtain ⟨hleft, hright, hd⟩ := hc
  cases x with
  | left => exact ⟨hl, hright, hd⟩
  | right => exact ⟨hleft, hl, hd⟩

/-- Both lanes of a legal voice may be stored together. -/
theorem Voice.setLanes_wf {c src : Voice} (hc : c.wf) (hsrc : src.wf) : ({ c with lanes := src.lanes } : Voice).wf := by
  obtain ⟨-, -, hd⟩ := hc
  obtain ⟨hleft, hright, -⟩ := hsrc
  exact ⟨hleft, hright, hd⟩

/-- A lane function that keeps the lane invariants keeps a legal voice, whichever lanes LANE names. -/
theorem Voice.updateLanes_wf {c : Voice} (hc : c.wf) (lane : LaneSel) {f : Lane → Lane} (hf : ∀ l, l.wf → (f l).wf) :
    ({ c with lanes := c.lanes.update lane f } : Voice).wf := by
  obtain ⟨hleft, hright, hd⟩ := hc
  cases lane with
  | left => exact ⟨hf _ hleft, hright, hd⟩
  | right => exact ⟨hleft, hf _ hright, hd⟩
  | both => exact ⟨hf _ hleft, hf _ hright, hd⟩
  | reserved => exact ⟨hleft, hright, hd⟩

/-- A new declick state that is legal keeps a legal voice. -/
theorem Voice.setDeclick_wf {c : Voice} (hc : c.wf) {d : Declick} (hd : d.wf) :
    ({ c with declick := d } : Voice).wf := by
  obtain ⟨hleft, hright, -⟩ := hc
  exact ⟨hleft, hright, hd⟩

/-- FADE.TICK touches the declick unit by the cut alone (43_envelope_lfo.md R275). -/
theorem Voice.fadeTick_wf {c : Voice} (hc : c.wf) : c.fadeTick.wf := by
  obtain ⟨hleft, hright, hd⟩ := hc
  unfold Voice.fadeTick
  split
  · refine ⟨hleft, hright, ?_⟩
    dsimp only
    split
    · exact Declick.cut_wf hd
    · exact hd
  · exact ⟨hleft, hright, hd⟩

/-- REG.WR reaches neither the lanes nor the stage and the ramp volume (10_state.md R49, R50, R55). -/
theorem writeVoice_wf {c : Voice} (hc : c.wf) (r : VReg) (w : Word) : (writeVoice c r w).wf := by
  cases r <;> exact hc

/-! ## The checks and the commands -/

/-- An answer that is no illegal state. -/
def LegalAnswer (o : Out) : Prop := ∀ t, o = .next t → t.wf

theorem LegalAnswer.next {s : State} (hs : s.wf) : LegalAnswer (.next s) := by
  rintro t ⟨⟩
  exact hs

theorem LegalAnswer.withVoice {s : State} (hs : s.wf) (v : VoiceIx) {k : Voice → Out}
    (hk : ∀ c, c.wf → LegalAnswer (k c)) : LegalAnswer (withVoice v s k) := by
  intro t h
  rcases withVoice_cases h with ⟨c, hc, ho⟩ | ⟨-, ho⟩
  · exact hk c (State.voice?_wf hs hc) t ho
  · cases ho; exact State.raise_wf hs

theorem LegalAnswer.withSide {s : State} (hs : s.wf) (lane : LaneSel) {k : Side → Out}
    (hk : ∀ x, LegalAnswer (k x)) : LegalAnswer (withSide lane s k) := by
  intro t h
  rcases withSide_cases h with ⟨x, -, ho⟩ | ⟨-, ho⟩
  · exact hk x t ho
  · cases ho; exact State.raise_wf hs

theorem LegalAnswer.withSel {s : State} (hs : s.wf) (sel : Sel) {k : Fin 3 → Out}
    (hk : ∀ j, LegalAnswer (k j)) : LegalAnswer (withSel sel s k) := by
  intro t h
  rcases withSel_cases h with ⟨j, -, ho⟩ | ⟨-, ho⟩
  · exact hk j t ho
  · cases ho; exact State.raise_wf hs

/-- A command on one voice keeps a legal state when it keeps that voice legal. -/
theorem LegalAnswer.updateVoice {s : State} (hs : s.wf) (v : VoiceIx) {f : Voice → Voice}
    (hf : ∀ c, c.wf → (f c).wf) : LegalAnswer (updateVoice v s f) :=
  .withVoice hs v fun c hc => .next (State.setVoice_wf hs (hf c hc))

/-- A command on the lanes LANE names keeps a legal state when it keeps each lane legal. -/
theorem LegalAnswer.updateLanes {s : State} (hs : s.wf) (v : VoiceIx) (lane : LaneSel) {f : Lane → Lane}
    (hf : ∀ l, l.wf → (f l).wf) : LegalAnswer (updateLanes v lane s f) := by
  intro t h
  rcases updateLanes_cases h with ⟨c, hc, -, ho⟩ | ⟨-, ho⟩ | ⟨-, ho⟩ <;> cases ho
  · exact State.setVoice_wf hs (Voice.updateLanes_wf (State.voice?_wf hs hc) lane hf)
  · exact State.raise_wf hs
  · exact State.raise_wf hs

/-- A command on one lane of one voice. -/
theorem LegalAnswer.withLane {s : State} (hs : s.wf) (v : VoiceIx) (lane : LaneSel) {k : Voice → Side → Lane → Out}
    (hk : ∀ c x, c.wf → LegalAnswer (k c x (c.lanes.get x))) : LegalAnswer (withLane v lane s k) :=
  .withVoice hs v fun c hc => .withSide hs lane fun x => hk c x hc

/-- The commands that run the lazy fill (41_resampler.md R166, R186 to R188). -/
theorem LegalAnswer.fillThenEmit {s : State} (hs : s.wf) (v : VoiceIx) (lane : LaneSel) (f : Lane → Word) :
    LegalAnswer (fillThenEmit v lane s f) :=
  .withLane hs v lane fun _ x hc => .next <| State.emit_wf (State.setDraws_wf (State.setVoice_wf hs
    (Voice.setLane_wf hc x (ensureOutput_wf s.params s.draws (Voice.wf_lane hc x)))))

/-- RS.DUP copies legal lanes (R190). -/
theorem execRsDup_legal {s : State} (hs : s.wf) (v : VoiceIx) (lane : LaneSel) (srcVoice : VoiceIx) (srcLane : Side) :
    LegalAnswer (execRsDup v lane srcVoice srcLane s) := by
  refine .withVoice hs v fun c hc => ?_
  cases lane with
  | left =>
    exact .withVoice hs srcVoice fun src hsrc => .next (State.setVoice_wf hs
      (Voice.setLane_wf hc .left (Voice.wf_lane hsrc srcLane)))
  | right =>
    exact .withVoice hs srcVoice fun src hsrc => .next (State.setVoice_wf hs
      (Voice.setLane_wf hc .right (Voice.wf_lane hsrc srcLane)))
  | both =>
    exact .withVoice hs srcVoice fun src hsrc => .next (State.setVoice_wf hs (Voice.setLanes_wf hc hsrc))
  | reserved => exact .next (State.raise_wf hs)

/-- REG.RD changes no voice (45_control.md R322). -/
theorem execRegRd_legal {s : State} (hs : s.wf) (v : VoiceIx) (idx : BitVec 12) : LegalAnswer (execRegRd v idx s) := by
  unfold execRegRd
  split
  · split <;> exact .next hs
  · refine .withVoice hs v fun c _ => ?_
    split <;> exact .next hs

/-- REG.WR stores legal values (45_control.md R323). -/
theorem execRegWr_legal {s : State} (hs : s.wf) (v : VoiceIx) (idx : BitVec 12) (w : Word) :
    LegalAnswer (execRegWr v idx w s) := by
  unfold execRegWr
  split
  · split
    · exact .next (State.raise_wf hs)
    · split
      · exact .next (State.raise_wf hs)
      · exact .next (writeGlobal_wf hs)
  · refine .withVoice hs v fun c hc => ?_
    split
    · exact .next (State.raise_wf hs)
    · split
      · exact .next (State.raise_wf hs)
      · exact .next (State.setVoice_wf hs (writeVoice_wf hc _ w))

/-- Every command keeps a legal state legal. -/
theorem exec_legal (i : Instr) {s : State} (hs : s.wf) : LegalAnswer (exec i s) := by
  cases i with
  | nop => exact .next hs
  | mulsc a b => exact .next (State.emit_wf hs)
  | mulscv a b => exact .next (State.emit_wf hs)
  | mulsca x c => exact .next (State.emit_wf hs)
  | mulsc16 a b => exact .next (State.emit_wf hs)
  | lerp a b f => exact .next (State.emit_wf hs)
  | aclr => exact .next (State.setAcc_wf hs)
  | aadd x => exact .next (State.setAcc_wf hs)
  | amac x c => exact .next (State.setAcc_wf hs)
  | ard => exact .next (State.emit_wf hs)
  | rsInit v lane => exact .updateLanes hs v lane fun l _ => l.init_eq ▸ Lane.reset_wf
  | rsClear v lane => exact .updateLanes hs v lane fun l hl => Lane.clear_wf (Lane.wf_rate hl)
  | rsSetq v lane level => exact .updateLanes hs v lane fun l hl => Lane.setQuality_wf _ hl
  | rsSetrate v lane lo hi => exact .updateLanes hs v lane fun l hl => Lane.setRate_wf _ hl
  | rsWrite v lane sample => exact .updateLanes hs v lane fun l hl => Lane.writeIn_wf _ hl
  | rsWritef v lane depth value => exact .updateLanes hs v lane fun l hl => Lane.writeIn_wf _ hl
  | rsFree v lane =>
    simp only [exec, execRsFree]
    exact .withLane hs v lane fun _ _ _ => .next (State.emit_wf hs)
  | rsReady v lane =>
    simp only [exec, execRsReady]
    exact .withLane hs v lane fun _ _ _ => .next (State.emit_wf hs)
  | rsCount v lane =>
    simp only [exec, execRsCount]
    exact .fillThenEmit hs v lane _
  | rsGet v lane =>
    simp only [exec, execRsGet]
    exact .fillThenEmit hs v lane _
  | rsGetf v lane =>
    simp only [exec, execRsGetf]
    exact .fillThenEmit hs v lane _
  | rsRemove v lane decay => exact .updateLanes hs v lane fun l hl => Lane.remove_wf _ _ hl
  | rsDup v lane srcVoice srcLane => exact execRsDup_legal hs v lane srcVoice srcLane
  | flCoef v cutoff resonance fs => exact .updateVoice hs v fun _ hc => Voice.wf_of_eq hc rfl rfl
  | flSetc v a b c => exact .updateVoice hs v fun _ hc => Voice.wf_of_eq hc rfl rfl
  | flRun v lane x =>
    refine .withVoice hs v fun c hc => .withSide hs lane fun y => ?_
    split
    · exact .next (State.emit_wf (State.setVoice_wf hs (Voice.wf_of_eq hc rfl rfl)))
    · exact .next (State.emit_wf hs)
  | flReset v => exact .updateVoice hs v fun _ hc => Voice.wf_of_eq hc rfl rfl
  | flEn v e => exact .updateVoice hs v fun _ hc => Voice.wf_of_eq hc rfl rfl
  | envReset v sel =>
    exact .withVoice hs v fun c hc => .withSel hs sel fun j => .next (State.setVoice_wf hs (Voice.wf_of_eq hc rfl rfl))
  | envTick v sel =>
    refine .withVoice hs v fun c hc => .withSel hs sel fun j => ?_
    dsimp only
    split
    · exact .next (State.emit_wf (State.emit_wf (State.setVoice_wf hs (Voice.wf_of_eq hc rfl rfl))))
    · exact .next (State.emit_wf (State.emit_wf hs))
  | envRead v sel => exact .withVoice hs v fun c _ => .withSel hs sel fun j => .next (State.emit_wf hs)
  | envRelease v k => exact .updateVoice hs v fun _ hc => Voice.wf_of_eq hc rfl rfl
  | fadeStart v => exact .updateVoice hs v fun _ hc => Voice.wf_of_eq hc rfl rfl
  | fadeTick v =>
    exact .withVoice hs v fun c hc => .next (State.emit_wf (State.setVoice_wf hs (Voice.fadeTick_wf hc)))
  | lfoReset v sel =>
    exact .withVoice hs v fun c hc => .withSel hs sel fun j => .next (State.setVoice_wf hs (Voice.wf_of_eq hc rfl rfl))
  | lfoTick v sel =>
    exact .withVoice hs v fun c hc => .withSel hs sel fun j =>
      .next (State.emit_wf (State.setVoice_wf hs (Voice.wf_of_eq hc rfl rfl)))
  | dckSettgt v l r => exact .updateVoice hs v fun _ hc => Voice.setDeclick_wf hc (Voice.wf_declick hc)
  | dckStep v xl xr =>
    exact .withVoice hs v fun c hc => .next (State.emit_wf (State.emit_wf (State.setVoice_wf hs
      (Voice.setDeclick_wf hc (Declick.step_wf (Voice.wf_declick hc) _)))))
  | dckCut v => exact .updateVoice hs v fun _ hc => Voice.setDeclick_wf hc (Declick.cut_wf (Voice.wf_declick hc))
  | dckRetrig v =>
    exact .updateVoice hs v fun _ hc => Voice.setDeclick_wf hc (Declick.wf_of_stage_lt (by decide))
  | dckHk v =>
    exact .withVoice hs v fun c hc => .next (State.emit_wf (State.setVoice_wf hs
      (Voice.setDeclick_wf hc (Declick.housekeep_wf (Voice.wf_declick hc)))))
  | regRd v idx => exact execRegRd_legal hs v idx
  | regWr v idx w => exact execRegWr_legal hs v idx w
  | vcReset v => exact .updateVoice hs v fun _ _ => Voice.reset_wf _

/-- Settles O8: a step runs a command on the state with its words consumed, or raises ERR_OPC. -/
theorem stepKeepsLegalState : Obligations.StepKeepsLegalState := by
  intro s t hs h
  unfold step at h
  split at h
  · exact exec_legal _ (State.setInput_wf hs) t h
  · cases h
    exact State.raise_wf (State.setInput_wf hs)
  · cases h

end Sys2Proof.Machine
end

section
/-! What a command leaves: every voice but the one it names, and the global registers, by the shapes of its answer
(`Effect`; 10_state.md R36 to R38). -/

namespace Sys2Proof.Machine

open Sys2Proof

/-- A command changes no voice but the one of its VOICE field. -/
theorem Effect.voice?_eq {i : Instr} {s t : State} (h : Effect i s t) {u : VoiceIx} (hu : i.voice? ≠ some u) :
    t.voice? u = s.voice? u := by
  cases h with
  | raised e => rfl
  | answered ws => rfl
  | accSet w h => rfl
  | rampSet v w h => rfl
  | statusCleared v w h => rfl
  | voiceSet v c c' d ws hi hc hd =>
    have huv : u ≠ v := fun e => hu (e ▸ hi)
    exact State.setVoice_voice?_ne s c' huv

theorem Effect.acc_eq {i : Instr} {s t : State} (h : Effect i s t) :
    t.acc = s.acc ∨ i = .aclr ∨ (∃ x, i = .aadd x) ∨ (∃ x c, i = .amac x c) ∨ ∃ v w, i = .regWr v 0x003#12 w := by
  cases h with
  | accSet w h => exact .inr h
  | raised | answered | rampSet | statusCleared | voiceSet => exact .inl rfl

theorem Effect.rampDelta_eq {i : Instr} {s t : State} (h : Effect i s t) :
    t.rampDelta = s.rampDelta ∨ ∃ v w, i = .regWr v 0x004#12 w := by
  cases h with
  | rampSet v w h => exact .inr ⟨v, w, h⟩
  | raised | answered | accSet | statusCleared | voiceSet => exact .inl rfl

theorem Effect.responses_append {i : Instr} {s t : State} (h : Effect i s t) :
    ∃ ws, t.responses = s.responses ++ ws := by
  cases h with
  | answered ws => exact ⟨ws, rfl⟩
  | voiceSet v c c' d ws => exact ⟨ws, rfl⟩
  | raised | accSet | rampSet | statusCleared => exact ⟨[], (List.append_nil _).symm⟩

theorem Effect.draws_eq {i : Instr} {s t : State} (h : Effect i s t) (hs : s.params.sumOrder = .scalar) :
    t.draws = s.draws := by
  cases h with
  | voiceSet v c c' d ws hi hc hd => exact hd hs
  | raised | answered | accSet | rampSet | statusCleared => rfl

/-- Settles O12: only a stored voice context changes a voice, and it is the named one. -/
theorem otherVoicesUnchanged : Obligations.OtherVoicesUnchanged :=
  fun i s t _ h hu => (exec_effect i s t h).voice?_eq hu

/-- Settles O13: each clause by the shapes of the answer. -/
theorem globalStateFrame : Obligations.GlobalStateFrame := by
  intro i s t h
  have he := exec_effect i s t h
  exact ⟨he.acc_eq, he.rampDelta_eq, he.responses_append, he.draws_eq⟩

end Sys2Proof.Machine
end

section
/-! REG.RD and REG.WR by index: a reserved index, a register that is read, one that refuses a write (10_state.md R48 to
R58; 45_control.md R321 to R323). -/

namespace Sys2Proof.Machine

open Sys2Proof

/-! ## The two commands on an index of each kind -/

theorem exec_regRd_global {s : State} (v : VoiceIx) {idx : BitVec 12} {r : GReg} (hlt : idx.toNat < 0x100)
    (hr : globalReg idx.toNat = some r) : exec (.regRd v idx) s = .next (s.emit (readGlobal s r)) := by
  simp only [exec, execRegRd, if_pos hlt, hr]

theorem exec_regRd_voice {s : State} {v : VoiceIx} {c : Voice} {idx : BitVec 12} {r : VReg} (hge : 0x100 ≤ idx.toNat)
    (hv : s.voice? v = some c) (hr : voiceReg idx.toNat = some r) :
    exec (.regRd v idx) s = .next (s.emit (readVoice c r)) := by
  simp only [exec, execRegRd, if_neg (Nat.not_lt.2 hge), withVoice_some _ hv, hr]

theorem exec_regWr_global {s : State} (v : VoiceIx) {idx : BitVec 12} {r : GReg} (w : Word) (hlt : idx.toNat < 0x100)
    (hr : globalReg idx.toNat = some r) :
    exec (.regWr v idx w) s = .next (if r.readOnly then s.raise .ro else writeGlobal s r w) := by
  simp only [exec, execRegWr, if_pos hlt, hr]
  split <;> rfl

theorem exec_regWr_voice {s : State} {v : VoiceIx} {c : Voice} {idx : BitVec 12} {r : VReg} (w : Word)
    (hge : 0x100 ≤ idx.toNat) (hv : s.voice? v = some c) (hr : voiceReg idx.toNat = some r) (hro : r.readOnly = false) :
    exec (.regWr v idx w) s = .next (s.setVoice v (writeVoice c r w)) := by
  simp only [exec, execRegWr, if_neg (Nat.not_lt.2 hge), withVoice_some _ hv, hr, hro, Bool.false_eq_true, if_false]

/-- A reserved global index (R48, R56). -/
theorem exec_reserved_global {s : State} (v : VoiceIx) {idx : BitVec 12} (w : Word) (hlt : idx.toNat < 0x100)
    (hres : reservedIndex idx.toNat = true) :
    exec (.regRd v idx) s = .next (s.raise .reg) ∧ exec (.regWr v idx w) s = .next (s.raise .reg) := by
  simp only [exec, execRegRd, execRegWr, if_pos hlt, globalReg_none hlt hres, and_self]

/-- A reserved index of a voice that exists (R49 to R56). -/
theorem exec_reserved_voice {s : State} {v : VoiceIx} {c : Voice} {idx : BitVec 12} (w : Word)
    (hge : 0x100 ≤ idx.toNat) (hv : s.voice? v = some c) (hres : reservedIndex idx.toNat = true) :
    exec (.regRd v idx) s = .next (s.raise .reg) ∧ exec (.regWr v idx w) s = .next (s.raise .reg) := by
  simp only [exec, execRegRd, execRegWr, if_neg (Nat.not_lt.2 hge), withVoice_some _ hv,
    voiceReg_none hge idx.isLt hres, and_self]

/-- Settles O54: the global indexes first, then those of a voice, which exists. -/
theorem reservedIndexRaisesErrReg : Obligations.ReservedIndexRaisesErrReg := by
  intro s v idx w hrange
  by_cases hlt : idx.toNat < 0x100
  · refine ⟨exec_reserved_global v w hlt, fun hres => ?_⟩
    obtain ⟨r, hr, -⟩ := globalReg_some hlt hres
    exact ⟨readGlobal s r, exec_regRd_global v hlt hr⟩
  · have hge := Nat.not_lt.1 hlt
    obtain ⟨c, hv⟩ := Option.isSome_iff_exists.1 ((s.voice?_isSome_iff v).2 (hrange.resolve_left hlt))
    refine ⟨exec_reserved_voice w hge hv, fun hres => ?_⟩
    obtain ⟨r, hr, -⟩ := voiceReg_some hge idx.isLt hres
    exact ⟨readVoice c r, exec_regRd_voice hge hv hr⟩

/-- Settles O55: the three constant registers are the read-only global ones. -/
theorem constantRegisters : Obligations.ConstantRegisters := by
  refine fun s v w => ⟨exec_regRd_global v (r := .id) (by decide) rfl, exec_regRd_global v (r := .nv) (by decide) rfl,
    exec_regRd_global v (r := .caps) (by decide) rfl, fun idx hidx => ?_⟩
  rcases hidx with rfl | rfl | rfl
  · exact exec_regWr_global v (r := .id) w (by decide) rfl
  · exact exec_regWr_global v (r := .nv) w (by decide) rfl
  · exact exec_regWr_global v (r := .caps) w (by decide) rfl

end Sys2Proof.Machine
end

section
/-! Every register after power-on reset (10_state.md R61). -/

namespace Sys2Proof.Machine

open Sys2Proof

theorem Voice.reset_lane (fadeInit : Word) (x : Side) : (Voice.reset fadeInit).lanes.get x = Lane.reset := by
  cases x <;> rfl

theorem Voice.reset_envelope (fadeInit : Word) (i : Fin 3) : (Voice.reset fadeInit).envs.get i = Envelope.reset := by
  match i with
  | 0 | 1 | 2 => rfl

theorem Voice.reset_lfo (fadeInit : Word) (i : Fin 3) : (Voice.reset fadeInit).lfos.get i = Lfo.reset := by
  match i with
  | 0 | 1 | 2 => rfl

/-- Every cell of a cleared ring is +0.0. -/
theorem ringGet_zeroRing (i : Nat) : ringGet zeroRing i = 0#32 := by
  simp [ringGet, zeroRing]

theorem Envelope.reset_read (r : EnvReg) : Envelope.reset.read r = 0#32 := by
  cases r with
  | nodeTick i => simp [Envelope.read, Envelope.reset, Vector.get_eq_getElem]
  | nodeValue i => simp [Envelope.read, Envelope.reset, Vector.get_eq_getElem]
  | flags | n | ls | le | ss | se | tick | next | value => rfl

theorem Lfo.reset_read (r : LfoReg) : Lfo.reset.read r = 0#32 := by
  cases r <;> rfl

/-- Settles O58: every voice of the reset state is the power-on voice, read register by register. -/
theorem resetRegisterValues : Obligations.ResetRegisterValues := by
  refine fun nv p => ⟨rfl, rfl, rfl, rfl, rfl, List.length_replicate, fun c hc r => ?_⟩
  obtain rfl := List.eq_of_mem_replicate hc
  cases r with
  | lane x r =>
    simp only [readVoice, Voice.reset_lane]
    cases r <;> rfl
  | ringIn x i =>
    simp only [readVoice, Voice.reset_lane]
    exact ringGet_zeroRing i
  | ringOut x i =>
    simp only [readVoice, Voice.reset_lane]
    exact ringGet_zeroRing i
  | flCur x | flPrev x | dckCur x | dckTgt x => cases x <;> rfl
  | env i r => simp only [readVoice, Voice.reset_envelope, Envelope.reset_read]
  | lfo i r => simp only [readVoice, Voice.reset_lfo, Lfo.reset_read]
  | flEn | flA | flB | flC | released | fade | fadeRate | fading | dckStage => rfl

end Sys2Proof.Machine
end

section
/-! What REG.RD emits, block by block of the per-voice index map (10_state.md R49 to R55, R57). -/

namespace Sys2Proof.Machine

open Sys2Proof

/-! ## The blocks of the index map -/

/-- The first index of the registers of a lane (R49). -/
def laneBase : Side → Nat
  | .left => 0x100
  | .right => 0x140

/-- The first index of the input ring of a lane; its output ring follows it (R50). -/
def ringBase : Side → Nat
  | .left => 0x200
  | .right => 0x280

theorem voiceReg_lane (x : Side) {off : Nat} (h : off < 0x40) :
    voiceReg (laneBase x + off) = (laneReg off).map (.lane x) := by
  cases x <;> simp (disch := omega) only [voiceReg, laneBase, if_pos, if_neg, Nat.add_sub_cancel_left]

theorem voiceReg_ringIn (x : Side) {i : Nat} (h : i < 0x40) : voiceReg (ringBase x + i) = some (.ringIn x i) := by
  cases x <;> simp (disch := omega) only [voiceReg, ringBase, if_pos, if_neg, Nat.add_sub_cancel_left]

theorem voiceReg_ringOut (x : Side) {i : Nat} (h : i < 0x40) :
    voiceReg (ringBase x + 0x40 + i) = some (.ringOut x i) := by
  cases x <;> simp (disch := omega) only [voiceReg, ringBase, if_pos, if_neg, Nat.reduceAdd, Nat.add_sub_cancel_left]

theorem voiceReg_env (j : Fin 3) {off : Nat} (h : off < 0x80) :
    voiceReg (0x400 + 0x80 * j.val + off) = (envReg off).map (.env j) := by
  match j with
  | 0 | 1 | 2 =>
    simp (disch := omega) only [voiceReg, if_pos, if_neg, Fin.isValue, Fin.val_zero, Fin.val_one, Fin.val_two,
      Nat.reduceMul, Nat.reduceAdd, Nat.add_sub_cancel_left]

theorem voiceReg_lfo (j : Fin 3) {off : Nat} (h : off < 8) :
    voiceReg (0x600 + 8 * j.val + off) = (lfoReg off).map (.lfo j) := by
  match j with
  | 0 | 1 | 2 =>
    simp (disch := omega) only [voiceReg, if_pos, if_neg, Fin.isValue, Fin.val_zero, Fin.val_one, Fin.val_two,
      Nat.reduceMul, Nat.reduceAdd, Nat.add_sub_cancel_left]

theorem envReg_nodeTick (i : Fin 25) : envReg (0x20 + i.val) = some (.nodeTick i) := by
  simp (disch := omega) only [envReg, if_pos, if_neg, Nat.add_sub_cancel_left, i.isLt, ↓reduceDIte]

theorem envReg_nodeValue (i : Fin 25) : envReg (0x40 + i.val) = some (.nodeValue i) := by
  simp (disch := omega) only [envReg, if_neg, Nat.add_sub_cancel_left, i.isLt, ↓reduceDIte]

/-! ## The formats of R57 -/

/-- The FLAGS register of a lane: bit 0 in_primed, bit 1 out_primed (R49). -/
theorem laneFlags_eq (a b : Bool) :
    wordOfBool a ||| (wordOfBool b <<< 1) = BitVec.ofNat 32 (a.toNat + 2 * b.toNat) := by
  cases a <;> cases b <;> rfl

theorem ringGet_fin (r : Ring) (i : Fin 64) : ringGet r i.val = r[i.val] := by
  simp [ringGet, Nat.mod_eq_of_lt i.isLt]

theorem Envelope.read_nodeTick (e : Envelope) (i : Fin 25) :
    e.read (.nodeTick i) = BitVec.ofNat 32 (e.nodeTick i) := by
  apply BitVec.eq_of_toNat_eq
  simp [Envelope.read, Envelope.nodeTick]

/-! ## What is read in each block -/

/-- REG.RD of an index appends the word and changes nothing else. -/
def Reads (s : State) (v : VoiceIx) (idx : Nat) (w : Word) : Prop :=
  exec (.regRd v (BitVec.ofNat 12 idx)) s = .next { s with responses := s.responses ++ [w] }

theorem reads_global (s : State) (v : VoiceIx) {idx : Nat} (r : GReg) (hlt : idx < 0x100)
    (hr : globalReg idx = some r) : Reads s v idx (readGlobal s r) := by
  have hidx : (BitVec.ofNat 12 idx).toNat = idx := Nat.mod_eq_of_lt (by omega)
  exact exec_regRd_global v (by omega) (hidx.symm ▸ hr)

section
variable {s : State} {v : VoiceIx} {c : Voice}

theorem reads_voice (hv : s.voice? v = some c) {idx : Nat} (r : VReg) (hge : 0x100 ≤ idx) (hlt : idx < 0x1000)
    (hr : voiceReg idx = some r) : Reads s v idx (readVoice c r) := by
  have hidx : (BitVec.ofNat 12 idx).toNat = idx := Nat.mod_eq_of_lt hlt
  exact exec_regRd_voice (by omega) hv (hidx.symm ▸ hr)

theorem reads_lane (hv : s.voice? v = some c) (x : Side) {off : Nat} (r : LaneReg) (h : off < 0x40)
    (hr : laneReg off = some r) : Reads s v (laneBase x + off) ((c.lanes.get x).read r) := by
  have hbase : 0x100 ≤ laneBase x ∧ laneBase x ≤ 0x140 := by cases x <;> decide
  exact reads_voice hv (.lane x r) (by omega) (by omega) (by rw [voiceReg_lane x h, hr]; rfl)

theorem reads_rings (hv : s.voice? v = some c) (x : Side) (i : Fin 64) :
    Reads s v (ringBase x + i.val) (c.lanes.get x).inRing[i.val] ∧
      Reads s v (ringBase x + 0x40 + i.val) (c.lanes.get x).outRing[i.val] := by
  have hbase : 0x200 ≤ ringBase x ∧ ringBase x ≤ 0x280 := by cases x <;> decide
  rw [← ringGet_fin, ← ringGet_fin]
  exact ⟨reads_voice hv (.ringIn x i) (by omega) (by omega) (voiceReg_ringIn x i.isLt),
    reads_voice hv (.ringOut x i) (by omega) (by omega) (voiceReg_ringOut x i.isLt)⟩

theorem reads_env (hv : s.voice? v = some c) (j : Fin 3) {idx off : Nat} (r : EnvReg)
    (hidx : idx = 0x400 + 0x80 * j.val + off) (h : off < 0x80) (hr : envReg off = some r) :
    Reads s v idx ((c.envs.get j).read r) := by
  subst hidx
  exact reads_voice hv (.env j r) (by omega) (by omega) (by rw [voiceReg_env j h, hr]; rfl)

theorem reads_env_nodes (hv : s.voice? v = some c) (j : Fin 3) (i : Fin 25) :
    Reads s v (0x420 + 0x80 * j.val + i.val) (BitVec.ofNat 32 ((c.envs.get j).nodeTick i)) ∧
      Reads s v (0x440 + 0x80 * j.val + i.val) (BitVec.ofInt 32 ((c.envs.get j).y.get i).toInt) := by
  rw [← Envelope.read_nodeTick]
  exact ⟨reads_env hv j (.nodeTick i) (off := 0x20 + i.val) (by omega) (by omega) (envReg_nodeTick i),
    reads_env hv j (.nodeValue i) (off := 0x40 + i.val) (by omega) (by omega) (envReg_nodeValue i)⟩

theorem reads_lfo (hv : s.voice? v = some c) (j : Fin 3) {idx off : Nat} (r : LfoReg)
    (hidx : idx = 0x600 + 8 * j.val + off) (h : off < 8) (hr : lfoReg off = some r) :
    Reads s v idx ((c.lfos.get j).read r) := by
  subst hidx
  exact reads_voice hv (.lfo j r) (by omega) (by omega) (by rw [voiceReg_lfo j h, hr]; rfl)

end

/-- Settles O56: each block of the index map in turn. -/
theorem registerReads : Obligations.RegisterReads := by
  refine ⟨fun s v reads hreads => ?_, fun s v c reads hv hreads => ?_⟩
  · obtain rfl : reads = Reads s v := funext₂ fun idx w => propext (hreads idx w)
    exact ⟨reads_global s v .status (by decide) rfl, reads_global s v .id (by decide) rfl,
      reads_global s v .nv (by decide) rfl, reads_global s v .macAcc (by decide) rfl,
      reads_global s v .rampDelta (by decide) rfl, reads_global s v .caps (by decide) rfl⟩
  obtain rfl : reads = Reads s v := funext₂ fun idx w => propext (hreads idx w)
  refine ⟨fun x base ring l hl hx => ?_, ?_, fun j e he => ?_, ?_, fun j l hl => ?_, ?_⟩
  · obtain ⟨rfl, rfl⟩ : base = laneBase x ∧ ring = ringBase x := by
      rcases hx with ⟨rfl, rfl, rfl⟩ | ⟨rfl, rfl, rfl⟩ <;> exact ⟨rfl, rfl⟩
    subst hl
    have hq := reads_lane hv x .q (off := 0) (by decide) rfl
    have hflags := reads_lane hv x .flags (off := 0x0B) (by decide) rfl
    simp only [Lane.read, laneFlags_eq] at hq hflags
    refine ⟨?_, reads_lane hv x .wpos (by decide) rfl, reads_lane hv x .wfill (by decide) rfl,
      reads_lane hv x .rpos (by decide) rfl, reads_lane hv x .rfill (by decide) rfl,
      reads_lane hv x .phase (by decide) rfl, reads_lane hv x .incLo (by decide) rfl,
      reads_lane hv x .incHi (by decide) rfl, reads_lane hv x .iphase (by decide) rfl,
      reads_lane hv x .iincLo (by decide) rfl, reads_lane hv x .iincHi (by decide) rfl, hflags,
      reads_lane hv x .lastAmp (by decide) rfl, reads_lane hv x .accum (by decide) rfl, reads_rings hv x⟩
    cases hc : (c.lanes.get x).q <;> rw [hc] at hq <;> exact hq
  · exact ⟨reads_voice hv .flEn (by decide) (by decide) rfl, reads_voice hv .flA (by decide) (by decide) rfl,
      reads_voice hv .flB (by decide) (by decide) rfl, reads_voice hv .flC (by decide) (by decide) rfl,
      reads_voice hv (.flCur .left) (by decide) (by decide) rfl,
      reads_voice hv (.flPrev .left) (by decide) (by decide) rfl,
      reads_voice hv (.flCur .right) (by decide) (by decide) rfl,
      reads_voice hv (.flPrev .right) (by decide) (by decide) rfl⟩
  · subst he
    exact ⟨reads_env hv j .flags (off := 0) (by omega) (by decide) rfl,
      reads_env hv j .n (off := 1) (by omega) (by decide) rfl,
      reads_env hv j .ls (off := 2) (by omega) (by decide) rfl,
      reads_env hv j .le (off := 3) (by omega) (by decide) rfl,
      reads_env hv j .ss (off := 4) (by omega) (by decide) rfl,
      reads_env hv j .se (off := 5) (by omega) (by decide) rfl,
      reads_env hv j .tick (off := 6) (by omega) (by decide) rfl,
      reads_env hv j .next (off := 7) (by omega) (by decide) rfl,
      reads_env hv j .value (off := 8) (by omega) (by decide) rfl,
      reads_env_nodes hv j⟩
  · exact ⟨reads_voice hv .released (by decide) (by decide) rfl, reads_voice hv .fade (by decide) (by decide) rfl,
      reads_voice hv .fadeRate (by decide) (by decide) rfl, reads_voice hv .fading (by decide) (by decide) rfl⟩
  · subst hl
    have hshape := reads_lfo hv j .shape (off := 0) rfl (by decide) rfl
    refine ⟨?_, reads_lfo hv j .pos (off := 1) (by omega) (by decide) rfl,
      reads_lfo hv j .speed (off := 2) (by omega) (by decide) rfl,
      reads_lfo hv j .depth (off := 3) (by omega) (by decide) rfl⟩
    simp only [Lfo.read] at hshape
    cases hc : (c.lfos.get j).shape <;> rw [hc] at hshape <;> exact hshape
  · have hstage := reads_voice hv .dckStage (idx := 0x700) (by decide) (by decide) rfl
    refine ⟨?_, reads_voice hv (.dckCur .left) (by decide) (by decide) rfl,
      reads_voice hv (.dckCur .right) (by decide) (by decide) rfl,
      reads_voice hv (.dckTgt .left) (by decide) (by decide) rfl,
      reads_voice hv (.dckTgt .right) (by decide) (by decide) rfl⟩
    simp only [readVoice] at hstage
    cases hc : c.declick.stage <;> rw [hc] at hstage <;> exact hstage

end Sys2Proof.Machine
end

section
/-! What REG.WR stores in a writable register of a voice, and that it leaves every other register of that voice
(10_state.md R51 to R55, R58). -/

namespace Sys2Proof.Machine

open Sys2Proof

/-! ## The stored formats, read back as words -/

/-- A field of the low `n` bits reads as the word masked to them. -/
theorem setWidth_setWidth_eq_and (w : Word) {n : Nat} (h : n ≤ 32) :
    (w.setWidth n).setWidth 32 = w &&& BitVec.ofNat 32 (2 ^ n - 1) := by
  have hpow : 2 ^ n ≤ 2 ^ 32 := Nat.pow_le_pow_right (by decide) h
  have hpos : 0 < 2 ^ n := Nat.two_pow_pos n
  apply BitVec.eq_of_toNat_eq
  simp only [BitVec.toNat_setWidth, BitVec.toNat_and, BitVec.toNat_ofNat]
  rw [Nat.mod_eq_of_lt (a := 2 ^ n - 1) (by omega), Nat.and_two_pow_sub_one_eq_mod,
    Nat.mod_eq_of_lt (lt_of_lt_of_le (Nat.mod_lt _ hpos) hpow)]

theorem wordOfBool_getLsbD_zero (w : Word) : wordOfBool (w.getLsbD 0) = w &&& 1#32 := by
  rw [show (1#32 : Word) = BitVec.ofNat 32 (2 ^ 1 - 1) from rfl, ← setWidth_setWidth_eq_and w (n := 1) (by decide)]
  apply BitVec.eq_of_toNat_eq
  simp only [wordOfBool, BitVec.getLsbD, Nat.testBit_zero, decide_eq_true_eq, BitVec.toNat_setWidth]
  split <;> simp only [BitVec.toNat_ofNat] <;> omega

theorem wordOfNat_min (w : Word) (k : Nat) :
    wordOfNat (min w.toNat k) = if w.toNat < k then w else BitVec.ofNat 32 k := by
  split
  · next h => rw [Nat.min_eq_left h.le, wordOfNat, BitVec.ofNat_toNat, BitVec.setWidth_eq]
  · next h => rw [Nat.min_eq_right (Nat.not_lt.1 h), wordOfNat]

theorem wordOfShape_shapeOfWord (w : Word) : wordOfNat (shapeOfWord w).toNat = w &&& 3#32 := by
  rw [show (3#32 : Word) = BitVec.ofNat 32 (2 ^ 2 - 1) from rfl, ← setWidth_setWidth_eq_and w (n := 2) (by decide)]
  apply BitVec.eq_of_toNat_eq
  rw [BitVec.toNat_setWidth, BitVec.toNat_setWidth, shapeOfWord]
  have hcases : w.toNat % 4 = 0 ∨ w.toNat % 4 = 1 ∨ w.toNat % 4 = 2 ∨ w.toNat % 4 = 3 := by omega
  rcases hcases with h | h | h | h <;> rw [h] <;> rfl

theorem volumeOfWord_setWidth (w : Word) :
    (volumeOfWord w).setWidth 32 = if w.toInt < 0 then 0#32 else if w.toInt ≤ 0x7FFFF then w else 0x7FFFF#32 := by
  have hw := w.toInt_lt
  have hnat := BitVec.toInt_eq_toNat_cond w
  apply BitVec.eq_of_toNat_eq
  simp only [volumeOfWord, clamp, sword, Config.volMax, BitVec.toNat_setWidth, BitVec.toNat_ofInt]
  split
  · rw [BitVec.toNat_ofNat]; omega
  · split
    · split at hnat <;> omega
    · rw [BitVec.toNat_ofNat]; omega

/-! ## Envelopes -/

/-- What a write of `w` leaves to be read in the register written (R52). -/
theorem Envelope.read_write_self (e : Envelope) (j : Fin 3) {r : EnvReg} (w : Word) (h : r.readOnly = false) :
    (e.write r w).read r = storedWord (.env j r) w := by
  cases r with
  | flags => exact setWidth_setWidth_eq_and w (by decide)
  | n => exact wordOfNat_min w _
  | ls | le | ss | se => exact wordOfNat_min w _
  | nodeTick i =>
    simp only [Envelope.write, Envelope.read, Vector.get_eq_getElem, Vector.getElem_set_self]
    exact setWidth_setWidth_eq_and w (by decide)
  | nodeValue i =>
    simp only [Envelope.write, Envelope.read, Vector.get_eq_getElem, Vector.getElem_set_self, storedWord]
    rw [BitVec.setWidth_eq_extractLsb' (by decide)]
  | tick | next | value => cases h

/-- A write leaves every other register of the envelope. -/
theorem Envelope.read_write_ne (e : Envelope) {r r' : EnvReg} (w : Word) (h : r' ≠ r) :
    (e.write r w).read r' = e.read r' := by
  cases r with
  | flags | n | ls | le | ss | se =>
    cases r' <;> simp only [Envelope.write, Envelope.read, ne_eq, not_true_eq_false] at h ⊢
  | nodeTick i => cases r' with
    | nodeTick j =>
      have hij : i.val ≠ j.val := fun hij => h (congrArg _ (Fin.ext hij.symm))
      simp only [Envelope.write, Envelope.read, Vector.get_eq_getElem, Vector.getElem_set_ne _ _ hij]
    | _ => rfl
  | nodeValue i => cases r' with
    | nodeValue j =>
      have hij : i.val ≠ j.val := fun hij => h (congrArg _ (Fin.ext hij.symm))
      simp only [Envelope.write, Envelope.read, Vector.get_eq_getElem, Vector.getElem_set_ne _ _ hij]
    | _ => rfl
  | tick | next | value => rfl

/-! ## LFOs -/

/-- What a write of `w` leaves to be read in the register written (R54). -/
theorem Lfo.read_write_self (l : Lfo) (j : Fin 3) (r : LfoReg) (w : Word) :
    (l.write r w).read r = storedWord (.lfo j r) w := by
  cases r with
  | shape => exact wordOfShape_shapeOfWord w
  | pos | speed | depth => exact setWidth_setWidth_eq_and w (by decide)

/-- A write leaves every other register of the LFO. -/
theorem Lfo.read_write_ne (l : Lfo) {r r' : LfoReg} (w : Word) (h : r' ≠ r) : (l.write r w).read r' = l.read r' := by
  cases r with
  | shape | pos | speed | depth => cases r' <;> simp only [Lfo.write, Lfo.read, ne_eq, not_true_eq_false] at h ⊢

/-! ## Voices -/

/-- What a write of `w` leaves to be read in the register written (R51 to R55). -/
theorem readVoice_writeVoice_self (c : Voice) {r : VReg} (w : Word) (h : r.readOnly = false) :
    readVoice (writeVoice c r w) r = storedWord r w := by
  cases r with
  | flEn | released | fading => exact wordOfBool_getLsbD_zero w
  | flA | flB | flC | fade | fadeRate => rfl
  | flCur x | flPrev x => exact Sides.get_set_self _ x w
  | env j r =>
    simp only [writeVoice, readVoice, Envelopes.get_set_self]
    exact Envelope.read_write_self _ j w h
  | lfo j r =>
    simp only [writeVoice, readVoice, Lfos.get_set_self]
    exact Lfo.read_write_self _ j r w
  | dckTgt x =>
    simp only [writeVoice, readVoice, Sides.get_set_self]
    exact volumeOfWord_setWidth w
  | lane | ringIn | ringOut | dckStage | dckCur => cases h

/-- A write leaves every other register of the voice (R58). -/
theorem readVoice_writeVoice_ne (c : Voice) {r r' : VReg} (w : Word) (h : r' ≠ r) :
    readVoice (writeVoice c r w) r' = readVoice c r' := by
  cases r with
  | flEn | flA | flB | flC | released | fade | fadeRate | fading =>
    cases r' <;> simp only [writeVoice, readVoice, ne_eq, not_true_eq_false] at h ⊢
  | flCur x => cases r' with
    | flCur y => exact Sides.get_set_ne _ w fun e => h (congrArg _ e)
    | _ => rfl
  | flPrev x => cases r' with
    | flPrev y => exact Sides.get_set_ne _ w fun e => h (congrArg _ e)
    | _ => rfl
  | env i r => cases r' with
    | env j r' =>
      simp only [writeVoice, readVoice]
      by_cases hij : j = i
      · subst hij
        rw [Envelopes.get_set_self]
        exact Envelope.read_write_ne _ w fun e => h (congrArg _ e)
      · rw [Envelopes.get_set_ne _ _ hij]
    | _ => rfl
  | lfo i r => cases r' with
    | lfo j r' =>
      simp only [writeVoice, readVoice]
      by_cases hij : j = i
      · subst hij
        rw [Lfos.get_set_self]
        exact Lfo.read_write_ne _ w fun e => h (congrArg _ e)
      · rw [Lfos.get_set_ne _ _ hij]
    | _ => rfl
  | dckTgt x => cases r' with
    | dckTgt y =>
      simp only [writeVoice, readVoice]
      rw [Sides.get_set_ne _ _ fun e => h (congrArg _ e)]
    | _ => rfl
  | lane | ringIn | ringOut | dckStage | dckCur => rfl

/-- Settles O57: the register an index names is written, and read back as `storedWord`. -/
theorem registerWrites : Obligations.RegisterWrites := by
  refine ⟨fun s v c idx w hv hge hres hro => ?_, fun s v w => ⟨?_, rampDeltaOfWord w, rampDeltaOfWord_toInt w, ?_⟩⟩
  · obtain ⟨r, hr, hr_ro⟩ := voiceReg_some hge idx.isLt hres
    have hwritable : r.readOnly = false := hr_ro.trans hro
    exact ⟨r, writeVoice c r w, hr, exec_regWr_voice w hge hv hr hwritable, readVoice_writeVoice_self c w hwritable,
      fun r' hne => readVoice_writeVoice_ne c w hne⟩
  · exact exec_regWr_global v (r := .macAcc) w (by decide) rfl
  · exact exec_regWr_global v (r := .rampDelta) w (by decide) rfl

end Sys2Proof.Machine
end

section
/-! A repeated resampler read (20_memory.md R86): the lazy fill leaves a lane on which it does nothing. -/

namespace Sys2Proof.Machine

open Sys2Proof

/-- A lane on which the lazy fill has nothing to do (41_resampler.md R166): an output is held, no rate is set, or FILL is
at its end and the output delay is removed. -/
def Lane.Filled (l : Lane) : Prop := l.rfill = 0 → l.inc ≠ 0#64 → l.canIterate = false ∧ l.outPrimed = true

/-- The lazy fill does nothing to a filled lane. -/
theorem Lane.Filled.ensureOutput_eq {l : Lane} (h : l.Filled) (p : Params) (draw : Nat) :
    ensureOutput p l draw = (l, draw) := by
  unfold ensureOutput
  split
  · rename_i hrun
    obtain ⟨hstuck, hprimed⟩ := h hrun.1 hrun.2
    rw [fill_stuck p draw hstuck]
    exact if_pos hprimed
  · rfl

/-- FILL ends at a lane that cannot iterate (R167). -/
theorem fill_done (p : Params) (l : Lane) (draw : Nat) : (fill p l draw).1.canIterate = false :=
  fillLoop_done p _ _ le_rfl

/-- Where removing the output delay empties the ring, FILL had ended for want of input, so it still cannot run. -/
theorem Lane.removeMany_outDelay_filled (p : Params) {l : Lane} (hdone : l.canIterate = false)
    (hprimed : l.outPrimed = true) : (l.removeMany p l.q.outDelay).Filled := by
  obtain ⟨hq, hwfill, hrfill, -, -, hout⟩ := l.removeMany_spec p l.q.outDelay
  intro hempty _
  refine ⟨?_, hout.trans hprimed⟩
  have hdelay : l.q.outDelay ≤ 15 := by cases l.q <;> decide
  have hroom : l.rfill ≤ 15 := by omega
  rw [← Bool.not_eq_true, canIterate_iff] at hdone ⊢
  rw [hq, hwfill]
  exact fun ⟨hinput, _⟩ => hdone ⟨hinput, by omega, fun _ => by omega⟩

/-- After the lazy fill the lane is filled. -/
theorem ensureOutput_filled (p : Params) (l : Lane) (draw : Nat) : (ensureOutput p l draw).1.Filled := by
  have hdone := fill_done p l draw
  unfold ensureOutput
  split
  · dsimp only
    split
    · rename_i hprimed
      exact fun _ _ => ⟨hdone, hprimed⟩
    · exact Lane.removeMany_outDelay_filled p (l := { (fill p l draw).1 with outPrimed := true }) hdone rfl
  · rename_i hidle
    exact fun hempty hrate => absurd ⟨hempty, hrate⟩ hidle

/-- A read of one lane of a voice that exists. -/
theorem fillThenEmit_run {s : State} {v : VoiceIx} {c : Voice} (x : Side) (f : Lane → Word) (h : s.voice? v = some c) :
    fillThenEmit v (laneOfSide x) s f =
      .next (((s.setVoice v { c with lanes := c.lanes.set x (ensureOutput s.params (c.lanes.get x) s.draws).1 }).setDraws
        (ensureOutput s.params (c.lanes.get x) s.draws).2).emit (f (ensureOutput s.params (c.lanes.get x) s.draws).1)) := by
  rw [fillThenEmit, withLane, withVoice_some _ h, withSide_laneOfSide]

@[simp] theorem Sides.set_get_self {α : Type} (p : Sides α) (x : Side) : p.set x (p.get x) = p := by cases x <;> rfl

@[simp] theorem State.setDraws_self (s : State) : s.setDraws s.draws = s := rfl

/-- A read of a filled lane only emits its word. -/
theorem fillThenEmit_filled {s : State} {v : VoiceIx} {c : Voice} {x : Side} (f : Lane → Word) (h : s.voice? v = some c)
    (hfilled : (c.lanes.get x).Filled) :
    fillThenEmit v (laneOfSide x) s f = .next (s.emit (f (c.lanes.get x))) := by
  rw [fillThenEmit_run x f h, hfilled.ensureOutput_eq, Sides.set_get_self, State.setVoice_voice?_id h, State.setDraws_self]

/-- After a read the lane is filled, and the emitted word is that lane's. -/
theorem fillThenEmit_leaves_filled {s t : State} {v : VoiceIx} {x : Side} {f : Lane → Word} (hv : v.toNat < s.nv)
    (h : fillThenEmit v (laneOfSide x) s f = .next t) :
    ∃ c, t.voice? v = some c ∧ (c.lanes.get x).Filled ∧ t.responses = s.responses ++ [f (c.lanes.get x)] := by
  obtain ⟨c, hc⟩ := Option.isSome_iff_exists.1 ((s.voice?_isSome_iff v).2 hv)
  rw [fillThenEmit_run x f hc] at h
  cases h
  refine ⟨_, State.setVoice_voice?_self _ hc, ?_⟩
  rw [Sides.get_set_self]
  exact ⟨ensureOutput_filled s.params (c.lanes.get x) s.draws, rfl⟩

/-- RS.COUNT, RS.GET and RS.GETF are the lazy fill and a word of the lane after it (41_resampler.md R186 to R188). -/
theorem exec_read_eq_fillThenEmit {op : VoiceIx → LaneSel → Instr}
    (hop : op = Instr.rsCount ∨ op = Instr.rsGet ∨ op = Instr.rsGetf) :
    ∃ f : Lane → Word, ∀ v lane s, exec (op v lane) s = fillThenEmit v lane s f := by
  rcases hop with rfl | rfl | rfl
  · exact ⟨_, fun v lane s => by rw [exec, execRsCount]⟩
  · exact ⟨_, fun v lane s => by rw [exec, execRsGet]⟩
  · exact ⟨_, fun v lane s => by rw [exec, execRsGetf]⟩

/-- Settles O30: the first read leaves a filled lane. -/
theorem repeatedReadIsSame : Obligations.RepeatedReadIsSame := by
  intro op s t v x hop hv h
  obtain ⟨f, hf⟩ := exec_read_eq_fillThenEmit hop
  rw [hf] at h ⊢
  obtain ⟨c, hc, hfilled, hword⟩ := fillThenEmit_leaves_filled hv h
  exact ⟨_, hword, fillThenEmit_filled f hc hfilled⟩

end Sys2Proof.Machine
end

section
/-! What the decoder finds at the head of the stream: by the operand count of its first word (30_encoding.md R103, R109,
R111; 20_memory.md R85), and in the words of a well-formed command (R100 to R108). -/

namespace Sys2Proof

/-! ## What the decoder finds at a command word -/

theorem decode_reserved {w : Word} (rest : List Word) (hcount : operandCount (opcOf w) = none) :
    decode (w :: rest) = .reserved (opcOf w) rest := by
  simp only [decode, hcount]

theorem decode_short {w : Word} {rest : List Word} {n : Nat} (hcount : operandCount (opcOf w) = some n)
    (hshort : rest.length < n) : decode (w :: rest) = .incomplete := by
  simp only [decode, hcount, if_pos hshort]

theorem decode_complete {w : Word} {rest : List Word} {n : Nat} (hcount : operandCount (opcOf w) = some n)
    (hlen : n ≤ rest.length) :
    decode (w :: rest) =
      (instrOf w (rest.getD 0 0#32) (rest.getD 1 0#32) (rest.getD 2 0#32)).elim (.reserved (opcOf w) rest)
        fun i => .command i (rest.drop n) := by
  simp only [decode, hcount, if_neg (Nat.not_lt.2 hlen)]
  cases instrOf w (rest.getD 0 0#32) (rest.getD 1 0#32) (rest.getD 2 0#32) with
  | none => rfl
  | some i => rfl

theorem decode_complete_ne_incomplete {w : Word} {rest : List Word} {n : Nat}
    (hcount : operandCount (opcOf w) = some n) (hlen : n ≤ rest.length) : decode (w :: rest) ≠ .incomplete := by
  rw [decode_complete hcount hlen]
  cases instrOf w (rest.getD 0 0#32) (rest.getD 1 0#32) (rest.getD 2 0#32) with
  | none => exact nofun
  | some i => exact nofun

/-- The stream is incomplete when it is empty or shorter than its first word's OPC asks for (R85, R111). -/
theorem decode_eq_incomplete_iff (ws : List Word) :
    decode ws = .incomplete ↔
      ws = [] ∨ ∃ (w : Word) (rest : List Word) (n : Nat),
        ws = w :: rest ∧ operandCount (opcOf w) = some n ∧ rest.length < n := by
  constructor
  · intro h
    cases ws with
    | nil => exact .inl rfl
    | cons w rest =>
      cases hcount : operandCount (opcOf w) with
      | none => rw [decode_reserved rest hcount] at h; cases h
      | some n =>
        have hshort : rest.length < n := Nat.not_le.1 fun hlen => decode_complete_ne_incomplete hcount hlen h
        exact .inr ⟨w, rest, n, rfl, hcount, hshort⟩
  · rintro (rfl | ⟨w, rest, n, rfl, hcount, hshort⟩)
    · rfl
    · exact decode_short hcount hshort

/-! ## Immediates read back (R107) -/

@[simp] theorem flagImm_getElem_zero (b : Bool) : (flagImm b)[0] = b := by cases b <;> rfl

@[simp] theorem dupImm_setWidth (srcVoice : VoiceIx) (srcLane : Side) :
    (dupImm srcVoice srcLane).setWidth 6 = srcVoice := by
  unfold dupImm
  rw [BitVec.setWidth_append, dif_pos le_rfl, BitVec.setWidth_eq]

theorem dupImm_getLsbD_eight (srcVoice : VoiceIx) (srcLane : Side) :
    (dupImm srcVoice srcLane).getLsbD 8 = (srcLane == .right) := by
  unfold dupImm
  rw [BitVec.getLsbD_append]
  cases srcLane <;> rfl

@[simp] theorem extractLsb'_setWidth_low (b : BitVec 8) : (b.setWidth 32).extractLsb' 0 8 = b := by
  rw [BitVec.extractLsb'_setWidth_of_le (by decide), BitVec.extractLsb'_eq_self]

/-- A voice that is 0 for a global index is read back (10_state.md R48). -/
theorem regVoice_commandWord {v : VoiceIx} {idx : BitVec 12} (opc : BitVec 6) (lane sel : BitVec 2)
    (h : regVoiceCanonical v idx = true) : regVoice (commandWord opc v lane sel (idx.setWidth 16)) = v := by
  simp only [regVoiceCanonical, Bool.or_eq_true, decide_eq_true_eq, beq_iff_eq] at h
  rw [regVoice, immIndex_commandWord, voiceOf_commandWord, BitVec.setWidth_setWidth_of_le _ (by decide), BitVec.setWidth_eq]
  split
  · rfl
  · exact (h.resolve_left ‹_›).symm

/-- A source lane that is L where LANE does not name one lane is read back (41_resampler.md R190). -/
theorem dupSource_commandWord {lane : LaneSel} {srcLane : Side} (opc : BitVec 6) (v srcVoice : VoiceIx) (sel : BitVec 2)
    (h : dupSourceCanonical lane srcLane = true) :
    dupSource (commandWord opc v (bitsOfLane lane) sel (dupImm srcVoice srcLane)) = srcLane := by
  rw [dupSource, laneOf_commandWord, laneOfBits_bitsOfLane, getLsbD_commandWord _ _ _ _ _ (by decide), dupImm_getLsbD_eight]
  cases lane with
  | left | right => cases srcLane <;> rfl
  | both | reserved => exact (beq_iff_eq.1 h).symm

/-! ## The words of a command -/

/-- A command word, its operand words and what follows decode to the command that `instrOf` reads from them. -/
theorem decode_commandWord {opc : BitVec 6} {v : VoiceIx} {lane sel : BitVec 2} {imm : BitVec 16} {ops : List Word}
    {i : Instr} (rest : List Word) (hcount : operandCount opc = some ops.length)
    (hinstr : instrOf (commandWord opc v lane sel imm) ((ops ++ rest).getD 0 0#32) ((ops ++ rest).getD 1 0#32)
      ((ops ++ rest).getD 2 0#32) = some i) :
    decode (commandWord opc v lane sel imm :: (ops ++ rest)) = .command i rest := by
  rw [decode_complete (by rwa [opcOf_commandWord]) (by simp), hinstr, Option.elim_some, List.drop_left]

/-- The decoder inverts the encoder: one case for each number of operand words (R104), and the commands with a
conditionally unused field apart (R108). -/
theorem decode_encode (i : Instr) (rest : List Word) (h : i.wellFormed = true) :
    decode (encode i ++ rest) = .command i rest := by
  cases i with
  | nop | aclr | ard | rsInit | rsClear | rsSetq | rsWrite | rsFree | rsReady | rsCount | rsGet | rsGetf | rsRemove
  | flReset | flEn | envReset | envTick | envRead | envRelease | fadeStart | fadeTick | lfoReset | lfoTick | dckCut
  | dckRetrig | dckHk | vcReset => exact decode_commandWord (ops := []) rest rfl (by simp [instrOf])
  | aadd x | rsWritef _ _ _ x | flRun _ _ x => exact decode_commandWord (ops := [x]) rest rfl (by simp [instrOf])
  | mulsc x y | mulscv x y | mulsca x y | mulsc16 x y | amac x y | rsSetrate _ _ x y | dckSettgt _ x y
  | dckStep _ x y => exact decode_commandWord (ops := [x, y]) rest rfl (by simp [instrOf])
  | flCoef _ _ resonance fs =>
    exact decode_commandWord (ops := [resonance.setWidth 32, fs]) rest rfl (by simp [instrOf])
  | lerp x y z | flSetc _ x y z => exact decode_commandWord (ops := [x, y, z]) rest rfl (by simp [instrOf])
  | rsDup v lane srcVoice srcLane =>
    exact decode_commandWord (ops := []) rest rfl (by simp [instrOf, dupSource_commandWord _ _ _ _ h])
  | regRd v idx => exact decode_commandWord (ops := []) rest rfl (by simp [instrOf, regVoice_commandWord _ _ _ h])
  | regWr v idx x => exact decode_commandWord (ops := [x]) rest rfl (by simp [instrOf, regVoice_commandWord _ _ _ h])

end Sys2Proof
end

section
/-! Waiting and advancing (20_memory.md R85; 60_exceptions.md R340): every command has a next state, so a step stops only
where the decoder finds no complete command. -/

namespace Sys2Proof.Machine

open Sys2Proof

/-! ## Every command answers a next state -/

/-- An answer that is a next state. -/
def HasNext (o : Out) : Prop := ∃ t, o = .next t

theorem HasNext.next (s : State) : HasNext (.next s) := ⟨s, rfl⟩

theorem HasNext.withVoice (v : VoiceIx) (s : State) {k : Voice → Out} (hk : ∀ c, HasNext (k c)) :
    HasNext (withVoice v s k) := by
  rcases withVoice_cases (v := v) (s := s) (k := k) rfl with ⟨c, -, ho⟩ | ⟨-, ho⟩
  · exact ho ▸ hk c
  · exact ⟨_, ho⟩

theorem HasNext.withSide (lane : LaneSel) (s : State) {k : Side → Out} (hk : ∀ x, HasNext (k x)) :
    HasNext (withSide lane s k) := by
  rcases withSide_cases (lane := lane) (s := s) (k := k) rfl with ⟨x, -, ho⟩ | ⟨-, ho⟩
  · exact ho ▸ hk x
  · exact ⟨_, ho⟩

theorem HasNext.withSel (sel : Sel) (s : State) {k : Fin 3 → Out} (hk : ∀ j, HasNext (k j)) :
    HasNext (withSel sel s k) := by
  rcases withSel_cases (sel := sel) (s := s) (k := k) rfl with ⟨j, -, ho⟩ | ⟨-, ho⟩
  · exact ho ▸ hk j
  · exact ⟨_, ho⟩

theorem HasNext.withLane (v : VoiceIx) (lane : LaneSel) (s : State) {k : Voice → Side → Lane → Out}
    (hk : ∀ c x l, HasNext (k c x l)) : HasNext (withLane v lane s k) :=
  .withVoice v s fun c => .withSide lane s fun x => hk c x _

theorem HasNext.updateVoice (v : VoiceIx) (s : State) (f : Voice → Voice) : HasNext (updateVoice v s f) :=
  .withVoice v s fun _ => .next _

theorem HasNext.updateLanes (v : VoiceIx) (lane : LaneSel) (s : State) (f : Lane → Lane) :
    HasNext (updateLanes v lane s f) := by
  rcases updateLanes_cases (v := v) (lane := lane) (s := s) (f := f) rfl with ⟨c, -, -, ho⟩ | ⟨-, ho⟩ | ⟨-, ho⟩
  · exact ⟨_, ho⟩
  · exact ⟨_, ho⟩
  · exact ⟨_, ho⟩

theorem HasNext.fillThenEmit (v : VoiceIx) (lane : LaneSel) (s : State) (f : Lane → Word) :
    HasNext (fillThenEmit v lane s f) :=
  .withLane v lane s fun _ _ _ => .next _

theorem HasNext.exec_read {op : VoiceIx → LaneSel → Instr}
    (hop : op = Instr.rsCount ∨ op = Instr.rsGet ∨ op = Instr.rsGetf) (v : VoiceIx) (lane : LaneSel) (s : State) :
    HasNext (exec (op v lane) s) := by
  obtain ⟨f, hf⟩ := exec_read_eq_fillThenEmit hop
  exact hf v lane s ▸ .fillThenEmit v lane s f

theorem execRsDup_hasNext (v : VoiceIx) (lane : LaneSel) (srcVoice : VoiceIx) (srcLane : Side) (s : State) :
    HasNext (execRsDup v lane srcVoice srcLane s) := by
  refine .withVoice v s fun c => ?_
  cases lane with
  | left | right | both => exact .withVoice srcVoice s fun _ => .next _
  | reserved => exact .next _

theorem execRegRd_hasNext (v : VoiceIx) (idx : BitVec 12) (s : State) : HasNext (execRegRd v idx s) := by
  unfold execRegRd
  split
  · split <;> exact .next _
  · refine .withVoice v s fun c => ?_
    split <;> exact .next _

theorem execRegWr_hasNext (v : VoiceIx) (idx : BitVec 12) (w : Word) (s : State) : HasNext (execRegWr v idx w s) := by
  unfold execRegWr
  split
  · split
    · exact .next _
    · split <;> exact .next _
  · refine .withVoice v s fun c => ?_
    split
    · exact .next _
    · split <;> exact .next _

/-- Every command has a next state, whatever its operands and the state (60_exceptions.md R340). -/
theorem exec_hasNext (i : Instr) (s : State) : HasNext (exec i s) := by
  cases i with
  | nop | mulsc | mulscv | mulsca | mulsc16 | lerp | aclr | aadd | amac | ard => exact .next _
  | rsInit v lane | rsClear v lane | rsSetq v lane | rsSetrate v lane | rsWrite v lane | rsWritef v lane
  | rsRemove v lane => exact .updateLanes v lane s _
  | rsFree v lane | rsReady v lane => exact .withLane v lane s fun _ _ _ => .next _
  | rsCount v lane => exact .exec_read (.inl rfl) v lane s
  | rsGet v lane => exact .exec_read (.inr (.inl rfl)) v lane s
  | rsGetf v lane => exact .exec_read (.inr (.inr rfl)) v lane s
  | rsDup v lane srcVoice srcLane => exact execRsDup_hasNext v lane srcVoice srcLane s
  | flCoef v | flSetc v | flReset v | flEn v | envRelease v | fadeStart v | dckSettgt v | dckCut v | dckRetrig v
  | vcReset v => exact .updateVoice v s _
  | flRun v lane x =>
    refine .withVoice v s fun c => .withSide lane s fun y => ?_
    split <;> exact .next _
  | envReset v sel | envRead v sel | lfoReset v sel | lfoTick v sel =>
    exact .withVoice v s fun _ => .withSel sel s fun _ => .next _
  | envTick v sel =>
    refine .withVoice v s fun c => .withSel sel s fun j => ?_
    dsimp only
    split <;> exact .next _
  | fadeTick v | dckStep v | dckHk v => exact .withVoice v s fun _ => .next _
  | regRd v idx => exact execRegRd_hasNext v idx s
  | regWr v idx w => exact execRegWr_hasNext v idx w s

/-! ## The step -/

/-- A step answers a next state, or waits because the decoder finds no complete command. -/
theorem step_cases (s : State) : HasNext (step s) ∧ decode s.input ≠ .incomplete ∨
    step s = .fault .waiting ∧ decode s.input = .incomplete := by
  unfold step fetch
  cases hd : decode s.input with
  | command i rest => exact .inl ⟨exec_hasNext i _, by simp⟩
  | reserved opc rest => exact .inl ⟨.next _, by simp⟩
  | incomplete => exact .inr ⟨rfl, rfl⟩

/-- Settles O7: the only stop of a step is the decoder's answer that words are missing. -/
theorem stepWaitsOrAdvances : Obligations.StepWaitsOrAdvances := by
  intro s
  rw [← decode_eq_incomplete_iff]
  rcases step_cases s with ⟨⟨t, ht⟩, hcomplete⟩ | ⟨hwait, hincomplete⟩
  · exact ⟨by simp [ht, hcomplete], fun _ => ⟨t, ht⟩⟩
  · exact ⟨by simp [hwait, hincomplete], fun hnot => absurd hwait hnot⟩

end Sys2Proof.Machine
end

section
/-! A step on a decoded command (20_memory.md R85, R89). -/

namespace Sys2Proof.Machine

open Sys2Proof

theorem step_of_decode {s : State} {i : Instr} {rest : List Word} (h : decode s.input = .command i rest) :
    step s = exec i { s with input := rest } := by
  rw [step, fetch, h]
  rfl

/-- Settles O6: the words of a well-formed command decode to it, so both clauses are the step on a decoded command. -/
theorem stepRunsDecodedCommand : Obligations.StepRunsDecodedCommand :=
  ⟨fun _ _ _ h => step_of_decode h, fun _ i rest hi h => step_of_decode (h ▸ decode_encode i rest hi)⟩

end Sys2Proof.Machine
end

section
/-! The opcode map as the decoder reads it: the operand count of the command an OPC names, the reserved OPC values, and
that a decoded command is well formed (30_encoding.md R100, R104, R108, R109, R111). -/

namespace Sys2Proof

open Sys2Proof.Machine

/-- Settles O1: the decoder inverts the encoder, command by command. -/
theorem decodeInvertsEncode : Obligations.DecodeInvertsEncode := decode_encode

/-- The voice read for REG.RD and REG.WR is 0 for a global index (10_state.md R48). -/
@[simp] theorem regVoiceCanonical_regVoice (w : Word) : regVoiceCanonical (regVoice w) (immIndex w) = true := by
  unfold regVoiceCanonical regVoice
  split
  · rw [decide_eq_true ‹_›, Bool.true_or]
  · rw [beq_self_eq_true, Bool.or_true]

/-- The source lane read for RS.DUP is L where LANE does not name one lane (R107). -/
@[simp] theorem dupSourceCanonical_dupSource (w : Word) : dupSourceCanonical (laneOf w) (dupSource w) = true := by
  unfold dupSourceCanonical dupSource
  cases laneOf w <;> rfl

/-- The operand count of an OPC is the "ops" column of the command it names; a reserved OPC has neither (R104, R109). -/
theorem map_operands_instrOf (w x y z : Word) : (instrOf w x y z).map Instr.operands = operandCount (opcOf w) := by
  unfold instrOf operandCount
  generalize (opcOf w).toNat = opc
  split <;> rfl

theorem operandCount_of_instrOf {w x y z : Word} {i : Instr} (h : instrOf w x y z = some i) :
    operandCount (opcOf w) = some i.operands := by
  rw [← map_operands_instrOf w x y z, h, Option.map_some]

/-- Only the two fields whose use depends on another field can spoil a term, and both are read as zero there (R108). -/
theorem instrOf_wellFormed {w x y z : Word} {i : Instr} (h : instrOf w x y z = some i) : i.wellFormed = true := by
  unfold instrOf at h
  split at h <;> cases h <;> simp [Instr.wellFormed]

/-! ## Inverting the decoder -/

/-- A decoded command was read from its command word, and the words after it are those that its operand count leaves. -/
theorem exists_of_decode_eq_command {ws rest : List Word} {i : Instr} (h : decode ws = .command i rest) :
    ∃ (w : Word) (tail : List Word) (n : Nat), ws = w :: tail ∧ operandCount (opcOf w) = some n ∧ n ≤ tail.length ∧
      rest = tail.drop n ∧ instrOf w (tail.getD 0 0#32) (tail.getD 1 0#32) (tail.getD 2 0#32) = some i := by
  cases ws with
  | nil => cases h
  | cons w tail =>
    cases hcount : operandCount (opcOf w) with
    | none => rw [decode_reserved tail hcount] at h; cases h
    | some n =>
      have hlen : n ≤ tail.length := Nat.not_lt.1 fun hshort => by rw [decode_short hcount hshort] at h; cases h
      rw [decode_complete hcount hlen] at h
      cases hinstr : instrOf w (tail.getD 0 0#32) (tail.getD 1 0#32) (tail.getD 2 0#32) with
      | none => rw [hinstr] at h; cases h
      | some j => rw [hinstr] at h; cases h; exact ⟨w, tail, n, rfl, hcount, hlen, rfl, hinstr⟩

/-- Settles O2: the operand words are the first ones after the command word, as many as its OPC asks for. -/
theorem decodedCommandLength : Obligations.DecodedCommandLength := by
  intro ws i rest h
  obtain ⟨w, tail, n, rfl, hcount, hlen, rfl, hinstr⟩ := exists_of_decode_eq_command h
  have hn : n = i.operands := Option.some.inj (hcount.symm.trans (operandCount_of_instrOf hinstr))
  exact ⟨instrOf_wellFormed hinstr, w, tail.take n, by rw [List.take_append_drop],
    by rw [List.length_take_of_le hlen, hn], hn ▸ hcount⟩

/-! ## Reserved OPC values -/

/-- The reserved ranges of R104 are the OPC values without an operand count. -/
theorem reservedOpcode_eq_isNone : ∀ opc : BitVec 6, reservedOpcode opc.toNat = (operandCount opc).isNone := by decide

theorem operandCount_eq_none_iff (w : Word) :
    operandCount (opcOf w) = none ↔ reservedOpcode (w.toNat / 2 ^ 26) = true := by
  rw [← opcOf_toNat, reservedOpcode_eq_isNone, Option.isNone_iff_eq_none]

/-- The decoder takes only OPC values without an operand count as reserved (R109). -/
theorem operandCount_of_decode_reserved {w : Word} {tail rest : List Word} {opc : BitVec 6}
    (h : decode (w :: tail) = .reserved opc rest) : operandCount (opcOf w) = none := by
  cases hcount : operandCount (opcOf w) with
  | none => rfl
  | some n =>
    by_cases hshort : tail.length < n
    · rw [decode_short hcount hshort] at h; cases h
    · have hinstr := map_operands_instrOf w (tail.getD 0 0#32) (tail.getD 1 0#32) (tail.getD 2 0#32)
      obtain ⟨i, hi, -⟩ := Option.map_eq_some_iff.1 (hinstr.trans hcount)
      rw [decode_complete hcount (Nat.not_lt.1 hshort), hi] at h
      cases h

theorem step_of_reserved {s : State} {opc : BitVec 6} {rest : List Word} (h : decode s.input = .reserved opc rest) :
    step s = .next { s with input := rest, status := s.status ||| 1#6 } := by
  rw [step, fetch, h]
  rfl

/-- Settles O3: the reserved ranges are where the decoder answers `reserved`, on which a step only raises ERR_OPC. -/
theorem reservedOpcodeRaisesErrOpc : Obligations.ReservedOpcodeRaisesErrOpc := by
  intro s w rest hinput
  constructor
  · intro hres
    exact step_of_reserved (hinput ▸ decode_reserved rest ((operandCount_eq_none_iff w).2 hres))
  · intro hdefined opc r h
    rw [(operandCount_eq_none_iff w).1 (operandCount_of_decode_reserved (hinput ▸ h))] at hdefined
    cases hdefined

/-! ## The worked example -/

/-- Settles O5: the example of R115 by the decoder inverting the encoder, the other words by evaluation. -/
theorem workedEncodingExample : Obligations.WorkedEncodingExample :=
  ⟨rfl, decode_encode (.rsSetrate 2#6 .both 0x80000000#32 0x00000001#32) [] rfl, by decide⟩

end Sys2Proof
end

section
/-! The bits of a command word that its command uses (30_encoding.md R101, R107, R108): words that agree on them are
read alike, and the encoder leaves the others zero. -/

namespace Sys2Proof

open Sys2Proof.Machine

/-! ## Words that agree under a mask -/

/-- A field that lies under the mask is the same in both words. -/
theorem extractLsb'_eq_of_and_eq {w w' m : Word} (h : w &&& m = w' &&& m) {start len : Nat}
    (hm : m.extractLsb' start len = BitVec.allOnes len) : w.extractLsb' start len = w'.extractLsb' start len := by
  simpa [BitVec.extractLsb'_and, hm] using congrArg (BitVec.extractLsb' start len) h

/-- A bit that lies under the mask is the same in both words. -/
theorem getLsbD_eq_of_and_eq {w w' m : Word} (h : w &&& m = w' &&& m) {i : Nat} (hm : m.getLsbD i = true) :
    w.getLsbD i = w'.getLsbD i := by
  simpa [hm] using congrArg (BitVec.getLsbD · i) h

section
variable {w w' m : Word} (h : w &&& m = w' &&& m)
include h

theorem voiceOf_eq_of_and_eq (hm : m.extractLsb' 20 6 = 0x3F#6) : voiceOf w = voiceOf w' :=
  extractLsb'_eq_of_and_eq h hm

theorem laneOf_eq_of_and_eq (hm : m.extractLsb' 18 2 = 3#2) : laneOf w = laneOf w' :=
  congrArg laneOfBits (extractLsb'_eq_of_and_eq h hm)

theorem selOf_eq_of_and_eq (hm : m.extractLsb' 16 2 = 3#2) : selOf w = selOf w' :=
  congrArg selOfBits (extractLsb'_eq_of_and_eq h hm)

theorem immOf_eq_of_and_eq (hm : m.extractLsb' 0 16 = 0xFFFF#16) : immOf w = immOf w' := extractLsb'_eq_of_and_eq h hm

theorem immLow6_eq_of_and_eq (hm : m.extractLsb' 0 6 = 0x3F#6) : immLow6 w = immLow6 w' :=
  extractLsb'_eq_of_and_eq h hm

theorem immIndex_eq_of_and_eq (hm : m.extractLsb' 0 12 = 0xFFF#12) : immIndex w = immIndex w' :=
  extractLsb'_eq_of_and_eq h hm

theorem immFlag_eq_of_and_eq (hm : m.getLsbD 0 = true) : immFlag w = immFlag w' := getLsbD_eq_of_and_eq h hm

end

/-! ## Words that agree on the used bits -/

/-- Bit 19 of a command word is the upper bit of LANE (R101). -/
theorem getLsbD_eq_laneBits (w : Word) : w.getLsbD 19 = (laneBits w).getLsbD 1 := by simp [laneBits]

/-- LANE does not name one lane exactly when its upper bit, bit 19 of the word, is set (R105). -/
theorem dupSource_eq (w : Word) :
    dupSource w = if w.getLsbD 19 then .left else if w.getLsbD 8 then .right else .left := by
  unfold dupSource laneOf
  rw [getLsbD_eq_laneBits]
  generalize w.getLsbD 8 = right
  generalize laneBits w = lane
  revert right lane
  decide

theorem immIndex_toNat (w : Word) : (immIndex w).toNat = w.toNat % 2 ^ 12 := by simp [immIndex]

/-- RS.DUP uses the source lane, IMM16[8], for LANE 0 and 1 only (R107). -/
theorem usedBits_rsDup {w : Word} (hopc : w.toNat / 2 ^ 26 = 0x1C) :
    usedBits w = if w.getLsbD 19 then 0xFFFC003F#32 else 0xFFFC013F#32 := by
  simp only [usedBits, hopc]

/-- REG.RD and REG.WR use VOICE for a per-voice index only (10_state.md R48). -/
theorem usedBits_reg {w : Word} (hopc : w.toNat / 2 ^ 26 = 0x38 ∨ w.toNat / 2 ^ 26 = 0x39) :
    usedBits w = if (immIndex w).toNat < 0x100 then 0xFC000FFF#32 else 0xFFF00FFF#32 := by
  rw [immIndex_toNat]
  rcases hopc with hopc | hopc <;> simp only [usedBits, hopc]

section
variable {w w' : Word} (h : w &&& usedBits w = w' &&& usedBits w)
include h

/-- Every command uses its OPC (R108). -/
theorem opcOf_eq_of_used : opcOf w = opcOf w' := by
  refine extractLsb'_eq_of_and_eq h ?_
  unfold usedBits
  repeat' split
  all_goals rfl

/-- RS.DUP reads only fields it uses. -/
theorem dupFields_eq_of_used (hopc : w.toNat / 2 ^ 26 = 0x1C) :
    voiceOf w = voiceOf w' ∧ laneOf w = laneOf w' ∧ immLow6 w = immLow6 w' ∧ dupSource w = dupSource w' := by
  rw [usedBits_rsDup hopc] at h
  refine ⟨voiceOf_eq_of_and_eq h (by split <;> rfl), laneOf_eq_of_and_eq h (by split <;> rfl),
    immLow6_eq_of_and_eq h (by split <;> rfl), ?_⟩
  have hlane : w.getLsbD 19 = w'.getLsbD 19 := getLsbD_eq_of_and_eq h (by split <;> rfl)
  rw [dupSource_eq, dupSource_eq, ← hlane]
  split
  · rfl
  · rw [if_neg ‹_›] at h
    rw [getLsbD_eq_of_and_eq h rfl]

/-- REG.RD and REG.WR read only fields they use. -/
theorem regFields_eq_of_used (hopc : w.toNat / 2 ^ 26 = 0x38 ∨ w.toNat / 2 ^ 26 = 0x39) :
    regVoice w = regVoice w' ∧ immIndex w = immIndex w' := by
  rw [usedBits_reg hopc] at h
  have hidx : immIndex w = immIndex w' := immIndex_eq_of_and_eq h (by split <;> rfl)
  refine ⟨?_, hidx⟩
  rw [regVoice, regVoice, ← hidx]
  split
  · rw [if_neg (Nat.not_lt.2 ‹_›)] at h
    exact voiceOf_eq_of_and_eq h rfl
  · rfl

/-- A command reads only fields it uses: case by case of the opcode map, each field it reads lies under its mask. -/
theorem instrOf_eq_of_used (x y z : Word) : instrOf w x y z = instrOf w' x y z := by
  have hopc := opcOf_eq_of_used h
  have hdup := dupFields_eq_of_used h
  have hreg := regFields_eq_of_used h
  unfold usedBits at h
  have hvoice := voiceOf_eq_of_and_eq h
  have hlane := laneOf_eq_of_and_eq h
  have hsel := selOf_eq_of_and_eq h
  have himm := immOf_eq_of_and_eq h
  have hlow := immLow6_eq_of_and_eq h
  have hflag := immFlag_eq_of_and_eq h
  unfold instrOf
  rw [← hopc, opcOf_toNat]
  generalize w.toNat / 2 ^ 26 = opc at *
  split <;> simp [hvoice, hlane, hsel, himm, hlow, hflag, hdup, hreg]

theorem decode_eq_of_used (rest : List Word) : decode (w :: rest) = decode (w' :: rest) := by
  simp only [decode, opcOf_eq_of_used h, instrOf_eq_of_used h]

end

/-! ## The upper part of the first operand of FL.COEF -/

/-- FL.COEF with its two operand words: of the first one, the low byte is read (42_filter.md R244). -/
theorem decode_flCoef {w : Word} (hopc : w.toNat / 2 ^ 26 = 0x20) (x y : Word) (rest : List Word) :
    decode (w :: x :: y :: rest) = .command (.flCoef (voiceOf w) (immOf w) (x.extractLsb' 0 8) y) rest := by
  rw [← opcOf_toNat] at hopc
  rw [decode_complete (n := 2) (by simp only [operandCount, hopc]) (by simp)]
  simp [instrOf, hopc]

theorem decode_flCoef_lowByte {w x x' : Word} (hopc : w.toNat / 2 ^ 26 = 0x20) (hx : x.toNat % 2 ^ 8 = x'.toNat % 2 ^ 8)
    (rest : List Word) : decode (w :: x :: rest) = decode (w :: x' :: rest) := by
  cases rest with
  | nil =>
    have hcount : operandCount (opcOf w) = some 2 := by simp only [operandCount, opcOf_toNat, hopc]
    rw [decode_short hcount (by simp), decode_short hcount (by simp)]
  | cons y rest =>
    have hlow : x.extractLsb' 0 8 = x'.extractLsb' 0 8 := BitVec.eq_of_toNat_eq (by simpa using hx)
    rw [decode_flCoef hopc, decode_flCoef hopc, hlow]

/-! ## The bits that the encoder writes -/

/-- A zero-extended field lies under the mask of its width. -/
theorem setWidth_and_not_allOnes {n : Nat} (b : BitVec n) (len : Nat) :
    b.setWidth len &&& ~~~(BitVec.allOnes n).setWidth len = 0#len := by
  ext i hi
  simpa using fun hb => BitVec.lt_of_getLsbD hb

theorem flagImm_and_not (b : Bool) : flagImm b &&& ~~~1#16 = 0#16 := by cases b <;> rfl

/-- The source voice of RS.DUP lies in IMM16[5:0], and the source lane in IMM16[8] (R107). -/
theorem dupImm_and_not (srcVoice : VoiceIx) (srcLane : Side) : dupImm srcVoice srcLane &&& ~~~0x013F#16 = 0#16 := by
  revert srcVoice
  cases srcLane <;> decide

theorem dupImm_left_and_not (srcVoice : VoiceIx) : dupImm srcVoice .left &&& ~~~0x003F#16 = 0#16 := by
  revert srcVoice
  decide

theorem opc_commandWord (opc : BitVec 6) (v : VoiceIx) (lane sel : BitVec 2) (imm : BitVec 16) :
    (commandWord opc v lane sel imm).toNat / 2 ^ 26 = opc.toNat := by
  rw [← opcOf_toNat, opcOf_commandWord]

/-- A command word whose fields lie under the fields `v'`, `lane'`, `sel'` and `imm'` of its mask has no other bit. -/
theorem commandWord_unused {opc : BitVec 6} {v : VoiceIx} {lane sel : BitVec 2} {imm : BitVec 16} (v' : VoiceIx)
    (lane' sel' : BitVec 2) (imm' : BitVec 16)
    (hm : usedBits (commandWord opc v lane sel imm) = commandWord 0x3F#6 v' lane' sel' imm' := by
      rw [usedBits, opc_commandWord]; rfl)
    (hv : v &&& ~~~v' = 0#6 := by simp) (hlane : lane &&& ~~~lane' = 0#2 := by simp)
    (hsel : sel &&& ~~~sel' = 0#2 := by simp) (himm : imm &&& ~~~imm' = 0#16 := by simp) :
    commandWord opc v lane sel imm &&& ~~~usedBits (commandWord opc v lane sel imm) = 0#32 := by
  rw [hm]
  change (opc ++ v ++ lane ++ sel ++ imm) &&& ~~~(0x3F#6 ++ v' ++ lane' ++ sel' ++ imm') = 0#(6 + 6 + 2 + 2 + 16)
  simp only [BitVec.not_append, BitVec.and_append, hv, hlane, hsel, himm]
  simp

/-- RS.DUP: a source lane that is not used is L. -/
theorem dupWord_unused {v srcVoice : VoiceIx} {lane : LaneSel} {srcLane : Side}
    (h : dupSourceCanonical lane srcLane = true) :
    laneWord 0x1C#6 v lane (dupImm srcVoice srcLane) &&& ~~~usedBits (laneWord 0x1C#6 v lane (dupImm srcVoice srcLane))
      = 0#32 := by
  have hm : usedBits (laneWord 0x1C#6 v lane (dupImm srcVoice srcLane)) =
      if (bitsOfLane lane).getLsbD 1 then 0xFFFC003F#32 else 0xFFFC013F#32 := by
    rw [usedBits_rsDup (opc_commandWord ..), getLsbD_eq_laneBits, laneWord, laneBits_commandWord]
  cases lane with
  | left | right => exact commandWord_unused 0x3F#6 3#2 0#2 0x013F#16 hm (himm := dupImm_and_not srcVoice srcLane)
  | both | reserved =>
    obtain rfl : srcLane = .left := beq_iff_eq.1 h
    exact commandWord_unused 0x3F#6 3#2 0#2 0x003F#16 hm (himm := dupImm_left_and_not srcVoice)

/-- REG.RD and REG.WR: a voice that is not used is 0. -/
theorem regWord_unused {opc : BitVec 6} {v : VoiceIx} {idx : BitVec 12} (hopc : opc = 0x38#6 ∨ opc = 0x39#6)
    (h : regVoiceCanonical v idx = true) :
    voiceWord opc v (idx.setWidth 16) &&& ~~~usedBits (voiceWord opc v (idx.setWidth 16)) = 0#32 := by
  have himm : idx.setWidth 16 &&& ~~~0x0FFF#16 = 0#16 := setWidth_and_not_allOnes idx 16
  have hm : usedBits (voiceWord opc v (idx.setWidth 16)) =
      if idx.toNat < 0x100 then 0xFC000FFF#32 else 0xFFF00FFF#32 := by
    rw [usedBits_reg (by rw [voiceWord, opc_commandWord]; exact hopc.imp (congrArg _) (congrArg _)), voiceWord,
      immIndex_commandWord, BitVec.setWidth_setWidth_of_le _ (by decide), BitVec.setWidth_eq]
  by_cases hlt : idx.toNat < 0x100
  · have hv : v = 0#6 := by simpa [regVoiceCanonical, Nat.not_le.2 hlt] using h
    exact commandWord_unused 0#6 0#2 0#2 0x0FFF#16 (hm.trans (if_pos hlt)) (by simp [hv]) (himm := himm)
  · exact commandWord_unused 0x3F#6 0#2 0#2 0x0FFF#16 (hm.trans (if_neg hlt)) (himm := himm)

/-- The command word of a command has no bit that the command does not use: by the fields of its OPC, then the commands
with a conditionally unused field. -/
theorem encode_head_unused (i : Instr) (h : i.wellFormed = true) :
    (encode i).headD 0#32 &&& ~~~usedBits ((encode i).headD 0#32) = 0#32 := by
  cases i with
  | nop | mulsc | mulscv | mulsca | mulsc16 | lerp | aclr | aadd | amac | ard =>
    exact commandWord_unused 0#6 0#2 0#2 0#16
  | rsInit | rsClear | rsSetrate | rsFree | rsReady | rsCount | rsGet | rsGetf | flRun =>
    exact commandWord_unused 0x3F#6 3#2 0#2 0#16
  | rsSetq | rsWrite => exact commandWord_unused 0x3F#6 3#2 0#2 0xFFFF#16
  | rsWritef v lane depth =>
    exact commandWord_unused 0x3F#6 3#2 0#2 0x003F#16 (himm := setWidth_and_not_allOnes depth 16)
  | rsRemove v lane decay => exact commandWord_unused 0x3F#6 3#2 0#2 1#16 (himm := flagImm_and_not decay)
  | flCoef => exact commandWord_unused 0x3F#6 0#2 0#2 0xFFFF#16
  | flEn v flag | envRelease v flag => exact commandWord_unused 0x3F#6 0#2 0#2 1#16 (himm := flagImm_and_not flag)
  | envReset | envTick | envRead | lfoReset | lfoTick => exact commandWord_unused 0x3F#6 0#2 3#2 0#16
  | flSetc | flReset | fadeStart | fadeTick | dckSettgt | dckStep | dckCut | dckRetrig | dckHk | vcReset =>
    exact commandWord_unused 0x3F#6 0#2 0#2 0#16
  | rsDup => exact dupWord_unused h
  | regRd => exact regWord_unused (.inl rfl) h
  | regWr => exact regWord_unused (.inr rfl) h

/-- Settles O4: the used bits determine what is decoded, and the encoder writes no others; then the same for FL.COEF's
first operand. -/
theorem unusedFieldsIgnored : Obligations.UnusedFieldsIgnored := by
  refine ⟨fun w w' rest h => decode_eq_of_used h rest, fun i w ops hi henc => ?_,
    fun w x x' rest hopc hx => decode_flCoef_lowByte hopc hx rest, fun v cutoff resonance fs => ?_⟩
  · simpa [henc] using encode_head_unused i hi
  · exact ⟨voiceWord 0x20#6 v cutoff, resonance.setWidth 32, rfl, BitVec.toNat_setWidth_of_le (by decide)⟩

end Sys2Proof
end

section
/-! A command whose checks pass completes (60_exceptions.md R340, R345): it emits the response words of the opcode map
(30_encoding.md R104), and only a write of STATUS changes the error bits. -/

namespace Sys2Proof.Machine

open Sys2Proof

/-! ## What every command leaves -/

theorem Effect.stream_eq {i : Instr} {s t : State} (h : Effect i s t) :
    t.input = s.input ∧ t.params = s.params ∧ t.nv = s.nv := by
  cases h with
  | raised | answered | accSet | rampSet | statusCleared => exact ⟨rfl, rfl, rfl⟩
  | voiceSet v c c' => exact ⟨rfl, rfl, State.setVoice_nv s v c'⟩

/-! ## The checks that pass -/

/-- The checks of R345 passed, one condition for each field that is checked. -/
structure ChecksPass (i : Instr) (nv : Nat) : Prop where
  voice : ∀ v, i.voice? = some v → v.toNat < nv
  anyLane : ∀ lane, i.anyLane? = some lane → lane ≠ .reserved
  oneLane : ∀ lane, i.oneLane? = some lane → ∃ x, lane = laneOfSide x
  sel : ∀ sel, i.sel? = some sel → ∃ j, sel = selOfIndex j
  source : ∀ v, i.sourceVoice? = some v → v.toNat < nv
  index : ∀ n, i.index? = some n → reservedIndex n = false
  writable : i.isRegWrite = true → ∀ n, i.index? = some n → readOnlyIndex n = false

theorem exists_laneOfSide {lane : LaneSel} (hboth : lane ≠ .both) (hreserved : lane ≠ .reserved) :
    ∃ x, lane = laneOfSide x := by
  cases lane with
  | left => exact ⟨.left, rfl⟩
  | right => exact ⟨.right, rfl⟩
  | both => exact absurd rfl hboth
  | reserved => exact absurd rfl hreserved

theorem exists_selOfIndex {sel : Sel} (hreserved : sel ≠ .reserved) : ∃ j, sel = selOfIndex j := by
  cases sel with
  | s0 => exact ⟨0, rfl⟩
  | s1 => exact ⟨1, rfl⟩
  | s2 => exact ⟨2, rfl⟩
  | reserved => exact absurd rfl hreserved

theorem ite_some_eq_none_iff {α : Type} {p : Prop} [Decidable p] (a : α) (o : Option α) :
    (if p then some a else o) = none ↔ ¬p ∧ o = none := by
  by_cases hp : p <;> simp [hp]

theorem checksPass_of_firstError {i : Instr} {nv : Nat} (h : firstError i nv = none) : ChecksPass i nv := by
  simp only [firstError, ite_some_eq_none_iff, not_or] at h
  obtain ⟨hvoice, ⟨hany, hboth, hone⟩, hsel, hsource, hindex, hro, -⟩ := h
  exact {
    voice := fun v hv => by simpa [hv] using hvoice
    anyLane := fun lane hl e => hany (e ▸ hl)
    oneLane := fun lane hl => exists_laneOfSide (fun e => hboth (e ▸ hl)) fun e => hone (e ▸ hl)
    sel := fun sel hs => exists_selOfIndex fun e => hsel (e ▸ hs)
    source := fun v hv => by simpa [hv] using hsource
    index := fun n hn => by simpa [hn] using hindex
    writable := fun hw n hn => by simpa [hw, hn] using hro }

/-- A voice below NV exists (00_scope.md R11). -/
theorem State.exists_voice {s : State} {v : VoiceIx} (hv : v.toNat < s.nv) : ∃ c, s.voice? v = some c :=
  Option.isSome_iff_exists.1 ((s.voice?_isSome_iff v).2 hv)

/-! ## Answers that emit a number of words -/

/-- An answer from `s` that emits `n` response words and raises no error. -/
def Emits (n : Nat) (s : State) (o : Out) : Prop :=
  ∃ (t : State) (ws : List Word), o = .next t ∧ t.responses = s.responses ++ ws ∧ ws.length = n ∧ t.status = s.status

theorem Emits.silent {s t : State} (hr : t.responses = s.responses) (hs : t.status = s.status) : Emits 0 s (.next t) :=
  ⟨t, [], rfl, by rw [hr, List.append_nil], rfl, hs⟩

theorem Emits.emit {n : Nat} {s t : State} (w : Word) (h : Emits n s (.next t)) :
    Emits (n + 1) s (.next (t.emit w)) := by
  obtain ⟨u, ws, ho, hresponses, hlen, hstatus⟩ := h
  obtain rfl : t = u := Host.Outcome.next.inj ho
  exact ⟨_, ws ++ [w], rfl, by rw [State.emit_responses, hresponses, List.append_assoc], by simp [hlen], hstatus⟩

theorem Emits.emitted (s : State) (w : Word) : Emits 1 s (.next (s.emit w)) := .emit w (.silent rfl rfl)

theorem Emits.setVoice (s : State) (v : VoiceIx) (c : Voice) : Emits 0 s (.next (s.setVoice v c)) := .silent rfl rfl

theorem Emits.withVoice {n : Nat} {v : VoiceIx} {s : State} {k : Voice → Out} (hv : v.toNat < s.nv)
    (hk : ∀ c, Emits n s (k c)) : Emits n s (withVoice v s k) := by
  obtain ⟨c, hc⟩ := State.exists_voice hv
  rw [withVoice_some k hc]
  exact hk c

theorem Emits.withSide {n : Nat} {lane : LaneSel} {s : State} {k : Side → Out} (hlane : ∃ x, lane = laneOfSide x)
    (hk : ∀ x, Emits n s (k x)) : Emits n s (withSide lane s k) := by
  obtain ⟨x, rfl⟩ := hlane
  rw [withSide_laneOfSide]
  exact hk x

theorem Emits.withSel {n : Nat} {sel : Sel} {s : State} {k : Fin 3 → Out} (hsel : ∃ j, sel = selOfIndex j)
    (hk : ∀ j, Emits n s (k j)) : Emits n s (withSel sel s k) := by
  obtain ⟨j, rfl⟩ := hsel
  rw [withSel_selOfIndex]
  exact hk j

theorem Emits.updateVoice {v : VoiceIx} {s : State} (hv : v.toNat < s.nv) (f : Voice → Voice) :
    Emits 0 s (updateVoice v s f) :=
  .withVoice hv fun _ => .setVoice s v _

theorem Emits.updateLanes {v : VoiceIx} {lane : LaneSel} {s : State} (hv : v.toNat < s.nv) (hlane : lane ≠ .reserved)
    (f : Lane → Lane) : Emits 0 s (updateLanes v lane s f) := by
  obtain ⟨c, hc⟩ := State.exists_voice hv
  rw [updateLanes_run f hc hlane]
  exact .setVoice s v _

theorem Emits.exec_read {op : VoiceIx → LaneSel → Instr}
    (hop : op = Instr.rsCount ∨ op = Instr.rsGet ∨ op = Instr.rsGetf) {v : VoiceIx} {lane : LaneSel} {s : State}
    (hv : v.toNat < s.nv) (hlane : ∃ x, lane = laneOfSide x) : Emits 1 s (exec (op v lane) s) := by
  obtain ⟨f, hf⟩ := exec_read_eq_fillThenEmit hop
  rw [hf]
  exact .withVoice hv fun _ => .withSide hlane fun _ => .emit _ (.silent rfl rfl)

/-! ## The commands -/

theorem execRsDup_emits {v srcVoice : VoiceIx} {lane : LaneSel} {s : State} (hv : v.toNat < s.nv)
    (hlane : lane ≠ .reserved) (hsrc : srcVoice.toNat < s.nv) (srcLane : Side) :
    Emits 0 s (execRsDup v lane srcVoice srcLane s) := by
  refine .withVoice hv fun c => ?_
  cases lane with
  | left | right | both => exact .withVoice hsrc fun _ => .setVoice s v _
  | reserved => exact absurd rfl hlane

theorem exec_regRd_emits {v : VoiceIx} {idx : BitVec 12} {s : State} (hv : 0x100 ≤ idx.toNat → v.toNat < s.nv)
    (hidx : reservedIndex idx.toNat = false) : Emits 1 s (exec (.regRd v idx) s) := by
  by_cases hlt : idx.toNat < 0x100
  · obtain ⟨r, hr, -⟩ := globalReg_some hlt hidx
    rw [exec_regRd_global v hlt hr]
    exact .emitted s _
  · have hge := Nat.not_lt.1 hlt
    obtain ⟨c, hc⟩ := State.exists_voice (hv hge)
    obtain ⟨r, hr, -⟩ := voiceReg_some hge idx.isLt hidx
    rw [exec_regRd_voice hge hc hr]
    exact .emitted s _

theorem writeGlobal_emits {s : State} {r : GReg} (h : r ≠ .status) (w : Word) :
    Emits 0 s (.next (writeGlobal s r w)) := by
  cases r with
  | status => exact absurd rfl h
  | id | nv | macAcc | rampDelta | caps => exact .silent rfl rfl

theorem globalReg_eq_status_iff (n : Nat) : globalReg n = some .status ↔ n = 0 := by
  constructor
  · intro h
    unfold globalReg at h
    split at h <;> cases h
    rfl
  · rintro rfl
    rfl

theorem exec_regWr_emits {v : VoiceIx} {idx : BitVec 12} {s : State} (hv : 0x100 ≤ idx.toNat → v.toNat < s.nv)
    (hidx : reservedIndex idx.toNat = false) (hro : readOnlyIndex idx.toNat = false) (hstatus : idx ≠ 0x000#12)
    (w : Word) : Emits 0 s (exec (.regWr v idx w) s) := by
  by_cases hlt : idx.toNat < 0x100
  · obtain ⟨r, hr, hrw⟩ := globalReg_some hlt hidx
    have hne : r ≠ .status := fun e =>
      hstatus (BitVec.eq_of_toNat_eq ((globalReg_eq_status_iff _).1 (e ▸ hr)))
    rw [exec_regWr_global v w hlt hr, hrw, hro]
    exact writeGlobal_emits hne w
  · have hge := Nat.not_lt.1 hlt
    obtain ⟨c, hc⟩ := State.exists_voice (hv hge)
    obtain ⟨r, hr, hrw⟩ := voiceReg_some hge idx.isLt hidx
    rw [exec_regWr_voice w hge hc hr (hrw.trans hro)]
    exact .setVoice s v _

/-- A command whose checks pass emits the words of the "res" column and, unless it writes STATUS, keeps STATUS. -/
theorem exec_emits {i : Instr} {s : State} (h : ChecksPass i s.nv) (hstatus : ∀ v w, i ≠ .regWr v 0x000#12 w) :
    Emits i.results s (exec i s) := by
  obtain ⟨hvoice, hany, hone, hsel, hsource, hindex, hwritable⟩ := h
  cases i with
  | nop | aclr | aadd | amac => exact .silent rfl rfl
  | mulsc | mulscv | mulsca | mulsc16 | lerp | ard => exact .emitted s _
  | rsInit v lane | rsClear v lane | rsSetq v lane | rsSetrate v lane | rsWrite v lane | rsWritef v lane
  | rsRemove v lane => exact .updateLanes (hvoice v rfl) (hany lane rfl) _
  | rsFree v lane | rsReady v lane =>
    exact .withVoice (hvoice v rfl) fun _ => .withSide (hone lane rfl) fun _ => .emitted s _
  | rsCount v lane => exact .exec_read (.inl rfl) (hvoice v rfl) (hone lane rfl)
  | rsGet v lane => exact .exec_read (.inr (.inl rfl)) (hvoice v rfl) (hone lane rfl)
  | rsGetf v lane => exact .exec_read (.inr (.inr rfl)) (hvoice v rfl) (hone lane rfl)
  | rsDup v lane srcVoice srcLane =>
    exact execRsDup_emits (hvoice v rfl) (hany lane rfl) (hsource srcVoice rfl) srcLane
  | flCoef v | flSetc v | flReset v | flEn v | envRelease v | fadeStart v | dckSettgt v | dckCut v | dckRetrig v
  | vcReset v => exact .updateVoice (hvoice v rfl) _
  | flRun v lane x =>
    refine .withVoice (hvoice v rfl) fun c => .withSide (hone lane rfl) fun y => ?_
    split
    · exact .emit _ (.setVoice s v _)
    · exact .emitted s x
  | envReset v sel | lfoReset v sel =>
    exact .withVoice (hvoice v rfl) fun _ => .withSel (hsel sel rfl) fun _ => .setVoice s v _
  | envRead v sel => exact .withVoice (hvoice v rfl) fun _ => .withSel (hsel sel rfl) fun _ => .emitted s _
  | lfoTick v sel => exact .withVoice (hvoice v rfl) fun _ => .withSel (hsel sel rfl) fun _ => .emit _ (.setVoice s v _)
  | envTick v sel =>
    refine .withVoice (hvoice v rfl) fun c => .withSel (hsel sel rfl) fun j => ?_
    dsimp only
    split
    · exact .emit _ (.emit _ (.setVoice s v _))
    · exact .emit _ (.emitted s _)
  | fadeTick v | dckHk v => exact .withVoice (hvoice v rfl) fun _ => .emit _ (.setVoice s v _)
  | dckStep v => exact .withVoice (hvoice v rfl) fun _ => .emit _ (.emit _ (.setVoice s v _))
  | regRd v idx => exact exec_regRd_emits (fun hge => hvoice v (if_pos hge)) (hindex _ rfl)
  | regWr v idx w =>
    exact exec_regWr_emits (fun hge => hvoice v (if_pos hge)) (hindex _ rfl) (hwritable rfl _ rfl)
      (fun e => hstatus v w (e ▸ rfl)) w

theorem exec_regWr_status (v : VoiceIx) (w : Word) (s : State) :
    exec (.regWr v 0x000#12 w) s = .next (s.clearStatus w) :=
  exec_regWr_global v (r := .status) w (by decide) rfl

/-- Settles O10: a write of STATUS apart, the checks leave the run of the command. -/
theorem legalCommandCompletes : Obligations.LegalCommandCompletes := by
  intro i s h
  by_cases hstatus : ∀ v w, i ≠ .regWr v 0x000#12 w
  · obtain ⟨t, ws, ho, hresponses, hlen, hst⟩ := exec_emits (checksPass_of_firstError h) hstatus
    obtain ⟨hinput, hparams, hnv⟩ := (exec_effect i s t ho).stream_eq
    exact ⟨t, ws, ho, hresponses, hlen, hinput, hparams, hnv, fun _ => hst⟩
  · push Not at hstatus
    obtain ⟨v, w, rfl⟩ := hstatus
    exact ⟨_, [], exec_regWr_status v w s, (List.append_nil _).symm, rfl, rfl, rfl, rfl,
      fun hne => absurd rfl (hne v w)⟩

end Sys2Proof.Machine
end

section
/-! The fixed-point products as words (40_mac.md R130 to R143): the scaled product is the high word of the 64-bit
product, each product of the MAC unit is one of pre-shifted words, and it is the exact quotient while no pre-shift
wraps. -/

namespace Sys2Proof.Machine

open Sys2Proof

/-! ## The scaled product (R132) -/

theorem toInt_extractLsb'_high (z : BitVec 64) : (z.extractLsb' 32 32).toInt = z.toInt / 2 ^ 32 := by
  rw [BitVec.toInt_extractLsb', BitVec.toInt_eq_toNat_bmod z, Nat.shiftRight_eq_div_pow]
  have hz := z.isLt
  simp only [Int.bmod_def]
  omega

theorem natAbs_toInt_mul_le (x y : Word) : (x.toInt * y.toInt).natAbs ≤ 2 ^ 62 := by
  have hhi : x.toInt * y.toInt ≤ 2 ^ 62 := BitVec.toInt_mul_toInt_le
  have hlo : -2 ^ 62 ≤ x.toInt * y.toInt := BitVec.le_toInt_mul_toInt
  omega

theorem toInt_signExtend_mul (x y : Word) : (x.signExtend 64 * y.signExtend 64).toInt = x.toInt * y.toInt := by
  have h := natAbs_toInt_mul_le x y
  rw [BitVec.toInt_mul, BitVec.toInt_signExtend_of_le (by decide), BitVec.toInt_signExtend_of_le (by decide)]
  exact Int.bmod_eq_of_le (by omega) (by omega)

theorem highProduct_toInt (x y : Word) : (highProduct x y).toInt = x.toInt * y.toInt / 2 ^ 32 := by
  rw [highProduct, toInt_extractLsb'_high, toInt_signExtend_mul]

theorem hi32_eq_ediv (x y : Int) : hi32 x y = x * y / 2 ^ 32 := Int.fdiv_eq_ediv_of_nonneg _ (by decide)

@[simp] theorem hi32_toInt (x y : Word) : hi32 x.toInt y.toInt = (highProduct x y).toInt := by
  rw [hi32_eq_ediv, highProduct_toInt]

/-- Settles O14: the product of two words is at most 2^62 in magnitude, so its high word is at most 2^30. -/
theorem scaledProductRange : Obligations.ScaledProductRange := by
  intro x y
  have hprod := natAbs_toInt_mul_le x y
  have hdiv := hi32_eq_ediv x.toInt y.toInt
  exact ⟨hprod, hdiv, hi32_toInt x y, by omega, by omega⟩

/-! ## The products of the MAC unit (R135 to R138) -/

@[simp] theorem mulsc_sword (a b : Word) :
    mulsc (sword a) (sword b) = (highProduct (a <<< 4) (b <<< 12)).toInt := by
  simp only [mulsc, sword, shl32_toInt, hi32_toInt]

@[simp] theorem mulscv_sword (a b : Word) : mulscv (sword a) (sword b) = (highProduct a b).toInt := hi32_toInt a b

@[simp] theorem mulsca_sword (x c : Word) : mulsca (sword x) (sword c) = (highProduct (x <<< 4) c).toInt := by
  simp only [mulsca, sword, shl32_toInt, hi32_toInt]

@[simp] theorem mulsc16_sword (a b : Word) :
    mulsc16 (sword a) (sword b) = (highProduct (a <<< 12) (b <<< 12)).toInt := by
  simp only [mulsc16, sword, shl32_toInt, hi32_toInt]

/-! ## Where the products are exact -/

/-- The pre-shift by `n` does not wrap below 2^(31 - n) in magnitude (R131). -/
theorem toInt_shiftLeft_of_natAbs_lt {a : Word} {n k : Nat} (hk : n + k = 31) (h : a.toInt.natAbs < 2 ^ k) :
    (a <<< n).toInt = a.toInt * 2 ^ n := by
  have hfits : (a.toInt * 2 ^ n).natAbs < 2 ^ 31 := by
    calc (a.toInt * 2 ^ n).natAbs = a.toInt.natAbs * 2 ^ n := by rw [Int.natAbs_mul, Int.natAbs_pow]; rfl
      _ < 2 ^ k * 2 ^ n := Nat.mul_lt_mul_of_pos_right h (Nat.two_pow_pos n)
      _ = 2 ^ 31 := by rw [← Nat.pow_add, Nat.add_comm, hk]
  rw [← shl32_toInt]
  exact s32_of_fits (by omega) (by omega)

theorem toInt_sub_of_natAbs_lt {a b : Word} (h : (b.toInt - a.toInt).natAbs < 2 ^ 27) :
    (b - a).toInt = b.toInt - a.toInt := by
  rw [BitVec.toInt_sub]
  exact Int.bmod_eq_of_le (by omega) (by omega)

/-- The high word of the product of two scaled values is their own product scaled back, rounded toward minus infinity
(R132). -/
theorem highProduct_toInt_of_scaled {x y : Word} {a b : Int} {m n k : Nat} (hx : x.toInt = a * 2 ^ m)
    (hy : y.toInt = b * 2 ^ n) (hk : k + (m + n) = 32) : (highProduct x y).toInt = a * b / 2 ^ k := by
  calc (highProduct x y).toInt = a * b * 2 ^ (m + n) / (2 ^ k * 2 ^ (m + n)) := by
        rw [highProduct_toInt, hx, hy, ← pow_add 2 k, hk, pow_add, mul_mul_mul_comm]
    _ = a * b / 2 ^ k := Int.mul_ediv_mul_of_pos_left _ _ (by positivity)

theorem highProduct_mulsc_toInt {a b : Word} (ha : a.toInt.natAbs < 2 ^ 27) (hb : b.toInt.natAbs < 2 ^ 19) :
    (highProduct (a <<< 4) (b <<< 12)).toInt = a.toInt * b.toInt / 2 ^ 16 :=
  highProduct_toInt_of_scaled (toInt_shiftLeft_of_natAbs_lt rfl ha) (toInt_shiftLeft_of_natAbs_lt rfl hb) rfl

theorem highProduct_mulsca_toInt {a : Word} (ha : a.toInt.natAbs < 2 ^ 27) (b : Word) :
    (highProduct (a <<< 4) b).toInt = a.toInt * b.toInt / 2 ^ 28 :=
  highProduct_toInt_of_scaled (n := 0) (toInt_shiftLeft_of_natAbs_lt rfl ha) (mul_one _).symm rfl

/-- The Q4.28 coefficient 1.0 gives the sample back (R137). -/
theorem highProduct_mulsca_one {a : Word} (ha : a.toInt.natAbs < 2 ^ 27) :
    highProduct (a <<< 4) 0x10000000#32 = a := by
  apply BitVec.eq_of_toInt_eq
  rw [highProduct_mulsca_toInt ha]
  exact Int.mul_ediv_cancel _ (by decide)

theorem highProduct_mulsc16_toInt {a b : Word} (ha : a.toInt.natAbs < 2 ^ 19) (hb : b.toInt.natAbs < 2 ^ 19) :
    (highProduct (a <<< 12) (b <<< 12)).toInt = a.toInt * b.toInt / 2 ^ 8 :=
  highProduct_toInt_of_scaled (toInt_shiftLeft_of_natAbs_lt rfl ha) (toInt_shiftLeft_of_natAbs_lt rfl hb) rfl

/-! ## The multiplies -/

theorem exec_mulsc (a b : Word) (s : State) :
    exec (.mulsc a b) s = .next (s.emit (highProduct (a <<< 4) (b <<< 12))) := by
  simp only [exec, execMulsc, mulsc_sword, u32_toInt]

theorem exec_mulscv (a b : Word) (s : State) : exec (.mulscv a b) s = .next (s.emit (highProduct a b)) := by
  simp only [exec, execMulscv, mulscv_sword, u32_toInt]

theorem exec_mulsca (x c : Word) (s : State) : exec (.mulsca x c) s = .next (s.emit (highProduct (x <<< 4) c)) := by
  simp only [exec, execMulsca, mulsca_sword, u32_toInt]

theorem exec_mulsc16 (a b : Word) (s : State) :
    exec (.mulsc16 a b) s = .next (s.emit (highProduct (a <<< 12) (b <<< 12))) := by
  simp only [exec, execMulsc16, mulsc16_sword, u32_toInt]

/-- Settles O15: each multiply emits the high word of its pre-shifted operands, which is exact while they fit. -/
theorem multiplyResults : Obligations.MultiplyResults := fun a b s =>
  ⟨exec_mulsc a b s, exec_mulscv a b s, exec_mulsca a b s, exec_mulsc16 a b s, highProduct_mulsc_toInt,
    highProduct_toInt a b, fun ha => highProduct_mulsca_toInt ha b, highProduct_mulsca_one,
    highProduct_mulsc16_toInt⟩

/-! ## Wrapping sums (R14, R139, R141, R142) -/

theorem u32_s32 (x : Int) : u32 (s32 x) = u32 x := BitVec.ofInt_toInt

theorem u32_add (x y : Int) : u32 (x + y) = u32 x + u32 y := BitVec.ofInt_add x y

@[simp] theorem u32_sword (a : Word) : u32 (sword a) = a := u32_toInt a

theorem s32_sub_sword (a b : Word) : s32 (sword b - sword a) = sword (b - a) := by
  rw [s32, sword, sword, sword, BitVec.toInt_ofInt, BitVec.toInt_sub]

/-! ## LERP (R139) -/

theorem exec_lerp (a b f : Word) (s : State) :
    exec (.lerp a b f) s = .next (s.emit (a + highProduct ((b - a) <<< 4) (f <<< 12))) := by
  simp only [exec, execLerp, lerp, u32_s32, u32_add, s32_sub_sword, mulsc_sword, u32_sword, u32_toInt]

/-- The interpolated value, while neither pre-shift nor the difference wraps. -/
theorem lerp_word_eq {a b f : Word} (hd : (b.toInt - a.toInt).natAbs < 2 ^ 27) (hf : f.toNat < 2 ^ 19) :
    a + highProduct ((b - a) <<< 4) (f <<< 12) =
      BitVec.ofInt 32 (a.toInt + (b.toInt - a.toInt) * f.toNat / 2 ^ 16) := by
  have hsub := toInt_sub_of_natAbs_lt hd
  have hfrac : f.toInt = f.toNat := BitVec.toInt_eq_toNat_of_lt (by omega)
  have hhigh := highProduct_mulsc_toInt (a := b - a) (b := f) (hsub ▸ hd) (by omega)
  rw [BitVec.ofInt_add, BitVec.ofInt_toInt, ← hfrac, ← hsub, ← hhigh, BitVec.ofInt_toInt]

theorem highProduct_zero (x : Word) : highProduct x 0#32 = 0#32 := by
  apply BitVec.eq_of_toInt_eq
  rw [highProduct_toInt, BitVec.toInt_zero, mul_zero, Int.zero_ediv]

theorem lerp_word_zero (a b : Word) : a + highProduct ((b - a) <<< 4) (0#32 <<< 12) = a := by
  rw [BitVec.zero_shiftLeft, highProduct_zero, BitVec.add_zero]

theorem lerp_word_one {a b : Word} (hd : (b.toInt - a.toInt).natAbs < 2 ^ 27) :
    a + highProduct ((b - a) <<< 4) (0x10000#32 <<< 12) = b := by
  have hquot : (b.toInt - a.toInt) * (0x10000#32 : Word).toNat / 2 ^ 16 = b.toInt - a.toInt :=
    Int.mul_ediv_cancel _ (by decide)
  rw [lerp_word_eq hd (by decide), hquot, add_sub_cancel, BitVec.ofInt_toInt]

/-- Settles O16: the result as words, its two ends, and the interpolated value of the exact range. -/
theorem lerpResults : Obligations.LerpResults := by
  intro a b f s
  refine ⟨exec_lerp a b f s, ?_, ?_, lerp_word_eq⟩
  · rintro rfl
    exact lerp_word_zero a b
  · rintro hd rfl
    exact lerp_word_one hd

/-! ## The accumulator (R140 to R143) -/

theorem exec_aadd (x : Word) (s : State) : exec (.aadd x) s = .next (s.setAcc (s.acc + x)) := by
  simp only [exec, execAadd, u32_add, u32_sword]

theorem exec_amac (x c : Word) (s : State) :
    exec (.amac x c) s = .next (s.setAcc (s.acc + highProduct (x <<< 4) c)) := by
  simp only [exec, execAmac, u32_add, mulsca_sword, u32_sword, u32_toInt]

/-- Settles O17: NOP, ACLR and ARD as defined, AADD and AMAC by the sum of words. -/
theorem accumulatorCommands : Obligations.AccumulatorCommands := fun x c s =>
  ⟨rfl, rfl, exec_aadd x s, exec_amac x c s, rfl⟩

end Sys2Proof.Machine
end

section
/-! The resampler commands that set up, feed and drain a lane (41_resampler.md R161, R165, R168, R177 to R185, R189,
R190): the command runs the lane procedure on the lanes it names, and the procedure is its pseudocode. -/

namespace Sys2Proof.Machine

open Sys2Proof

/-! ## The columns of R161 -/

theorem Quality.isBL_iff (q : Quality) : q.isBL = true ↔ q = .blep ∨ q = .blam := by cases q <;> decide

theorem Quality.outDelay_eq (q : Quality) : q.outDelay = if q = .blep ∨ q = .blam then 15 else 0 := by
  cases q <;> rfl

/-! ## RS.INIT and RS.CLEAR (R178, R179) -/

/-- Settles O23: the pseudocode of RS.INIT gives the reset lane from any lane. -/
theorem rsInitResetsLanes : Obligations.RsInitResetsLanes := by
  intro s v c lane hv hl
  have hinit : Lane.init = fun _ => Lane.reset := funext Lane.init_eq
  rw [← hinit]
  exact updateLanes_run Lane.init hv hl

theorem ringGet_clearCells (r : Ring) {n i : Nat} (hn : n ≤ 64) (hi : i < 64) :
    ringGet (clearCells n r) i = if i < n then 0#32 else ringGet r i := by
  induction n with
  | zero => rfl
  | succ n ih =>
    rw [clearCells]
    by_cases h : i = n
    · rw [h, ringGet_ringSet_self _ _ rfl, if_pos n.lt_succ_self]
    · rw [ringGet_ringSet_ne _ _ (by omega), ih (by omega)]
      simp only [show i < n + 1 ↔ i < n by omega]

theorem Lane.clear_of_isBL {l : Lane} (h : l.q.isBL = true) :
    l.clear = { l with
      wpos := 15#6, wfill := 0, rpos := 0#6, rfill := 0, phase := 0#32, inPrimed := false, outPrimed := false
      inRing := clearCells 15 l.inRing, iphase := 0#32, lastAmp := 0#32, accum := 0#32, outRing := zeroRing } := by
  rw [Lane.clear]
  exact if_pos h

theorem Lane.clear_of_not_isBL {l : Lane} (h : ¬ l.q.isBL = true) :
    l.clear = { l with
      wpos := 15#6, wfill := 0, rpos := 0#6, rfill := 0, phase := 0#32, inPrimed := false, outPrimed := false
      inRing := clearCells 15 l.inRing } := by
  rw [Lane.clear]
  exact if_neg h

/-- Settles O24: CLEAR_CORE on a lane of BLEP or BLAM, and on any other. -/
theorem rsClearEmptiesLanes : Obligations.RsClearEmptiesLanes := by
  refine ⟨fun s v c lane hv hl => updateLanes_run Lane.clear hv hl, fun l => ?_⟩
  have hring : ∀ i < 64, ringGet (clearCells 15 l.inRing) i = if i < 15 then 0#32 else ringGet l.inRing i :=
    fun i hi => ringGet_clearCells l.inRing (by decide) hi
  by_cases hq : l.q = .blep ∨ l.q = .blam
  · rw [Lane.clear_of_isBL (l.q.isBL_iff.2 hq), if_pos hq]
    exact ⟨rfl, rfl, rfl, rfl, rfl, rfl, rfl, rfl, rfl, rfl, hring, rfl, rfl, rfl, rfl⟩
  · rw [Lane.clear_of_not_isBL (mt l.q.isBL_iff.1 hq), if_neg hq]
    exact ⟨rfl, rfl, rfl, rfl, rfl, rfl, rfl, rfl, rfl, rfl, hring, rfl, rfl, rfl, rfl⟩

/-! ## RS.SETQ and RS.SETRATE (R180, R181) -/

theorem toNat_qualityOfNat {n : Nat} (h : n ≤ 5) : (qualityOfNat n).toNat = n := by
  interval_cases n <;> rfl

theorem toNat_qualityOfImm (level : BitVec 16) : ((qualityOfImm level).toNat : Int) = min (max level.toInt 0) 5 := by
  rw [qualityOfImm, clamp, sext, toNat_qualityOfNat (by omega)]
  omega

/-- Settles O25: the three branches of the pseudocode of R180. -/
theorem rsSetqSwitchesQuality : Obligations.RsSetqSwitchesQuality := by
  refine ⟨fun s v c lane level hv hl => updateLanes_run _ hv hl, toNat_qualityOfImm, fun l qn => ?_⟩
  have hbl : (qn.isBL || l.q.isBL) = true ↔ (qn = .blep ∨ qn = .blam) ∨ (l.q = .blep ∨ l.q = .blam) := by
    rw [Bool.or_eq_true, qn.isBL_iff, l.q.isBL_iff]
  simp only [← hbl, Lane.setQuality]
  split
  · rfl
  · split <;> rfl

/-- The clamped ratio fits in the 64 bits of inc. -/
theorem toNat_ofNat_clampRatio (r : Nat) : (BitVec.ofNat 64 (clampRatio r)).toNat = clampRatio r := by
  have hmax : clampRatio r < 2 ^ 64 := (clampRatio_bounds r).2.trans_lt (by decide)
  rw [BitVec.toNat_ofNat, Nat.mod_eq_of_lt hmax]

/-- The inverse of the clamped ratio fits in the 64 bits of iinc. -/
theorem toNat_ofNat_div_clampRatio (r : Nat) :
    (BitVec.ofNat 64 (2 ^ 64 / clampRatio r)).toNat = 2 ^ 64 / clampRatio r := by
  have hmax : 2 ^ 64 / clampRatio r < 2 ^ 64 :=
    (Nat.div_le_div_left (clampRatio_bounds r).1 (by decide)).trans_lt (by decide)
  rw [BitVec.toNat_ofNat, Nat.mod_eq_of_lt hmax]

theorem clampRatio_pos (r : Nat) : 0 < clampRatio r := (clampRatio_bounds r).1.trans_lt' (by decide)

/-- Settles O26: the second stored number is the floor of the quotient by the first. -/
theorem rsSetrateStoresRates : Obligations.RsSetrateStoresRates := by
  intro s v c lane lo hi hv hl
  refine ⟨_, _, toNat_ofNat_clampRatio (ratioOfWords lo hi), ?_, ?_, updateLanes_run _ hv hl⟩
  · rw [toNat_ofNat_div_clampRatio, toNat_ofNat_clampRatio]
    exact Nat.div_mul_le_self _ _
  · rw [toNat_ofNat_div_clampRatio, toNat_ofNat_clampRatio]
    exact (Nat.div_lt_iff_lt_mul (clampRatio_pos _)).1 (Nat.lt_succ_self _)

/-! ## RS.WRITE and RS.WRITEF (R165) -/

theorem Lane.writeIn_of_full {l : Lane} (x : F) (hp : l.inPrimed = true) (hfull : 64 ≤ l.wfill) : l.writeIn x = l := by
  simp only [Lane.writeIn, hp, if_true]
  exact if_neg (by omega)

theorem Lane.writeIn_of_room {l : Lane} (x : F) (hp : l.inPrimed = true) (hroom : l.wfill < 64) :
    l.writeIn x = { l with inRing := ringSet l.inRing l.wpos.toNat x, wfill := l.wfill + 1, wpos := l.wpos + 1#6 } := by
  simp only [Lane.writeIn, hp, if_true]
  exact if_pos hroom

/-- The first write sets wfill to the input delay, whatever it was, so there is room. -/
theorem Lane.writeIn_of_unprimed {l : Lane} (x : F) (hp : l.inPrimed = false) :
    l.writeIn x = { l with
      inPrimed := true, inRing := ringSet l.inRing l.wpos.toNat x, wpos := l.wpos + 1#6, wfill := l.q.inDelay + 1 } := by
  have hroom : l.q.inDelay < 64 := by cases l.q <;> decide
  simp only [Lane.writeIn, hp, Bool.false_eq_true, if_false]
  exact if_pos hroom

/-- Settles O27: the three cases of write_in. -/
theorem rsWritePushesSample : Obligations.RsWritePushesSample := by
  refine ⟨fun s v c lane hv hl => ⟨fun sample => updateLanes_run _ hv hl, fun depth value => updateLanes_run _ hv hl⟩,
    fun l x => ⟨Lane.writeIn_of_full x, Lane.writeIn_of_room x, Lane.writeIn_of_unprimed x⟩⟩

/-! ## RS.FREE and RS.READY (R184, R185) -/

/-- A command on one lane of a voice that exists. -/
theorem withLane_run {v : VoiceIx} {s : State} {c : Voice} (x : Side) (k : Voice → Side → Lane → Out)
    (h : s.voice? v = some c) : withLane v (laneOfSide x) s k = k c x (c.lanes.get x) := by
  rw [withLane, withVoice_some _ h, withSide_laneOfSide]

theorem exec_rsFree {v : VoiceIx} {s : State} {c : Voice} (x : Side) (h : s.voice? v = some c) :
    exec (.rsFree v (laneOfSide x)) s = .next (s.emit (u32 (64 - (c.lanes.get x).wfill))) := by
  rw [exec, execRsFree, withLane_run x _ h]

theorem exec_rsReady {v : VoiceIx} {s : State} {c : Voice} (x : Side) (h : s.voice? v = some c) :
    exec (.rsReady v (laneOfSide x)) s =
      .next (s.emit (if (c.lanes.get x).q.minFill < (c.lanes.get x).wfill then 1#32 else 0#32)) := by
  rw [exec, execRsReady, withLane_run x _ h]
  simp only [wordOfBool, decide_eq_true_eq]

/-- With wfill in -30..64 the free count is 0..94, so its word does not wrap. -/
theorem freeCount_add_wfill {l : Lane} (h : l.wf) : ((BitVec.ofInt 32 (64 - l.wfill)).toNat : Int) + l.wfill = 64 := by
  obtain ⟨-, hlo, hhi, -⟩ := h
  rw [BitVec.toNat_ofInt]
  omega

/-- Settles O28: both commands emit a word of the lane's counters. -/
theorem rsFreeAndReady : Obligations.RsFreeAndReady := by
  rintro s v c x l hv rfl
  exact ⟨exec_rsFree x hv, freeCount_add_wfill, exec_rsReady x hv⟩

/-! ## RS.REMOVE (R168) -/

theorem Lane.remove_of_empty (p : Params) (decay : Bool) {l : Lane} (h : l.rfill = 0) : l.remove p decay = l := by
  rw [Lane.remove]
  exact if_neg (by omega)

theorem Lane.remove_of_not_isBL (p : Params) (decay : Bool) {l : Lane} (h : 0 < l.rfill) (hq : ¬ l.q.isBL = true) :
    l.remove p decay = { l with rfill := l.rfill - 1, rpos := l.rpos + 1#6 } := by
  simp only [Lane.remove, if_pos h, if_neg hq]

/-- For BLEP and BLAM the cell moves into the integrator, which decays on request. -/
theorem Lane.remove_of_isBL (p : Params) (decay : Bool) {l : Lane} {a b : F} (h : 0 < l.rfill) (hq : l.q.isBL = true)
    (ha : a = fadd l.accum l.head) (hb : b = fsub a (fmul a p.decayK)) :
    l.remove p decay = { l with
      rfill := l.rfill - 1, rpos := l.rpos + 1#6, outRing := ringSet l.outRing l.rpos.toNat 0#32
      accum := if decay = false then a else if fabsLt b p.decayFloor = true then 0#32 else b } := by
  simp only [Lane.remove, if_pos h, if_pos hq, ← ha, ← hb]
  cases decay <;> rfl

/-- Settles O36: REMOVE on an empty ring, for BLEP and BLAM, and for the others. -/
theorem rsRemoveConsumesOutput : Obligations.RsRemoveConsumesOutput := by
  refine ⟨fun s v c lane decay hv hl => updateLanes_run _ hv hl, fun p decay l => ⟨Lane.remove_of_empty p decay, ?_, ?_⟩⟩
  · exact fun h hq => Lane.remove_of_not_isBL p decay h (mt l.q.isBL_iff.1 hq)
  · exact fun h hq a b => Lane.remove_of_isBL p decay h (l.q.isBL_iff.2 hq)

/-! ## RS.DUP (R190) -/

theorem exec_rsDup_side {s : State} {v u : VoiceIx} {c src : Voice} (x y : Side) (hv : s.voice? v = some c)
    (hu : s.voice? u = some src) :
    exec (.rsDup v (laneOfSide x) u y) s = .next (s.setVoice v { c with lanes := c.lanes.set x (src.lanes.get y) }) := by
  rw [exec, execRsDup, withVoice_some _ hv]
  cases x <;> exact withVoice_some _ hu

theorem exec_rsDup_both {s : State} {v u : VoiceIx} {c src : Voice} (y : Side) (hv : s.voice? v = some c)
    (hu : s.voice? u = some src) :
    exec (.rsDup v .both u y) s = .next (s.setVoice v { c with lanes := src.lanes }) := by
  rw [exec, execRsDup, withVoice_some _ hv]
  exact withVoice_some _ hu

/-- Settles O37: a lane stored back where it was read changes nothing. -/
theorem rsDupCopiesLanes : Obligations.RsDupCopiesLanes := by
  refine fun s v u c src x y hv hu => ⟨exec_rsDup_side x y hv hu, exec_rsDup_both y hv hu, ?_⟩
  rw [exec_rsDup_side x x hv hv, Sides.set_get_self, State.setVoice_voice?_id hv]

end Sys2Proof.Machine
end

section
/-! One iteration of each kernel (41_resampler.md R162, R170 to R176): the output of the one-output kernels, the
amplitude step of BLEP and BLAM over the output cells, and the linear kernel at phase 0. -/

namespace Sys2Proof.Machine

open Sys2Proof

/-! ## Phase (R162) -/

/-- Settles O22: the sum has 65 bits, the low 32 of them the fraction. -/
theorem phaseAdvanceBound : Obligations.PhaseAdvanceBound := by
  refine fun f n => ⟨?_, phaseAcc_adv_le⟩
  simp only [phaseAcc, BitVec.toNat_ofNat]
  exact Nat.mod_add_div _ _

/-! ## Output cells (20_memory.md R81) -/

theorem ringSet_mod (r : Ring) (i : Nat) (x : F) : ringSet r (i % 64) x = ringSet r i x := by
  simp only [ringSet, Nat.mod_mod]

theorem Lane.outcell_eq (l : Lane) (m : Nat) : l.outcell m = ringGet l.outRing (l.rpos.toNat + l.rfill + m) :=
  ringGet_mod _ _

theorem Lane.setOutcell_eq (l : Lane) (m : Nat) (x : F) :
    l.setOutcell m x = { l with outRing := ringSet l.outRing (l.rpos.toNat + l.rfill + m) x } := by
  rw [setOutcell, outIndex, ringSet_mod]

/-! ## The one-output kernels (R170 to R173) -/

theorem Lane.putOutput_eq (l : Lane) (y : F) :
    l.putOutput y = { l with
      outRing := ringSet l.outRing (l.rpos.toNat + l.rfill) y, rfill := l.rfill + 1
      phase := (phaseAcc l.phase l.inc).1, wfill := l.wfill - (phaseAcc l.phase l.inc).2 } := by
  rw [putOutput, setOutcell_eq]
  rfl

/-- The output of a one-output iteration is the first free cell. -/
theorem Lane.ringGet_putOutput (l : Lane) (y : F) : ringGet (l.putOutput y).outRing (l.rpos.toNat + l.rfill) = y := by
  rw [putOutput_eq, ringGet_ringSet_self _ _ rfl]

theorem sumTerms_reassociated (draw : Nat) {xs : List F} (h : xs ≠ []) : SumOf xs (sumTerms .reassociated draw xs) :=
  sumPicked_sumOf draw _ _ _ (Nat.succ_pred_eq_of_pos (List.length_pos_iff.2 h)).symm

/-- In the written order a sum from +0.0 adds the terms from the first on. -/
theorem sumTerms_scalar_zero_cons (draw : Nat) (f : Nat → F) (n : Nat) :
    sumTerms .scalar draw (0#32 :: (List.range n).map f) = (List.range n).foldl (fun s j => fadd s (f j)) 0#32 :=
  List.foldl_map

theorem reverse_map_range (f : Nat → F) (n : Nat) :
    ((List.range n).map f).reverse = (List.range n).map fun j => f (n - 1 - j) := by
  rw [← List.map_reverse, List.range_eq_range', List.reverse_range', List.map_map]
  simp [Function.comp_def, List.range_eq_range']

/-- The tap sum in the written order runs from the last tap to the first (R163). -/
theorem kernelSum_scalar (draw : Nat) (f : Nat → F) :
    kernelSum .scalar draw ((List.range 32).map f) = (List.range 32).foldl (fun s j => fadd s (f (31 - j))) 0#32 := by
  rw [kernelSum, reverse_map_range]
  exact sumTerms_scalar_zero_cons draw (fun j => f (31 - j)) 32

/-- The tap sum in a free order (R176). -/
theorem kernelSum_reassociated (draw : Nat) (taps : List F) : SumOf (0#32 :: taps) (kernelSum .reassociated draw taps) :=
  (sumTerms_reassociated draw (List.cons_ne_nil _ _)).perm ((List.reverse_perm taps).cons _)

theorem getD_kernelTaps {j : Nat} (step pr : Nat) (h : j < 32) :
    (kernelTaps step pr).getD j 0#32 = kernelTap step pr j := by
  simp [kernelTaps, List.getD_eq_getElem?_getD, h]

/-- The weighted terms of the sinc sum, without the list of taps (R173). -/
theorem sincTerms_eq (l : Lane) (step pr : Nat) :
    ((List.range 32).map fun j => fmul (l.inp j) ((kernelTaps step pr).getD j 0#32)) =
      (List.range 32).map fun j => fmul (l.inp j) (kernelTap step pr j) :=
  List.map_congr_left fun j hj => by rw [getD_kernelTaps step pr (List.mem_range.1 hj)]

theorem iterSinc_eq (p : Params) (draw : Nat) (l : Lane) :
    iterSinc p draw l = l.putOutput (fdiv
      (sumTerms p.sumOrder (draw + 1)
        (0#32 :: (List.range 32).map fun j => fmul (l.inp j) (kernelTap (sincStep p l.inc) (phaseIndex l.phase) j)))
      (kernelSum p.sumOrder draw ((List.range 32).map (kernelTap (sincStep p l.inc) (phaseIndex l.phase))))) := by
  simp only [iterSinc, sincTerms_eq]
  rfl

/-! ## BLEP and BLAM (R174, R175) -/

theorem iterBlep_eq (p : Params) (draw : Nat) (l : Lane) :
    iterBlep p draw l = { l.stepTo p draw p.blepStep (l.inp 0) with
      wfill := l.wfill - 1, iphase := (phaseAcc l.iphase l.iinc).1
      rfill := l.rfill + (phaseAcc l.iphase l.iinc).2 } := by
  obtain ⟨hsame, hwfill, hrfill, -, hiphase, -⟩ := l.stepTo_same p draw p.blepStep (l.inp 0)
  simp only [iterBlep, Lane.takeInput, hwfill, hrfill, hiphase, hsame.iinc]

theorem iterBlam_eq (p : Params) (draw : Nat) (l : Lane) :
    iterBlam p draw l =
      if l.iinc.toNat < 2 ^ 32 then { l.stepTo p draw p.blamStep (blamTarget l) with
        wfill := l.wfill - 1, iphase := (phaseAcc l.iphase l.iinc).1
        rfill := l.rfill + (phaseAcc l.iphase l.iinc).2 }
      else { l.stepTo p draw p.blamStep (blamTarget l) with
        rfill := l.rfill + 1, phase := (phaseAcc l.phase l.inc).1
        wfill := l.wfill - (phaseAcc l.phase l.inc).2 } := by
  obtain ⟨hsame, hwfill, hrfill, hphase, hiphase, -⟩ := l.stepTo_same p draw p.blamStep (blamTarget l)
  simp only [iterBlam, Lane.blamAdvance, Lane.takeInput, Lane.finishOutput, hwfill, hrfill, hphase, hiphase, hsame.iinc,
    hsame.inc]

theorem Lane.iter_of_zoh {l : Lane} (h : l.q = .zoh) (p : Params) (draw : Nat) : l.iter p draw = iterZoh l := by
  rw [iter, h]

theorem Lane.iter_of_blep {l : Lane} (h : l.q = .blep) (p : Params) (draw : Nat) :
    l.iter p draw = iterBlep p draw l := by
  rw [iter, h]

theorem Lane.iter_of_blam {l : Lane} (h : l.q = .blam) (p : Params) (draw : Nat) :
    l.iter p draw = iterBlam p draw l := by
  rw [iter, h]

theorem Lane.iter_of_linear {l : Lane} (h : l.q = .linear) (p : Params) (draw : Nat) :
    l.iter p draw = iterLinear l := by
  rw [iter, h]

theorem Lane.iter_of_cubic {l : Lane} (h : l.q = .cubic) (p : Params) (draw : Nat) :
    l.iter p draw = iterCubic p draw l := by
  rw [iter, h]

theorem Lane.iter_of_sinc {l : Lane} (h : l.q = .sinc) (p : Params) (draw : Nat) :
    l.iter p draw = iterSinc p draw l := by
  rw [iter, h]

/-- Settles O33: kernel by kernel, in each summation order. -/
theorem kernelIterations : Obligations.KernelIterations := by
  rintro l p d k put step hput rfl rfl
  obtain rfl : put = l.putOutput := funext fun y => (hput y).trans (l.putOutput_eq y).symm
  refine ⟨fun hq => Lane.iter_of_zoh hq p d, fun hq => Lane.iter_of_linear hq p d, fun hq ho => ?_, fun hq ho => ?_,
    fun hq ho => ?_, fun hq ho => ?_, fun hq m hm => ?_, fun hq m x hx hm => ?_⟩
  · rw [Lane.iter_of_cubic hq, iterCubic, ho]
    rfl
  · refine ⟨_, ?_, Lane.iter_of_cubic hq p d⟩
    rw [ho]
    exact sumTerms_reassociated d (by simp)
  · rw [Lane.iter_of_sinc hq, iterSinc_eq, ho, kernelSum_scalar, sumTerms_scalar_zero_cons]
    rfl
  · refine ⟨_, _, ?_, ?_, (Lane.iter_of_sinc hq p d).trans (iterSinc_eq p d l)⟩
    · rw [ho]
      exact sumTerms_reassociated _ (List.cons_ne_nil _ _)
    · rw [ho]
      exact kernelSum_reassociated d _
  · rw [hm, Lane.iter_of_blep hq, iterBlep_eq]
  · rw [hm, hx, Lane.iter_of_blam hq, iterBlam_eq]
    rfl

/-- Spreading a change leaves every field of the lane but the output ring. -/
theorem Lane.spread_eq (d : F) (ks : List F) : ∀ (l : Lane) (m : Nat),
    l.spread d m ks = { l with outRing := (l.spread d m ks).outRing } := by
  induction ks with
  | nil => exact fun _ _ => rfl
  | cons k ks ih =>
    intro l m
    rw [spread, ih]
    rfl

theorem Lane.outcell_setOutcell_self (l : Lane) (m : Nat) (x : F) : (l.setOutcell m x).outcell m = x := by
  rw [outcell_eq, setOutcell_eq, ringGet_ringSet_self _ _ rfl]

theorem Lane.outcell_setOutcell_ne (l : Lane) {m i : Nat} (x : F) (hm : m < 64) (hi : i < 64) (h : i ≠ m) :
    (l.setOutcell m x).outcell i = l.outcell i := by
  have hcell : (l.rpos.toNat + l.rfill + m) % 64 ≠ (l.rpos.toNat + l.rfill + i) % 64 := by omega
  rw [outcell_eq, outcell_eq, setOutcell_eq]
  exact ringGet_ringSet_ne _ _ hcell

/-- Spreading adds to the cells from place `m` on, one tap to each, and leaves the others (R174). -/
theorem Lane.outcell_spread (d : F) (ks : List F) : ∀ (l : Lane) {m i : Nat}, m + ks.length ≤ 64 → i < 64 →
    (l.spread d m ks).outcell i =
      if m ≤ i ∧ i < m + ks.length then fadd (l.outcell i) (fmul d (ks.getD (i - m) 0#32)) else l.outcell i := by
  induction ks with
  | nil =>
    intro l m i _ _
    rw [spread, if_neg (by simp)]
  | cons k ks ih =>
    intro l m i hm hi
    rw [List.length_cons] at hm ⊢
    rw [spread, ih _ (by omega) hi]
    by_cases him : i = m
    · rw [him, outcell_setOutcell_self, if_neg (by omega), if_pos (by omega), Nat.sub_self, List.getD_cons_zero]
    · rw [outcell_setOutcell_ne _ _ (by omega) hi him]
      simp only [show m + 1 ≤ i ∧ i < m + 1 + ks.length ↔ m ≤ i ∧ i < m + (ks.length + 1) by omega]
      split
      · rw [show i - m = i - (m + 1) + 1 by omega, List.getD_cons_succ]
      · rfl

/-- An amplitude step moves last_amp and the output ring, and no other field (R174, R175). -/
theorem Lane.applyStep_eq (l : Lane) (p : Params) (draw step : Nat) (d : F) :
    l.applyStep p draw step d =
      { l with lastAmp := fadd l.lastAmp d, outRing := (l.applyStep p draw step d).outRing } :=
  spread_eq _ _ _ _

/-- The 32 cells from the first unfinished one on take the taps, scaled so that they add up to the change. -/
theorem Lane.ringGet_applyStep (l : Lane) (p : Params) (draw step : Nat) (d : F) {m : Nat} (hm : m < 64) :
    ringGet (l.applyStep p draw step d).outRing (l.rpos.toNat + l.rfill + m) =
      if m < 32 then fadd (l.outcell m)
        (fmul (fdiv d (kernelSum p.sumOrder draw (kernelTaps step (phaseIndex l.iphase))))
          (kernelTap step (phaseIndex l.iphase) m))
      else l.outcell m := by
  have hcell : ringGet (l.applyStep p draw step d).outRing (l.rpos.toNat + l.rfill + m) =
      (l.applyStep p draw step d).outcell m := by rw [outcell_eq, applyStep_eq]
  have hlen : (kernelTaps step (phaseIndex l.iphase)).length = 32 := by simp [kernelTaps]
  rw [hcell, applyStep, outcell_spread _ _ _ (by rw [hlen]; decide) hm, hlen]
  simp only [Nat.zero_le, true_and, Nat.zero_add, Nat.sub_zero]
  split
  · rw [getD_kernelTaps _ _ ‹_›]
    rfl
  · rfl

/-- Settles O35: the change 0 leaves the lane, and any other is spread. -/
theorem amplitudeStepSpreads : Obligations.AmplitudeStepSpreads := by
  refine fun l p draw step x => ⟨fun h => ?_, fun h => ?_⟩
  · rw [Lane.stepTo, h]
    rfl
  · have hstep : l.stepTo p draw step x = l.applyStep p draw step (fsub x l.lastAmp) := if_pos h
    rw [hstep]
    refine ⟨l.applyStep_eq p draw step _, fun m hm => ?_⟩
    rw [l.ringGet_applyStep p draw step _ hm, l.outcell_eq]
    rfl

/-! ## The linear kernel at phase 0 (R171) -/

theorem fval_ph_zero : fval (ph 0#32) = .finite false 0 := by decide +kernel

/-- A finite value times +0.0 is a zero with its sign. -/
theorem fmul_ph_zero {x : F} {t : Bool} {n : Nat} (h : fval x = .finite t n) : fval (fmul x (ph 0#32)) = .finite t 0 := by
  rw [fmul_finite h fval_ph_zero, Bool.xor_false]
  exact fval_roundUnits_exact t (d := 0) (e := 0) (by positivity) (by simp) (by decide) (by decide)

/-- An encoding with magnitude bits below infinity's is kept by rounding. -/
theorem roundUnits_of_fval {x : F} {s : Bool} {m : Nat} (h : fval x = .finite s m) : roundUnits s m 1 = x := by
  obtain ⟨hfin, hs, hm⟩ := fval_eq_finite_iff.1 h
  have hround := roundMag_finiteMagnitude hfin one_pos
  rw [mul_one, hm] at hround
  have hx := toNat_eq_sign_add_magnitudeBits x
  rw [roundUnits_eq, hround, ← hs, ← hx, BitVec.ofNat_toNat, BitVec.setWidth_eq]

theorem signedMag_neg_iff {s : Bool} {m : Nat} (hm : 0 < m) : signedMag s m < 0 ↔ s = true := by
  cases s
  · rw [signedMag_false]
    simp
  · rw [signedMag_true]
    simp [hm]

theorem natAbs_signedMag (s : Bool) (m : Nat) : (signedMag s m).natAbs = m := by cases s <;> simp

/-- Adding a zero keeps a number that is not 0. -/
theorem fadd_zero_of_pos {x y : F} {s t : Bool} {m : Nat} (hx : fval x = .finite s m) (hy : fval y = .finite t 0)
    (hm : 0 < m) : fadd x y = x := by
  have hz : signedMag t 0 = 0 := by cases t <;> rfl
  have hne : signedMag s m ≠ 0 := by rw [← Int.natAbs_pos, natAbs_signedMag]; exact hm
  rw [fadd_finite hx hy, addVal, hz, add_zero]
  simp only [if_neg hne, signedMag_neg_iff hm, Bool.decide_eq_true, natAbs_signedMag]
  exact roundUnits_of_fval hx

/-- The sum of two zeros is a zero. -/
theorem fval_fadd_zeros {x y : F} {s t : Bool} (hx : fval x = .finite s 0) (hy : fval y = .finite t 0) :
    ∃ u, fval (fadd x y) = .finite u 0 := by
  have hsum : signedMag s 0 + signedMag t 0 = 0 := by cases s <;> cases t <;> rfl
  refine ⟨s && t, ?_⟩
  rw [fadd_finite hx hy, addVal, if_pos hsum]
  exact fval_withSign _ (by decide)

/-- Settles O34: at phase 0 the interpolated part is a zero. -/
theorem linearExactAtPhaseZero : Obligations.LinearExactAtPhaseZero := by
  intro l s t m n hphase hx hdiff
  have hzero := fmul_ph_zero hdiff
  rw [iterLinear, hphase, Lane.ringGet_putOutput]
  refine ⟨fadd_zero_of_pos hx hzero, ?_⟩
  rintro rfl
  exact fval_fadd_zeros hx hzero

end Sys2Proof.Machine
end

section
/-! FILL and the reads (41_resampler.md R161, R166, R167, R186 to R188): FILL as the sequence of its iterations, how many
of them there can be, zero-order hold at ratio 1.0, and the lazy fill. -/

namespace Sys2Proof.Machine

open Sys2Proof

/-! ## The sequence of iterations (R167) -/

/-- One round of FILL: an iteration, and the draws it takes. -/
def fillStep (p : Params) (x : Lane × Nat) : Lane × Nat := (x.1.iter p x.2, nextDraw p.sumOrder x.2)

/-- FILL's loop is a number of rounds, each run under the guard. -/
theorem fillLoop_eq_iterate (p : Params) (fuel : Nat) : ∀ x : Lane × Nat, ∃ n,
    fillLoop p fuel x = (fillStep p)^[n] x ∧ ∀ k < n, ((fillStep p)^[k] x).1.canIterate = true := by
  induction fuel with
  | zero => exact fun x => ⟨0, rfl, by simp⟩
  | succ fuel ih =>
    intro x
    by_cases hc : x.1.canIterate = true
    · obtain ⟨n, hn, hguard⟩ := ih (fillStep p x)
      refine ⟨n + 1, ?_, fun k hk => ?_⟩
      · rw [fillLoop, if_pos hc]
        exact hn
      · cases k with
        | zero => exact hc
        | succ k => exact hguard k (by omega)
    · refine ⟨0, ?_, by simp⟩
      rw [fillLoop, if_neg hc]
      rfl

/-! ## How many iterations there can be (R390) -/

/-- Whether the iterations of a lane take one input each; otherwise they make one output each (R170 to R175). -/
abbrev Lane.takesInputs (l : Lane) : Prop := l.q = .blep ∨ (l.q = .blam ∧ l.iinc.toNat < 2 ^ 32)

theorem Lane.iter_takesInputs_iff (l : Lane) (p : Params) (draw : Nat) :
    (l.iter p draw).takesInputs ↔ l.takesInputs := by
  obtain ⟨hsame, -⟩ := l.iter_spec p draw
  rw [takesInputs, takesInputs, hsame.q, hsame.iinc]

theorem Lane.iter_wfill_of_takesInputs {l : Lane} (p : Params) (draw : Nat) (h : l.takesInputs) :
    (l.iter p draw).wfill = l.wfill - 1 := by
  rcases h with hq | ⟨hq, hi⟩
  · rw [iter_of_blep hq p draw, iterBlep_eq]
  · rw [iter_of_blam hq p draw, iterBlam_eq, if_pos hi]

theorem Lane.iter_rfill_of_not_takesInputs {l : Lane} (p : Params) (draw : Nat) (h : ¬ l.takesInputs) :
    (l.iter p draw).rfill = l.rfill + 1 := by
  unfold iter
  split
  · rfl
  · rename_i hq
    exact absurd (.inl hq) h
  · rfl
  · rename_i hq
    rw [iterBlam_eq, if_neg fun hi => h (.inr ⟨hq, hi⟩)]
  · rfl
  · rfl

/-- How many iterations a lane still has at most: its pending samples, or the free cells of its output ring. -/
def Lane.roundsLeft (l : Lane) : Nat := if l.takesInputs then l.wfill.toNat else 64 - l.rfill

theorem Lane.roundsLeft_le {l : Lane} (h : l.wf) : l.roundsLeft ≤ 64 := by
  obtain ⟨-, -, hw, -⟩ := h
  unfold roundsLeft
  split <;> omega

/-- An iteration uses up one of them. -/
theorem Lane.iter_roundsLeft_lt {l : Lane} (p : Params) (draw : Nat) (h : l.canIterate = true) :
    (l.iter p draw).roundsLeft < l.roundsLeft := by
  obtain ⟨hw, hr, -⟩ := l.canIterate_iff.1 h
  have hm := l.q.minFill_pos
  unfold roundsLeft
  by_cases ht : l.takesInputs
  · rw [if_pos ht, if_pos ((l.iter_takesInputs_iff p draw).2 ht), iter_wfill_of_takesInputs p draw ht]
    omega
  · rw [if_neg ht, if_neg (mt (l.iter_takesInputs_iff p draw).1 ht), iter_rfill_of_not_takesInputs p draw ht]
    omega

theorem fillStep_iterate_roundsLeft (p : Params) (x : Lane × Nat) (n : Nat)
    (h : ∀ k < n, ((fillStep p)^[k] x).1.canIterate = true) :
    ((fillStep p)^[n] x).1.roundsLeft + n ≤ x.1.roundsLeft := by
  induction n with
  | zero => exact le_rfl
  | succ n ih =>
    have hn := ih fun k hk => h k (by omega)
    have hlt : (fillStep p ((fillStep p)^[n] x)).1.roundsLeft < ((fillStep p)^[n] x).1.roundsLeft :=
      Lane.iter_roundsLeft_lt p _ (h n (by omega))
    rw [Function.iterate_succ_apply']
    omega

theorem nextDraw_eq (order : SumOrder) (d : Nat) : nextDraw order d = if order = .scalar then d else d + 2 := by
  cases order <;> rfl

/-- The guard of FILL with the numbers of R161 written out. -/
theorem Lane.canIterate_iff_guard (l : Lane) :
    l.canIterate = true ↔
      (match l.q with | .zoh | .blep => 1 | .linear | .blam => 2 | .cubic => 4 | .sinc => 32) < l.wfill ∧ l.rfill < 64 ∧
        ¬ ((l.q = .blep ∨ l.q = .blam) ∧ 64 < l.rfill + 32) := by
  rw [canIterate_iff, l.q.isBL_iff, not_and, Nat.not_lt]
  rfl

/-- Settles O31: the rounds of FILL, each of which uses up one of the at most 64 that a legal lane has. -/
theorem fillTakesAtMost64 : Obligations.FillTakesAtMost64 := by
  intro p l d guard hl hguard
  have hg : ∀ m, guard m ↔ m.canIterate = true := fun m => (hguard m).trans m.canIterate_iff_guard.symm
  obtain ⟨n, hn, hrun⟩ := fillLoop_eq_iterate p (l.wfill.toNat + (64 - l.rfill)) (l, d)
  have hrounds := fillStep_iterate_roundsLeft p (l, d) n hrun
  have hbound : n ≤ 64 := (Nat.le_of_add_left_le hrounds).trans (Lane.roundsLeft_le hl)
  refine ⟨n, fun k => (fillStep p)^[k] (l, d), hbound, rfl, fun k hk => ⟨(hg _).2 (hrun k hk), ?_⟩, ?_, hn⟩
  · simp only [Function.iterate_succ_apply', fillStep, nextDraw_eq]
  · have hdone := fill_done p l d
    rw [fill, hn] at hdone
    rw [hg, hdone]
    decide

/-! ## Zero-order hold at ratio 1.0 (R170) -/

/-- A lane `m` that FILL has reached from `l`: each sample taken stands in the output ring, in order. -/
structure HoldsInputs (l m : Lane) : Prop where
  same : SameInput l m
  phase : m.phase = 0#32
  count : (m.rfill : Int) + m.wfill = l.wfill
  pending : 1 ≤ m.wfill
  cells : ∀ k < m.rfill, ringGet m.outRing (l.rpos.toNat + k) = l.inp k

theorem phaseAcc_zero_one : phaseAcc 0#32 0x100000000#64 = (0#32, 1) := by decide

/-- One iteration takes one sample and makes it the next output. -/
theorem HoldsInputs.iter {l m : Lane} (h : HoldsInputs l m) (p : Params) (draw : Nat) (hq : l.q = .zoh)
    (hinc : l.inc = 0x100000000#64) (hw : l.wfill ≤ 64) (hc : m.canIterate = true) : HoldsInputs l (m.iter p draw) := by
  obtain ⟨hsame, hphase, hcount, hpending, hcells⟩ := h
  obtain ⟨hfill, hroom, -⟩ := m.canIterate_iff.1 hc
  have hm := m.q.minFill_pos
  have hinp : m.inp 0 = l.inp m.rfill := by
    have hix : m.inpIndex 0 = l.inpIndex m.rfill := by
      rw [Lane.inpIndex, Lane.inpIndex, hsame.wpos]
      congr 2
      omega
    rw [Lane.inp, Lane.inp, hsame.inRing, hix]
  have hiter : m.iter p draw = { m with
      outRing := ringSet m.outRing (l.rpos.toNat + m.rfill) (l.inp m.rfill), rfill := m.rfill + 1
      phase := 0#32, wfill := m.wfill - 1 } := by
    rw [Lane.iter_of_zoh (hsame.q.trans hq) p draw, iterZoh, m.putOutput_eq, hphase, hsame.inc, hinc, phaseAcc_zero_one,
      hsame.rpos, hinp]
    rfl
  have hsame' := hsame.trans (m.iter_spec p draw).1
  rw [hiter] at hsame' ⊢
  refine ⟨hsame', rfl, ?_, ?_, fun k hk => ?_⟩
  · push_cast
    omega
  · dsimp only
    omega
  · obtain rfl | hne := eq_or_ne k m.rfill
    · exact ringGet_ringSet_self _ _ rfl
    · have hlt : k < m.rfill + 1 := hk
      rw [ringGet_ringSet_ne _ _ (by omega)]
      exact hcells k (by omega)

/-- Settles O32: FILL ends at a lane that holds each sample it took, when one sample is left. -/
theorem zohReproducesInput : Obligations.ZohReproducesInput := by
  intro p l d hq hinc hphase hempty hpos hmax
  have hstart : HoldsInputs l l := ⟨.refl l, hphase, by omega, hpos, fun k hk => absurd hk (by omega)⟩
  obtain ⟨hsame, hph, hcount, hpending, hcells⟩ :=
    fill_keeps p (HoldsInputs l) (fun m draw hc hm => hm.iter p draw hq hinc hmax hc) d hstart
  have hdone := fill_done p l d
  have hwfill : (fill p l d).1.wfill = 1 := by
    rw [← Bool.not_eq_true, Lane.canIterate_iff, hsame.q, hq] at hdone
    simp only [Quality.minFill, Quality.isBL] at hdone
    by_contra hne
    exact hdone ⟨by omega, by omega, by simp⟩
  have hrfill : (fill p l d).1.rfill = (l.wfill - 1).toNat := by omega
  exact ⟨hrfill, hwfill, hph, fun k hk => hcells k (hrfill ▸ hk)⟩

/-! ## The lazy fill and the reads (R166, R186 to R188) -/

theorem ensureOutput_idle (p : Params) {l : Lane} (draw : Nat) (h : l.rfill ≠ 0 ∨ l.inc = 0#64) :
    ensureOutput p l draw = (l, draw) := by
  rw [ensureOutput, if_neg]
  rintro ⟨hempty, hrate⟩
  exact h.elim (· hempty) hrate

/-- With an empty output ring and a rate the lazy fill runs FILL, and removes the output delay the first time. -/
theorem ensureOutput_run (p : Params) {l : Lane} (draw : Nat) (hempty : l.rfill = 0) (hrate : l.inc ≠ 0#64) :
    ensureOutput p l draw =
      if l.outPrimed = true then fill p l draw
      else ((Lane.remove p true)^[l.q.outDelay] { (fill p l draw).1 with outPrimed := true }, (fill p l draw).2) := by
  obtain ⟨hq, -, -, -, -, -, -, hprimed⟩ := fill_same p l draw
  rw [ensureOutput, if_pos ⟨hempty, hrate⟩, ← Lane.removeMany_eq_iterate, ← hq, ← hprimed]

theorem fillThenEmit_eq {s : State} {v : VoiceIx} {c : Voice} {x : Side} {l : Lane} {d : Nat} (f : Lane → Word)
    (hv : s.voice? v = some c) (hfill : ensureOutput s.params (c.lanes.get x) s.draws = (l, d)) :
    fillThenEmit v (laneOfSide x) s f =
      .next { s.setVoice v { c with lanes := c.lanes.set x l } with
        draws := d, responses := s.responses ++ [f l] } := by
  rw [fillThenEmit_run x f hv, hfill]
  rfl

theorem Lane.outputValue_eq (l : Lane) :
    l.outputValue = if l.q = .blep ∨ l.q = .blam then fadd (ringGet l.outRing l.rpos.toNat) l.accum
      else ringGet l.outRing l.rpos.toNat := by
  simp only [outputValue, Quality.isBL_iff, head]

/-- Settles O29: the three words of the filled lane, and the branches of the lazy fill. -/
theorem rsReadsFillFirst : Obligations.RsReadsFillFirst := by
  refine ⟨fun s v c x l d hv hfill => ?_, fun p l m d d' => ⟨ensureOutput_idle p d, fun hempty hrate hfill => ?_⟩⟩
  · simp only [exec, execRsCount, execRsGet, execRsGetf, ← l.outputValue_eq]
    exact ⟨fillThenEmit_eq _ hv hfill, fillThenEmit_eq _ hv hfill, fillThenEmit_eq _ hv hfill⟩
  · have hrun := ensureOutput_run p d hempty hrate
    rw [hfill, l.q.outDelay_eq] at hrun
    exact ⟨fun hp => hrun.trans (if_pos hp), fun hp => hrun.trans (if_neg (by rw [hp]; decide))⟩

end Sys2Proof.Machine
end

section
/-! The lookup tables and the taps of the windowed-sinc kernel (41_resampler.md R160, R163, R169, R176;
43_envelope_lfo.md R283). -/

namespace Sys2Proof.Machine

open Sys2Proof

/-! ## The tables (R160, R283) -/

/-- At a multiple of the half turn the fixed-point sine is exactly 0. -/
theorem sinPi_mul_self {half : Nat} (k : Nat) (h : 0 < half) : sinPi (half * k) half = 0 := by
  have hsmall : sinSmall 0 = 0 := by simp [sinSmall]
  simp [sinPi, h.ne, hsmall]

/-- SINC_LUT is +0.0 at every integer but 0. -/
theorem sincLut_integer {k : Nat} (h : 0 < k) : sincLut (1024 * k) = 0#32 := by
  rw [sincLut, if_neg (by omega), sinPi_mul_self k (by decide)]
  simp [roundRat, roundUnits, roundMag, withSign, divNearestEven]

/-- The Catmull-Rom weights with the powers of 1024 written out. -/
theorem cubicLut_eq (i : Nat) {x : Int} (hx : x = i) :
    cubicLut i 0 = roundRat (-x ^ 3 + 2048 * x ^ 2 - 1024 ^ 2 * x) (2 ^ 31) ∧
    cubicLut i 1 = roundRat (3 * x ^ 3 - 5120 * x ^ 2 + 2 ^ 31) (2 ^ 31) ∧
    cubicLut i 2 = roundRat (-3 * x ^ 3 + 4096 * x ^ 2 + 1024 ^ 2 * x) (2 ^ 31) ∧
    cubicLut i 3 = roundRat (x ^ 3 - 1024 * x ^ 2) (2 ^ 31) := by
  subst hx
  exact ⟨rfl, rfl, rfl, rfl⟩

/-- The first 64 entries are the printed ones. -/
theorem map_sineTab_range : (List.range 64).map sineTab = printedSine := by decide

/-- The second quarter mirrors the first. -/
theorem sineTab_mirror (p : Fin 64) : sineTab (64 + p.val) = sineTab (64 - p.val) := by
  revert p
  decide

/-- The second half is the first negated. -/
theorem sineTab_half (p : Fin 128) : sineTab (128 + p.val) = -sineTab p.val := by
  have hp := p.isLt
  rw [sineTab, sineTab, if_neg (by omega), if_pos hp, Nat.add_sub_cancel_left]

/-- Settles O20: the printed entries by evaluation, the integers of SINC_LUT by the exact zeros of the sine. -/
theorem tableFixedPoints : Obligations.TableFixedPoints := by
  refine ⟨by decide +kernel, fun m => sincLut_integer m.val.succ_pos, by decide +kernel, by decide +kernel,
    by decide +kernel, by decide +kernel, by decide +kernel, by decide +kernel, by decide +kernel,
    fun i x _ hx => cubicLut_eq i hx, map_sineTab_range, rfl, sineTab_mirror, sineTab_half⟩

/-! ## The taps (R163) -/

/-- The kernel position of phase index `pr` lies within one kernel step. -/
theorem kernelPosition_le {step pr : Nat} (h : pr < 1024) : pr * step / 1024 ≤ step := by
  have hmul : pr * step ≤ 1024 * step := Nat.mul_le_mul_right step h.le
  omega

/-- The SINC_LUT index of a tap: at most 16 kernel steps from the position. -/
theorem sincIndex_le {step pr j : Nat} (hstep : step ≤ 1024) (hpr : pr < 1024) (hj : j < 32) :
    (((pr * step / 1024 : Nat) : Int) - ((j : Int) - 15) * step).natAbs ≤ 16384 := by
  have hpos := kernelPosition_le (step := step) hpr
  have hlo : -15 * (step : Int) ≤ ((j : Int) - 15) * step := mul_le_mul_of_nonneg_right (by omega) (by positivity)
  have hhi : ((j : Int) - 15) * step ≤ 16 * (step : Int) := mul_le_mul_of_nonneg_right (by omega) (by positivity)
  omega

/-- The WIN_LUT index of a tap: at most 16 samples from the phase index. -/
theorem winIndex_le {pr j : Nat} (hpr : pr < 1024) (hj : j < 32) :
    ((pr : Int) - ((j : Int) - 15) * 1024).natAbs ≤ 16384 := by omega

/-! ## The sinc step (R169) -/

theorem sincStep_of_lt (p : Params) {inc : BitVec 64} (h : 2 ^ 32 < inc.toNat) :
    sincStep p inc = 1024 * p.sincNum * 2 ^ 32 / (p.sincDen * inc.toNat) := if_pos h

theorem sincStep_of_le (p : Params) {inc : BitVec 64} (h : inc.toNat ≤ 2 ^ 32) :
    sincStep p inc = 1024 * p.sincNum / p.sincDen := if_neg (by omega)

/-- A cut of at most 1, at a ratio of at least 1, gives a step of at most RES. -/
theorem sincStep_le {p : Params} (hp : p.wf) (inc : BitVec 64) : sincStep p inc ≤ 1024 := by
  obtain ⟨-, -, hden, hcut⟩ := hp
  obtain h | h := Nat.lt_or_ge (2 ^ 32) inc.toNat
  · rw [sincStep_of_lt p h]
    refine Nat.div_le_of_le_mul ?_
    calc 1024 * p.sincNum * 2 ^ 32 ≤ 1024 * p.sincDen * inc.toNat := by gcongr
      _ = p.sincDen * inc.toNat * 1024 := by ring
  · rw [sincStep_of_le p h]
    refine Nat.div_le_of_le_mul ?_
    rw [mul_comm p.sincDen]
    gcongr

/-- Settles O21: the indexes by their distance from the kernel position, the sums in each order, the bounded step. -/
theorem kernelTapsAndSteps : Obligations.KernelTapsAndSteps := by
  refine ⟨?_, fun step pr draw => ⟨kernelSum_scalar draw _, kernelSum_reassociated draw _⟩,
    fun p inc => ⟨sincStep_of_lt p, sincStep_of_le p, fun hp => sincStep_le hp inc⟩⟩
  rintro step pr j a b hstep hpr hj rfl rfl
  exact ⟨rfl, sincIndex_le hstep hpr hj, winIndex_le hpr hj⟩

end Sys2Proof.Machine
end

section
/-! The two-pole filter (42_filter.md R240 to R249): FL.RUN by its output as a word, and the commands that load the
filter of one voice. -/

namespace Sys2Proof.Machine

open Sys2Proof

/-! ## The filter sum (R240, R242) -/

/-- A*x + B*cur + C*prev as a wrapping sum of words, each product the high word of the shifted sample. -/
theorem Filter.output_eq (f : Filter) (x : Side) (w : Word) :
    f.output x w = highProduct (w <<< 4) f.a + highProduct (f.cur.get x <<< 4) f.b
      + highProduct (f.prev.get x <<< 4) f.c := by
  simp only [Filter.output, u32_add, mulsca_sword, u32_toInt]

/-- With A = 1.0 and B = C = 0 the history does not count, and a sample the pre-shift does not wrap comes back. -/
theorem Filter.output_identity {f : Filter} (x : Side) {w : Word} (ha : f.a = 0x10000000#32) (hb : f.b = 0#32)
    (hc : f.c = 0#32) (hw : w.toInt.natAbs < 2 ^ 27) : f.output x w = w := by
  rw [Filter.output_eq, ha, hb, hc, highProduct_mulsca_one hw, highProduct_zero, highProduct_zero, BitVec.add_zero,
    BitVec.add_zero]

/-! ## FL.RUN (R246) -/

theorem exec_flRun {s : State} {v : VoiceIx} {c : Voice} (x : Side) (w : Word) (h : s.voice? v = some c) :
    exec (.flRun v (laneOfSide x) w) s =
      if c.filter.en then
        .next ((s.setVoice v { c with filter := c.filter.push x (c.filter.output x w) }).emit (c.filter.output x w))
      else .next (s.emit w) := by
  rw [exec, execFlRun, withVoice_some _ h, withSide_laneOfSide]

theorem exec_flRun_bypass {s : State} {v : VoiceIx} {c : Voice} (x : Side) (w : Word) (h : s.voice? v = some c)
    (hen : c.filter.en = false) : exec (.flRun v (laneOfSide x) w) s = .next (s.emit w) := by
  rw [exec_flRun x w h, hen, if_neg Bool.false_ne_true]

theorem exec_flRun_enabled {s : State} {v : VoiceIx} {c : Voice} (x : Side) (w : Word) (h : s.voice? v = some c)
    (hen : c.filter.en = true) :
    exec (.flRun v (laneOfSide x) w) s =
      .next ((s.setVoice v { c with filter := c.filter.push x (c.filter.output x w) }).emit
        (c.filter.output x w)) := by
  rw [exec_flRun x w h, if_pos hen]

/-- Settles O38: bypass as it runs, and the enabled filter with its output written as the sum of high words. -/
theorem filterRun : Obligations.FilterRun := by
  intro s v c x w y h
  refine ⟨exec_flRun_bypass x w h, fun hen hy => ?_⟩
  rw [← Filter.output_eq] at hy
  subst hy
  exact exec_flRun_enabled x w h hen

/-- Settles O39: in bypass the sample itself is emitted, and otherwise the output is the sample (R249). -/
theorem filterIdentityAtReset : Obligations.FilterIdentityAtReset := by
  intro s v c x w h ha hb hc hw
  cases hen : c.filter.en with
  | false => exact ⟨_, exec_flRun_bypass x w h hen, rfl⟩
  | true =>
    refine ⟨_, exec_flRun_enabled x w h hen, ?_⟩
    rw [Filter.output_identity x ha hb hc hw]
    rfl

/-! ## The loads (R244, R245, R247, R248) -/

theorem updateVoice_some {v : VoiceIx} {s : State} {c : Voice} (f : Voice → Voice) (h : s.voice? v = some c) :
    updateVoice v s f = .next (s.setVoice v (f c)) := withVoice_some _ h

theorem coefFor_zero (cutoff : BitVec 16) (resonance : BitVec 8) :
    coefFor cutoff resonance 0#32 = (0x10000000#32, 0#32, 0#32) := if_pos rfl

theorem coefFor_of_ne_zero (cutoff : BitVec 16) (resonance : BitVec 8) {fs : Word} (h : fs ≠ 0#32) :
    coefFor cutoff resonance fs = Config.filterCoef cutoff resonance fs := if_neg h

theorem exec_flCoef {s : State} {v : VoiceIx} {c : Voice} (cutoff : BitVec 16) (resonance : BitVec 8) (fs : Word)
    (h : s.voice? v = some c) :
    exec (.flCoef v cutoff resonance fs) s =
      .next (s.setVoice v { c with filter := c.filter.setCoef (coefFor cutoff resonance fs) }) := updateVoice_some _ h

/-- Settles O40: each load changes the filter of its voice; FL.COEF by its two cases of `fs`. -/
theorem filterLoads : Obligations.FilterLoads := by
  intro s v c h
  refine ⟨fun cutoff resonance => ?_, fun cutoff resonance fs hfs => ?_, fun ka kb kc => updateVoice_some _ h,
    updateVoice_some _ h, fun e => updateVoice_some _ h⟩
  · rw [exec_flCoef cutoff resonance 0#32 h, coefFor_zero, Filter.setCoef]
  · rw [exec_flCoef cutoff resonance fs h, coefFor_of_ne_zero cutoff resonance hfs, Filter.setCoef]

end Sys2Proof.Machine
end

section
/-! The envelope unit (43_envelope_lfo.md R262 to R266): what EVAL, ADVANCE and LOOPS answer on any envelope, and EVAL
with the cursor between its nodes (R267). -/

namespace Sys2Proof.Machine

open Sys2Proof

/-! ## EVAL (R263) -/

theorem Envelope.eval_of_next_zero {e : Envelope} (h : e.next.val = 0) : e.eval = u32 (e.nodeValue 0) := dif_pos h

theorem Envelope.eval_between {e : Envelope} {i j : Fin 25} (hnext : e.next.val = j.val) (hij : i.val + 1 = j.val)
    (hj : j.val < e.n.val) :
    e.eval = u32 (if e.nodeTick i = e.nodeTick j then e.nodeValue i
      else e.nodeValue i + ((e.nodeValue j - e.nodeValue i) * ((e.tick.toNat : Int) - e.nodeTick i)).tdiv
        ((e.nodeTick j : Int) - e.nodeTick i)) := by
  obtain ⟨j, _⟩ := j
  obtain ⟨i, _⟩ := i
  dsimp only at hnext hij hj
  obtain rfl : j = e.next.val := hnext.symm
  obtain rfl : i = e.next.val - 1 := by omega
  rw [eval, dif_neg (by omega), dif_pos hj, apply_ite u32]
  simp only [Nat.cast_inj]
  rfl

theorem Envelope.eval_of_le_next {e : Envelope} {i : Fin 25} (hpos : 0 < e.next.val) (hle : e.n.val ≤ e.next.val)
    (hi : i.val + 1 = e.n.val) : e.eval = u32 (e.nodeValue i) := by
  obtain rfl : i = e.lastNode := Fin.ext (by simp only [lastNode]; omega)
  rw [eval, dif_neg hpos.ne', dif_neg hle.not_gt]

/-- Where the cursor of an envelope with nodes can stand: at the first node, between two nodes, or past the last. -/
theorem Envelope.cursor_cases (e : Envelope) (hn : 0 < e.n.val) :
    e.next.val = 0 ∨ (∃ i j : Fin 25, e.next.val = j.val ∧ i.val + 1 = j.val ∧ j.val < e.n.val) ∨
      (0 < e.next.val ∧ e.n.val ≤ e.next.val ∧ e.lastNode.val + 1 = e.n.val) := by
  by_cases h0 : e.next.val = 0
  · exact .inl h0
  by_cases hlt : e.next.val < e.n.val
  · exact .inr (.inl ⟨⟨e.next.val - 1, by omega⟩, ⟨e.next.val, by omega⟩, rfl, Nat.sub_add_cancel (by omega), hlt⟩)
  · exact .inr (.inr ⟨by omega, by omega, Nat.sub_add_cancel hn⟩)

/-! ## The range of EVAL -/

/-- A word holds every value between two node values. -/
theorem Envelope.toInt_u32_of_mem (e : Envelope) {i j : Fin 25} {x : Int}
    (h : x ∈ Set.uIcc (e.nodeValue i) (e.nodeValue j)) : (u32 x).toInt = x := by
  have hi : e.nodeValue i = (e.y.get i).toInt * 256 := rfl
  have hj : e.nodeValue j = (e.y.get j).toInt * 256 := rfl
  have := (e.y.get i).le_toInt
  have := (e.y.get i).toInt_lt
  have := (e.y.get j).le_toInt
  have := (e.y.get j).toInt_lt
  rw [Set.mem_uIcc] at h
  exact s32_of_fits (by omega) (by omega)

theorem Envelope.toInt_u32_nodeValue (e : Envelope) (i : Fin 25) : (u32 (e.nodeValue i)).toInt = e.nodeValue i :=
  e.toInt_u32_of_mem (j := i) Set.left_mem_uIcc

/-- A part a/b of a rise, rounded toward zero, is at most the whole rise. -/
theorem tdiv_mul_mem {d a b : Int} (hd : 0 ≤ d) (ha : 0 ≤ a) (hab : a ≤ b) (hb : 0 < b) :
    0 ≤ (d * a).tdiv b ∧ (d * a).tdiv b ≤ d := by
  have hda : 0 ≤ d * a := mul_nonneg hd ha
  refine ⟨Int.tdiv_nonneg hda hb.le, ?_⟩
  rw [Int.tdiv_eq_ediv_of_nonneg hda]
  exact Int.ediv_le_of_le_mul hb (mul_le_mul_of_nonneg_left hab hd)

/-- An interpolated value lies between the two values it interpolates. -/
theorem interpolate_mem_uIcc (ys ye : Int) {a b : Int} (ha : 0 ≤ a) (hab : a ≤ b) (hb : 0 < b) :
    ys + ((ye - ys) * a).tdiv b ∈ Set.uIcc ys ye := by
  rw [Set.mem_uIcc]
  obtain hrise | hfall := le_total ys ye
  · obtain ⟨h0, h1⟩ := tdiv_mul_mem (sub_nonneg.2 hrise) ha hab hb
    omega
  · obtain ⟨h0, h1⟩ := tdiv_mul_mem (sub_nonneg.2 hfall) ha hab hb
    rw [← neg_sub ys ye, neg_mul, Int.neg_tdiv]
    omega

/-- With the cursor between its nodes, EVAL lies between two node values (R267, item 1). -/
theorem Envelope.CursorOk.eval_mem_uIcc {e : Envelope} (h : e.CursorOk) (hn : 0 < e.n.val) :
    ∃ i j : Fin 25, i.val < e.n.val ∧ j.val < e.n.val ∧ e.eval.toInt ∈ Set.uIcc (e.nodeValue i) (e.nodeValue j) := by
  obtain h0 | ⟨i, j, hnext, hij, hj⟩ | ⟨hpos, hle, hlast⟩ := e.cursor_cases hn
  · refine ⟨0, 0, hn, hn, ?_⟩
    rw [eval_of_next_zero h0, toInt_u32_nodeValue]
    exact Set.left_mem_uIcc
  · refine ⟨i, j, by omega, hj, ?_⟩
    have hlow := h.lower i (by omega)
    have hhigh := h.upper j hnext.symm hj
    rw [eval_between hnext hij hj]
    split
    · rw [toInt_u32_nodeValue]
      exact Set.left_mem_uIcc
    · have hmem := interpolate_mem_uIcc (e.nodeValue i) (e.nodeValue j)
        (a := (e.tick.toNat : Int) - e.nodeTick i) (b := (e.nodeTick j : Int) - e.nodeTick i)
        (by omega) (by omega) (by omega)
      rwa [e.toInt_u32_of_mem hmem]
  · refine ⟨e.lastNode, e.lastNode, by omega, by omega, ?_⟩
    rw [eval_of_le_next hpos hle hlast, toInt_u32_nodeValue]
    exact Set.left_mem_uIcc

theorem Envelope.CursorOk.eval_bounds {e : Envelope} (h : e.CursorOk) (hn : 0 < e.n.val) {lo hi : Int}
    (hb : ∀ i : Fin 25, i.val < e.n.val → lo ≤ e.nodeValue i ∧ e.nodeValue i ≤ hi) :
    lo ≤ e.eval.toInt ∧ e.eval.toInt ≤ hi := by
  obtain ⟨i, j, hi, hj, hmem⟩ := h.eval_mem_uIcc hn
  have := hb i hi
  have := hb j hj
  rw [Set.mem_uIcc] at hmem
  omega

/-! ## EVAL at a node (R267, item 2) -/

/-- The node ticks strictly rise. -/
abbrev Envelope.TicksRise (e : Envelope) : Prop :=
  ∀ j k : Fin 25, j.val < k.val → k.val < e.n.val → e.nodeTick j < e.nodeTick k

/-- Under rising ticks the nodes are in the order of their ticks. -/
theorem Envelope.TicksRise.le_of_nodeTick_le {e : Envelope} (h : e.TicksRise) {i j : Fin 25} (hi : i.val < e.n.val)
    (hle : e.nodeTick i ≤ e.nodeTick j) : i.val ≤ j.val :=
  not_lt.1 fun hlt => hle.not_gt (h j i hlt hi)

/-- With the cursor between its nodes, only the node before it or the one at it can have its tick, and EVAL is exact
there. -/
theorem Envelope.CursorOk.eval_at_node {e : Envelope} (h : e.CursorOk) (hrise : e.TicksRise)
    {k : Fin 25} (hk : k.val < e.n.val) (ht : e.tick.toNat = e.nodeTick k) : e.eval = u32 (e.nodeValue k) := by
  obtain h0 | ⟨i, j, hnext, hij, hj⟩ | ⟨hpos, hle, hlast⟩ := e.cursor_cases (by omega)
  · have htick : e.nodeTick k = 0 := ht.symm.trans (h.zero h0)
    have hk0 : k.val ≤ (0 : Fin 25).val := hrise.le_of_nodeTick_le hk (htick ▸ Nat.zero_le _)
    obtain rfl : k = 0 := Fin.ext (Nat.le_zero.1 hk0)
    exact eval_of_next_zero h0
  · have hik : i.val ≤ k.val := hrise.le_of_nodeTick_le (by omega) (ht ▸ h.lower i (by omega))
    have hkj : k.val ≤ j.val := hrise.le_of_nodeTick_le hk (ht ▸ h.upper j hnext.symm hj)
    have hne : e.nodeTick i < e.nodeTick j := hrise i j (by omega) hj
    rw [eval_between hnext hij hj, if_neg hne.ne, ht]
    obtain hki | hki : k = i ∨ k = j := by omega
    · rw [hki, sub_self, mul_zero, Int.zero_tdiv, add_zero]
    · rw [hki, Int.mul_tdiv_cancel _ (by omega), add_sub_cancel]
  · have hlk : e.lastNode.val ≤ k.val :=
      hrise.le_of_nodeTick_le (by omega) (ht ▸ h.lower e.lastNode (by have := h.bound; omega))
    exact eval_of_le_next hpos hle (by omega)

/-! ## ADVANCE (R264) -/

theorem Envelope.overtake_of_before {e : Envelope} {tick : Nat} {nx : Fin 26} {i : Fin 25} (k : Nat)
    (hi : i.val = nx.val) (hn : i.val < e.n.val) (ht : e.nodeTick i < tick) :
    e.overtake tick (k + 1) nx = e.overtake tick k i.succ := by
  obtain ⟨i, _⟩ := i
  obtain rfl : i = nx.val := hi
  rw [overtake, dif_pos hn, if_pos ht]
  rfl

theorem Envelope.overtake_of_not_before {e : Envelope} {tick : Nat} {nx : Fin 26} (k : Nat)
    (h : ∀ i : Fin 25, i.val = nx.val → i.val < e.n.val → tick ≤ e.nodeTick i) : e.overtake tick (k + 1) nx = nx := by
  rw [overtake]
  split
  · exact if_neg (h _ rfl ‹_›).not_gt
  · rfl

/-- The loop of ADVANCE moves past nodes before the tick only, and with enough rounds it stops at one that is not. -/
theorem Envelope.overtake_passes (e : Envelope) (tick : Nat) : ∀ (k : Nat) (nx : Fin 26), e.n.val - nx.val ≤ k →
    nx.val ≤ (e.overtake tick k nx).val ∧
      (∀ i : Fin 25, nx.val ≤ i.val → i.val < (e.overtake tick k nx).val → i.val < e.n.val ∧ e.nodeTick i < tick) ∧
      ∀ i : Fin 25, i.val = (e.overtake tick k nx).val → i.val < e.n.val → tick ≤ e.nodeTick i
  | 0, nx, hk => ⟨le_rfl, fun i h h' => absurd h' h.not_gt, fun i (hi : i.val = nx.val) hn => by omega⟩
  | k + 1, nx, hk => by
    by_cases hstop : ∀ i : Fin 25, i.val = nx.val → i.val < e.n.val → tick ≤ e.nodeTick i
    · rw [overtake_of_not_before k hstop]
      exact ⟨le_rfl, fun i h h' => absurd h' h.not_gt, hstop⟩
    · push Not at hstop
      obtain ⟨j, hj, hn, ht⟩ := hstop
      have hsucc : j.succ.val = nx.val + 1 := by rw [Fin.val_succ, hj]
      obtain ⟨hle, hpassed, hat⟩ := e.overtake_passes tick k j.succ (by omega)
      rw [overtake_of_before k hj hn ht]
      refine ⟨by omega, fun i hi hlt => ?_, hat⟩
      obtain hij | hij : i = j ∨ j.succ.val ≤ i.val := by omega
      · exact hij ▸ ⟨hn, ht⟩
      · exact hpassed i hij hlt

theorem Envelope.advance_passes (e : Envelope) :
    e.next.val ≤ e.advance.next.val ∧
      (∀ i : Fin 25, e.next.val ≤ i.val → i.val < e.advance.next.val →
        i.val < e.n.val ∧ e.nodeTick i < e.advance.tick.toNat) ∧
      ∀ i : Fin 25, i.val = e.advance.next.val → i.val < e.n.val → e.advance.tick.toNat ≤ e.nodeTick i :=
  e.overtake_passes _ 25 e.next (by omega)

theorem Envelope.advance_tick_toNat (e : Envelope) : e.advance.tick.toNat = min (e.tick.toNat + 1) (2 ^ 32 - 1) :=
  tickSucc_toNat e.tick

/-! ## LOOPS (R262, R265) -/

theorem Envelope.sus_iff (e : Envelope) (released : Bool) :
    e.sus released = true ↔ e.flags.getLsbD 2 = true ∧ released = false := by
  simp [sus, susLoop]

theorem Envelope.releaseLoop_iff (e : Envelope) (mode : LoopMode) (released : Bool) :
    e.releaseLoop mode released = true ↔
      e.flags.getLsbD 1 = true ∧ (mode = .always ∨ ¬ e.sus released = true) := by
  cases mode <;> simp [releaseLoop, loop]

theorem Envelope.loops_of_sus {e : Envelope} (mode : LoopMode) {released : Bool}
    (h : e.sus released = true ∧ e.nodeTick e.se < e.tick.toNat) : e.loops mode released = e.jumpTo e.ss :=
  if_pos (by simpa using h)

theorem Envelope.loops_of_release {e : Envelope} {mode : LoopMode} {released : Bool}
    (hs : ¬ (e.sus released = true ∧ e.nodeTick e.se < e.tick.toNat))
    (h : e.releaseLoop mode released = true ∧ e.nodeTick e.le < e.tick.toNat) :
    e.loops mode released = e.jumpTo e.ls := by
  rw [loops, if_neg (by simpa using hs), if_pos (by simpa using h)]

theorem Envelope.loops_of_neither {e : Envelope} {mode : LoopMode} {released : Bool}
    (hs : ¬ (e.sus released = true ∧ e.nodeTick e.se < e.tick.toNat))
    (h : ¬ (e.releaseLoop mode released = true ∧ e.nodeTick e.le < e.tick.toNat)) : e.loops mode released = e := by
  rw [loops, if_neg (by simpa using hs), if_neg (by simpa using h)]

/-- Settles O45: EVAL by the place of the cursor, ADVANCE by what it passes, LOOPS by the loop that resets. -/
theorem envelopeCursor : Obligations.EnvelopeCursor := by
  intro e mode released sus rel
  refine ⟨Envelope.eval_of_next_zero, fun i j => Envelope.eval_between, fun i => Envelope.eval_of_le_next,
    ⟨rfl, e.advance_tick_toNat, e.advance_passes⟩, fun hsus hrel => ?_⟩
  rw [← e.sus_iff released] at hsus
  rw [hsus, ← e.releaseLoop_iff mode released] at hrel
  rw [hsus, hrel]
  exact ⟨Envelope.loops_of_sus mode, Envelope.loops_of_release, Envelope.loops_of_neither⟩

end Sys2Proof.Machine
end

section
/-! Runs of ENV.TICK from ENV.RESET on a well-formed descriptor (43_envelope_lfo.md R267). -/

namespace Sys2Proof.Machine

open Sys2Proof

/-! ## What a run keeps -/

theorem Envelope.nodes_pos {e : Envelope} (hw : e.wellFormed) : 0 < e.n.val := by
  obtain ⟨-, -, hle, -⟩ := hw
  omega

theorem SameDescriptor.lastNode {e f : Envelope} (h : SameDescriptor e f) : f.lastNode = e.lastNode := by
  simp only [Envelope.lastNode, h.n]

theorem SameDescriptor.loop {e f : Envelope} (h : SameDescriptor e f) : f.loop = e.loop := by
  rw [Envelope.loop, h.flags, ← Envelope.loop]

theorem SameDescriptor.susLoop {e f : Envelope} (h : SameDescriptor e f) : f.susLoop = e.susLoop := by
  rw [Envelope.susLoop, h.flags, ← Envelope.susLoop]

theorem SameDescriptor.ticksRise {e f : Envelope} (h : SameDescriptor e f) (he : e.TicksRise) : f.TicksRise := by
  intro j k hjk hk
  rw [h.nodeTick, h.nodeTick]
  exact he j k hjk (h.n ▸ hk)

theorem Envelope.run_restart_same (e : Envelope) (mode : LoopMode) (released : List Bool) :
    SameDescriptor e (Envelope.run mode released e.restart) :=
  e.restart_same.trans (run_same mode released _)

/-- After ENV.RESET the cursor stays between its nodes. -/
theorem Envelope.run_restart_ok {e : Envelope} (mode : LoopMode) (released : List Bool) (hw : e.wellFormed) :
    (Envelope.run mode released e.restart).CursorOk :=
  (run_keeps mode (fun f => f.wellFormed ∧ f.CursorOk)
    (fun f r ⟨hf, hok⟩ => ⟨(f.ticked_same mode r).wellFormed hf, ticked_ok mode r hf hok⟩) released _
    ⟨e.restart_same.wellFormed hw, e.restart_ok⟩).2

/-! ## The value of a tick -/

/-- LOOPS moves the cursor only. -/
theorem Envelope.loops_value (e : Envelope) (mode : LoopMode) (released : Bool) :
    (e.loops mode released).value = e.value := by
  unfold loops
  split
  · rfl
  · split <;> rfl

/-- A tick stores the value at the cursor it starts from (R271). -/
theorem Envelope.ticked_value (e : Envelope) (mode : LoopMode) (released : Bool) :
    (e.ticked mode released).value = e.eval := loops_value _ mode released

theorem Envelope.restart_value {e : Envelope} (hn : 0 < e.n.val) : e.restart.value = u32 (e.nodeValue 0) := if_pos hn

/-- Settles O41: the value after ENV.RESET is node 0's, and every tick's is EVAL at a cursor between its nodes. -/
theorem envelopeValueBounds : Obligations.EnvelopeValueBounds := by
  intro e mode released lo hi hw hb
  have hn := Envelope.nodes_pos hw
  obtain rfl | ⟨before, last, rfl⟩ := List.eq_nil_or_concat' released
  · rw [Envelope.run, Envelope.restart_value hn, e.toInt_u32_nodeValue]
    exact hb 0 hn
  · have hsame := e.run_restart_same mode before
    rw [Envelope.run_append, Envelope.ticked_value]
    refine (Envelope.run_restart_ok mode before hw).eval_bounds (hsame.n ▸ hn) fun i hi => ?_
    rw [hsame.nodeValue]
    exact hb i (hsame.n ▸ hi)

theorem Envelope.run_restart_eval_at_node {e : Envelope} (mode : LoopMode) (released : List Bool) (hw : e.wellFormed)
    (hrise : e.TicksRise) {i : Fin 25} (hi : i.val < e.n.val)
    (ht : (Envelope.run mode released e.restart).tick.toNat = e.nodeTick i) :
    (Envelope.run mode released e.restart).eval.toInt = e.nodeValue i := by
  have hsame := e.run_restart_same mode released
  rw [(run_restart_ok mode released hw).eval_at_node (hsame.ticksRise hrise) (hsame.n.symm ▸ hi)
    (ht.trans (hsame.nodeTick i).symm), hsame.nodeValue, toInt_u32_nodeValue]

/-- Settles O42: the cursor lies between its nodes, of which one has the tick. -/
theorem envelopeExactAtNodes : Obligations.EnvelopeExactAtNodes :=
  fun _ mode released _ hw hrise hi ht => Envelope.run_restart_eval_at_node mode released hw hrise hi ht

/-! ## Without loops (R267, item 3) -/

/-- Without loops a tick only advances. -/
theorem Envelope.ticked_of_no_loops {e : Envelope} (mode : LoopMode) (released : Bool) (hloop : e.loop = false)
    (hsus : e.susLoop = false) : e.ticked mode released = ({ e with value := e.eval } : Envelope).advance := by
  have hs : ({ e with value := e.eval } : Envelope).advance.sus released = false :=
    show (e.susLoop && !released) = false by rw [hsus, Bool.false_and]
  have hr : ({ e with value := e.eval } : Envelope).advance.releaseLoop mode released = false :=
    show (e.loop && _) = false by rw [hloop, Bool.false_and]
  exact loops_of_neither (by simp [hs]) (by simp [hr])

/-- Without loops TICK counts the ticks of a run, up to its bound. -/
theorem Envelope.run_tick_toNat (mode : LoopMode) : ∀ (released : List Bool) (e : Envelope), e.loop = false →
    e.susLoop = false →
    (Envelope.run mode released e).tick.toNat = min (e.tick.toNat + released.length) (2 ^ 32 - 1)
  | [], e, _, _ => by
    have := e.tick.isLt
    rw [Envelope.run, List.length_nil]
    omega
  | r :: rs, e, hloop, hsus => by
    have ih := Envelope.run_tick_toNat mode rs ({ e with value := e.eval } : Envelope).advance hloop hsus
    rw [Envelope.run, ticked_of_no_loops mode r hloop hsus, ih, advance_tick_toNat, List.length_cons]
    dsimp only
    omega

theorem Envelope.nodeTick_lt (e : Envelope) (i : Fin 25) : e.nodeTick i < 2 ^ 16 := (e.t.get i).isLt

theorem Envelope.ended_of_no_loops {e : Envelope} (released : Bool) (hloop : e.loop = false)
    (hsus : e.susLoop = false) : e.ended released = decide (e.nodeTick e.lastNode < e.tick.toNat) := by
  simp [ended, sus, hloop, hsus]

/-- Settles O43: without loops TICK is the number of ticks done, and it is compared with the last node's. -/
theorem envelopeEndsAfterLastNode : Obligations.EnvelopeEndsAfterLastNode := by
  intro e mode released r hw hrise hloop hsus
  have hn := Envelope.nodes_pos hw
  have hlt := e.nodeTick_lt e.lastNode
  have htick (rs : List Bool) : (Envelope.run mode rs e.restart).tick.toNat = min (0 + rs.length) (2 ^ 32 - 1) :=
    Envelope.run_tick_toNat mode rs e.restart hloop hsus
  refine ⟨?_, fun hlen => ?_⟩
  · have hsame := e.run_restart_same mode released
    rw [Envelope.ended_of_no_loops r (hsame.loop.trans hloop) (hsame.susLoop.trans hsus), hsame.lastNode,
      hsame.nodeTick, htick, decide_eq_decide]
    omega
  · obtain rfl | ⟨before, last, rfl⟩ := List.eq_nil_or_concat' released
    · exact absurd hlen (Nat.succ_ne_zero _).symm
    · have hbefore : before.length = e.nodeTick e.lastNode := by simpa using hlen
      rw [Envelope.run_append, Envelope.ticked_value]
      refine Envelope.run_restart_eval_at_node mode before hw hrise (Nat.sub_lt hn one_pos) ?_
      rw [htick, hbefore]
      omega

/-! ## Under a held sustain loop (R267, item 4) -/

theorem Envelope.jumpTo_tick_toNat (e : Envelope) (i : Fin 25) : (e.jumpTo i).tick.toNat = e.nodeTick i :=
  BitVec.toNat_setWidth_of_le (by decide)

/-- With the sustain loop active LOOPS leaves TICK at or before the loop's end: either loop jumps to a start that is not
after its end, and the release loop runs only while TICK is within the sustain loop. -/
theorem Envelope.loops_tick_le {e : Envelope} (mode : LoopMode) {released : Bool} (hw : e.wellFormed)
    (hsus : e.sus released = true) : (e.loops mode released).tick.toNat ≤ e.nodeTick e.se := by
  obtain ⟨hmono, hls, hle, hss, hse, -⟩ := hw
  by_cases hs : e.sus released = true ∧ e.nodeTick e.se < e.tick.toNat
  · rw [loops_of_sus mode hs, jumpTo_tick_toNat]
    exact hmono e.ss e.se hss hse
  · have hin : e.tick.toNat ≤ e.nodeTick e.se := not_lt.1 fun h => hs ⟨hsus, h⟩
    by_cases hr : e.releaseLoop mode released = true ∧ e.nodeTick e.le < e.tick.toNat
    · rw [loops_of_release hs hr, jumpTo_tick_toNat]
      exact ((hmono e.ls e.le hls hle).trans hr.2.le).trans hin
    · rwa [loops_of_neither hs hr]

theorem Envelope.sus_held {e : Envelope} (h : e.susLoop = true) : e.sus false = true := (e.sus_iff false).2 ⟨h, rfl⟩

theorem Envelope.ticked_tick_le {e : Envelope} (mode : LoopMode) (hw : e.wellFormed) (hsus : e.susLoop = true) :
    (e.ticked mode false).tick.toNat ≤ e.nodeTick e.se :=
  loops_tick_le (e := ({ e with value := e.eval } : Envelope).advance) mode hw (sus_held hsus)

theorem Envelope.ended_of_sus {e : Envelope} {released : Bool} (h : e.sus released = true) : e.ended released = false := by
  simp [ended, h]

/-- Settles O44: before the first tick TICK is 0, and every held tick leaves it within the loop. -/
theorem sustainLoopHolds : Obligations.SustainLoopHolds := by
  intro e mode k hw hsus
  have hsame := e.run_restart_same mode
  refine ⟨?_, Envelope.ended_of_sus (Envelope.sus_held ((hsame _).susLoop.trans hsus))⟩
  cases k with
  | zero => exact Nat.zero_le _
  | succ k =>
    have hrun := hsame (List.replicate k false)
    rw [List.replicate_succ', Envelope.run_append, ← hrun.se, ← hrun.nodeTick]
    exact Envelope.ticked_tick_le mode (hrun.wellFormed hw) (hrun.susLoop.trans hsus)

end Sys2Proof.Machine
end

section
/-! The envelope and fade commands (43_envelope_lfo.md R266, R268, R270 to R275). -/

namespace Sys2Proof.Machine

open Sys2Proof

/-! ## The envelope commands -/

theorem State.emit_emit (s : State) (w w' : Word) :
    (s.emit w).emit w' = { s with responses := s.responses ++ [w, w'] } := by
  simp [emit]

/-- A command with a voice and a selector that name an existing envelope or LFO runs on it. -/
theorem withVoice_withSel_run {v : VoiceIx} {s : State} {c : Voice} (i : Fin 3) (k : Voice → Fin 3 → Out)
    (h : s.voice? v = some c) : (withVoice v s fun c => withSel (selOfIndex i) s (k c)) = k c i := by
  rw [withVoice_some _ h, withSel_selOfIndex]

theorem Envelope.restart_eq (e : Envelope) :
    e.restart = { e with
      tick := 0#32, next := 0
      value := if e.n.val = 0 then 0#32 else BitVec.ofInt 32 ((e.y.get 0).toInt * 256) } := by
  rw [restart, ← ite_not]
  simp only [Nat.pos_iff_ne_zero, not_not]
  rfl

theorem Envelope.running_iff (e : Envelope) : e.running = true ↔ e.flags.getLsbD 0 = true ∧ 0 < e.n.val := by
  simp [running, on]

theorem Envelope.ended_iff (e : Envelope) (released : Bool) :
    e.ended released = true ↔ ¬ (e.flags.getLsbD 2 = true ∧ released = false) ∧ e.flags.getLsbD 1 = false ∧
      e.nodeTick e.lastNode < e.tick.toNat := by
  rw [← e.sus_iff released]
  simp [ended, loop, and_assoc]

theorem exec_envTick_idle {s : State} {v : VoiceIx} {c : Voice} {i : Fin 3} (h : s.voice? v = some c)
    (hidle : ¬ (c.envs.get i).running = true) :
    exec (.envTick v (selOfIndex i)) s =
      .next { s with responses := s.responses ++ [(c.envs.get i).value, 0#32] } := by
  rw [exec, execEnvTick, withVoice_withSel_run i _ h]
  dsimp only
  rw [if_neg hidle, State.emit_emit]

theorem exec_envTick_run {s : State} {v : VoiceIx} {c : Voice} {i : Fin 3} {e : Envelope} (h : s.voice? v = some c)
    (hrun : (c.envs.get i).running = true) (he : (c.envs.get i).ticked s.params.loopMode c.released = e) :
    exec (.envTick v (selOfIndex i)) s =
      .next { s.setVoice v (c.envTicked s.params.loopMode i) with
        responses := s.responses ++ [e.value, wordOfBool (e.ended c.released)] } := by
  subst he
  rw [exec, execEnvTick, withVoice_withSel_run i _ h]
  dsimp only
  rw [if_pos hrun, State.emit_emit]
  rfl

/-- The volume envelope's end sets FADING, and nothing clears it (R266). -/
theorem Voice.envTicked_eq (c : Voice) (mode : LoopMode) (i : Fin 3) {e : Envelope} {ended : Bool}
    (he : (c.envs.get i).ticked mode c.released = e) (hended : e.ended c.released = ended) :
    c.envTicked mode i = { c with
      envs := c.envs.set i e
      fading := if ended = true ∧ i = 0 then true else c.fading } := by
  subst he hended
  have hfading (b : Bool) : (c.fading || (b && i == 0)) = if b = true ∧ i = 0 then true else c.fading := by
    by_cases hi : i = 0
    · cases b <;> simp [hi]
    · simp [hi]
  rw [envTicked, hfading]

/-- Settles O46: a running ENV.TICK emits the value its tick stores, and its end as a word. -/
theorem envelopeCommands : Obligations.EnvelopeCommands := by
  intro s v c i e e' ended h hget
  subst hget
  refine ⟨?_, withVoice_withSel_run i _ h, fun k => updateVoice_some _ h, fun hidle => exec_envTick_idle h ?_,
    fun hon hn he hended => ?_⟩
  · rw [← Envelope.restart_eq]
    exact withVoice_withSel_run i _ h
  · rw [Envelope.running_iff]
    rintro ⟨hon, hn⟩
    rcases hidle with hoff | hnone
    · exact absurd (hon.symm.trans hoff) (by decide)
    · exact hn.ne' hnone
  · have hticked : (c.envs.get i).ticked s.params.loopMode c.released = e' := he.symm
    have hvalue : e'.value = (c.envs.get i).eval := hticked ▸ Envelope.ticked_value _ _ _
    have hend : e'.ended c.released = ended := by
      have hsame := hticked ▸ (c.envs.get i).ticked_same s.params.loopMode c.released
      rw [Bool.eq_iff_iff, Envelope.ended_iff, hended, hsame.flags, hsame.nodeTick, hsame.lastNode]
    rw [exec_envTick_run h ((Envelope.running_iff _).2 ⟨hon, hn⟩) hticked,
      Voice.envTicked_eq c _ i hticked hend, hvalue, hend, wordOfBool]

/-! ## The fade commands -/

theorem Stage.cut_eq (st : Stage) : st.cut = if st.toNat ≤ 2 then .cutRequested else st := by cases st <;> rfl

theorem Voice.fadeTick_idle {c : Voice} (h : c.fading = false ∨ c.fade = 0#32) : c.fadeTick = c := by
  refine if_neg ?_
  rcases h with h | h <;> simp [h]

/-- While FADING is set FADE falls, and the cut is requested where it reaches 0 (R275). -/
theorem Voice.fadeTick_run {c : Voice} {f : Word} (hfading : c.fading = true) (hfade : c.fade ≠ 0#32)
    (hf : f.toNat = c.fade.toNat - c.fadeRate.toNat) :
    c.fadeTick = { c with
      fade := f
      declick := { c.declick with
        stage := if f = 0#32 ∧ c.declick.stage.toNat ≤ 2 then .cutRequested else c.declick.stage } } := by
  have hpos : 0 < c.fade.toNat := Nat.pos_of_ne_zero fun h => hfade (BitVec.eq_of_toNat_eq h)
  have hword : wordOfNat (c.fade.toNat - c.fadeRate.toNat) = f := by
    rw [← hf, wordOfNat, BitVec.ofNat_toNat, BitVec.setWidth_eq]
  have hzero : c.fade.toNat - c.fadeRate.toNat = 0 ↔ f = 0#32 := by rw [← hf, ← BitVec.toNat_inj]; rfl
  rw [fadeTick, if_pos (by simp [hfading, hpos])]
  dsimp only
  rw [hword]
  by_cases h0 : f = 0#32
  · rw [if_pos (hzero.2 h0), Stage.cut_eq]
    simp only [h0, true_and]
  · rw [if_neg (mt hzero.1 h0), if_neg fun h => h0 h.1]

theorem exec_fadeTick {s : State} {v : VoiceIx} {c : Voice} (h : s.voice? v = some c) :
    exec (.fadeTick v) s = .next ((s.setVoice v c.fadeTick).emit c.fadeTick.fade) := withVoice_some _ h

/-- Settles O47: FADE.TICK off, at 0, and counting down. -/
theorem fadeCommands : Obligations.FadeCommands := by
  intro s v c f h
  refine ⟨updateVoice_some _ h, fun hidle => ?_, fun hfading hfade hf => ?_⟩
  · rw [exec_fadeTick h, Voice.fadeTick_idle hidle, State.setVoice_voice?_id h]
    rfl
  · rw [exec_fadeTick h, Voice.fadeTick_run hfading hfade hf]
    rfl

end Sys2Proof.Machine
end

section
/-! The LFOs (43_envelope_lfo.md R281 to R287). -/

namespace Sys2Proof.Machine

open Sys2Proof

/-! ## The waveforms (R281, R283) -/

theorem wave_sine (p : BitVec 8) : wave .sine p = sineTab p.toNat := rfl

theorem wave_square (p : BitVec 8) : wave .square p = if p.toNat < 128 then 64 else -64 := rfl

theorem wave_sawtooth (p : BitVec 8) : wave .sawtooth p = 64 - p.toNat / 2 := by
  simp [wave]

theorem wave_triangle (p : BitVec 8) :
    wave .triangle p = if p.toNat < 64 then (p.toNat : Int) else if p.toNat < 192 then 128 - (p.toNat : Int) else
      (p.toNat : Int) - 256 := rfl

/-- The first quarter of the sine table is the printed one. -/
theorem printedSine_getElem? {n : Nat} (h : n < 64) : printedSine[n]? = some (sineTab n) := by
  simp [← map_sineTab_range, h]

theorem sineTab_of_mirrored {n : Nat} (h : 64 < n) (h' : n < 128) : sineTab n = sineTab (128 - n) := by
  have hmirror := sineTab_mirror ⟨n - 64, by omega⟩
  rwa [Nat.add_sub_cancel' h.le, show 64 - (n - 64) = 128 - n by omega] at hmirror

theorem sineTab_of_half_le {n : Nat} (h : 128 ≤ n) (h' : n < 256) : sineTab n = -sineTab (n - 128) := by
  have hhalf := sineTab_half ⟨n - 128, by omega⟩
  rwa [Nat.add_sub_cancel' h] at hhalf

theorem sineTab_quarter_bounds (n : Fin 65) : 0 ≤ sineTab n.val ∧ sineTab n.val ≤ 64 := by
  revert n
  decide

theorem sineTab_half_bounds {n : Nat} (h : n < 128) : 0 ≤ sineTab n ∧ sineTab n ≤ 64 := by
  obtain hfirst | hsecond := le_or_gt n 64
  · exact sineTab_quarter_bounds ⟨n, by omega⟩
  · rw [sineTab_of_mirrored hsecond h]
    exact sineTab_quarter_bounds ⟨128 - n, by omega⟩

theorem sineTab_bounds {n : Nat} (h : n < 256) : -64 ≤ sineTab n ∧ sineTab n ≤ 64 := by
  obtain hfirst | hsecond := lt_or_ge n 128
  · have := sineTab_half_bounds hfirst
    omega
  · have := sineTab_half_bounds (n := n - 128) (by omega)
    rw [sineTab_of_half_le hsecond h]
    omega

/-- Every waveform stays in -64..64. -/
theorem wave_bounds (sh : Shape) (p : BitVec 8) : -64 ≤ wave sh p ∧ wave sh p ≤ 64 := by
  have hp := p.isLt
  cases sh with
  | sine => exact sineTab_bounds hp
  | square => rw [wave_square]; split <;> decide
  | sawtooth => rw [wave_sawtooth]; omega
  | triangle => rw [wave_triangle]; omega

/-- Settles O48: the commands as they run, the sinusoid by the symmetries of its table, the others by their segments. -/
theorem lfoCommands : Obligations.LfoCommands := by
  refine ⟨fun s v c i l h hget => ?_, fun p => ?_⟩
  · subst hget
    exact ⟨withVoice_withSel_run i _ h, withVoice_withSel_run i _ h⟩
  · have hp := p.isLt
    refine ⟨fun sh => wave_bounds sh p, wave_sine p, printedSine_getElem?, ?_, fun h h' => ?_, fun h => ?_,
      fun h => if_pos h, fun h => if_neg h.not_gt, wave_sawtooth p, fun h => if_pos h, fun h h' => ?_, fun h => ?_⟩
    · rintro rfl
      rfl
    · rw [wave_sine, sineTab_of_mirrored h h']
      exact printedSine_getElem? (by omega)
    · have hsub : (p - 128#8).toNat = p.toNat - 128 := BitVec.toNat_sub_of_le h
      rw [wave_sine, wave_sine, hsub, sineTab_of_half_le h hp]
    · rw [wave_triangle, if_neg h.not_gt, if_pos h']
    · rw [wave_triangle, if_neg (by omega), if_neg h.not_gt]

/-! ## Runs of an LFO (R284) -/

/-- A number of ticks adds that multiple of SPEED to POS, modulo 256. -/
theorem Lfo.advance_iterate (l : Lfo) (k : Nat) :
    Lfo.advance^[k] l = { l with pos := l.pos + BitVec.ofNat 8 (k * l.speed.toNat) } := by
  induction k with
  | zero => simp
  | succ k ih =>
    rw [Function.iterate_succ_apply', ih, advance]
    simp [add_mul, add_assoc, BitVec.ofNat_add]

theorem Lfo.output_natAbs_le (l : Lfo) : l.output.natAbs ≤ 64 * l.depth.toNat := by
  obtain ⟨hlow, hhigh⟩ := wave_bounds l.shape l.pos
  rw [output, Int.natAbs_mul, Int.natAbs_natCast]
  exact Nat.mul_le_mul_right _ (by omega)

/-- Settles O49: a stopped LFO adds 0, and 256 / SPEED ticks add 256. -/
theorem lfoProperties : Obligations.LfoProperties := by
  intro l
  refine ⟨fun hstop k => ?_, fun _ hdvd => ?_, l.output_natAbs_le⟩
  · rw [Lfo.advance_iterate, hstop]
    simp [Lfo.output]
  · rw [Lfo.advance_iterate, Nat.div_mul_cancel hdvd]
    exact BitVec.add_zero l.pos

end Sys2Proof.Machine
end

section
/-! The declick ramp and the declick commands (44_declick.md R300 to R309): one ramp step on volumes, DCK.STEP by stage,
and what a run of DCK.STEPs does to a side. -/

namespace Sys2Proof.Machine

open Sys2Proof

/-! ## The ramp step on numbers (R301) -/

/-- A ramp step lands on the number nearest to the target within `δ` of where it starts. -/
theorem rampToward_eq_clamp (δ c t : Nat) : rampToward δ c t = min (max t (c - δ)) (c + δ) := by
  unfold rampToward
  split <;> omega

theorem approach_eq_rampToward (c t δ : Nat) : approach c t δ = rampToward δ c t := by
  rw [approach, rampToward_eq_clamp]
  split
  · omega
  · split <;> omega

theorem rampToward_le_max (δ c t : Nat) : rampToward δ c t ≤ max c t := by
  rw [rampToward_eq_clamp]
  omega

theorem rampToward_zero (c t : Nat) : rampToward 0 c t = c := by
  rw [rampToward_eq_clamp]
  omega

theorem rampToward_self (δ c : Nat) : rampToward δ c c = c := by
  rw [rampToward_eq_clamp]
  omega

/-- Two ramp steps toward one target are one step of their summed size. -/
theorem rampToward_rampToward (δ ε c t : Nat) : rampToward ε (rampToward δ c t) t = rampToward (δ + ε) c t := by
  simp only [rampToward_eq_clamp]
  omega

theorem rampToward_sub_natAbs_le (δ c t : Nat) : ((rampToward δ c t : Int) - c).natAbs ≤ δ := by
  rw [rampToward_eq_clamp]
  omega

theorem rampToward_of_distance_le {δ c t : Nat} (h : ((t : Int) - c).natAbs ≤ δ) : rampToward δ c t = t := by
  rw [rampToward_eq_clamp]
  omega

theorem rampToward_between (δ c t : Nat) :
    (c ≤ t → c ≤ rampToward δ c t ∧ rampToward δ c t ≤ t) ∧ (t ≤ c → t ≤ rampToward δ c t ∧ rampToward δ c t ≤ c) := by
  rw [rampToward_eq_clamp]
  omega

/-! ## The ramp step on volumes -/

/-- A ramp step stays between the volume and its target, so 19 bits hold it (R300). -/
theorem approachVol_toNat (δ : Nat) (c t : BitVec 19) :
    (approachVol δ c t).toNat = rampToward δ c.toNat t.toNat := by
  have hle := rampToward_le_max δ c.toNat t.toNat
  rw [approachVol, approach_eq_rampToward, BitVec.toNat_ofNat]
  exact Nat.mod_eq_of_lt (hle.trans_lt (max_lt c.isLt t.isLt))

/-- Both sides of a pair of volumes after one ramp step. -/
def rampSides (δ : Nat) (cur t : Sides (BitVec 19)) : Sides (BitVec 19) :=
  ⟨approachVol δ cur.left t.left, approachVol δ cur.right t.right⟩

theorem rampSides_get_toNat (δ : Nat) (cur t : Sides (BitVec 19)) (x : Side) :
    ((rampSides δ cur t).get x).toNat = rampToward δ (cur.get x).toNat (t.get x).toNat := by
  cases x <;> exact approachVol_toNat _ _ _

theorem zeroVolumes_get_toNat (x : Side) : ((⟨0#19, 0#19⟩ : Sides (BitVec 19)).get x).toNat = 0 := by
  cases x <;> rfl

/-! ## DCK.STEP by stage (R305) -/

section
variable {d : Declick} (δ : Nat)

theorem Declick.step_of_silent (h : d.stage = .silent) :
    d.step δ = { d with cur := ⟨0#19, 0#19⟩, stage := .rampingIn } := by
  rw [step, h]

theorem Declick.step_of_rampingIn (h : d.stage = .rampingIn) :
    d.step δ = { d with
      cur := rampSides δ d.cur d.tgt
      stage := if rampSides δ d.cur d.tgt = d.tgt then .steady else .rampingIn } := by
  rw [step, h]
  rfl

theorem Declick.step_of_steady (h : d.stage = .steady) : d.step δ = { d with cur := rampSides δ d.cur d.tgt } := by
  rw [step, h]
  rfl

theorem Declick.step_of_cutRequested (h : d.stage = .cutRequested) :
    d.step δ = { d with
      cur := rampSides δ d.cur ⟨0#19, 0#19⟩
      stage := if rampSides δ d.cur ⟨0#19, 0#19⟩ = ⟨0#19, 0#19⟩ then .rampedOut else .cutRequested } := by
  rw [step, h]
  rfl

theorem Declick.step_of_rampedOut (h : d.stage = .rampedOut) : d.step δ = d := by
  rw [step, h]

theorem Declick.step_of_dead (h : d.stage = .dead) : d.step δ = d := by
  rw [step, h]

end

theorem Declick.step_tgt (d : Declick) (δ : Nat) : (d.step δ).tgt = d.tgt := by
  unfold step
  split <;> rfl

/-! ## The declick multiply (R302) -/

/-- A volume as a word is not negative. -/
theorem toInt_setWidth_volume (g : BitVec 19) : (g.setWidth 32).toInt = g.toNat := by
  have hg := g.isLt
  rw [BitVec.toInt_setWidth]
  exact Int.bmod_eq_of_le (by omega) (by omega)

theorem applyGain_eq_highProduct (x : Word) (g : BitVec 19) :
    applyGain x g = highProduct (x <<< 4) (g.setWidth 32 <<< 12) := by
  rw [applyGain, ← toInt_setWidth_volume, ← sword, mulsc_sword, u32_toInt]

theorem highProduct_gain_toInt {x : Word} (hx : x.toInt.natAbs < 2 ^ 27) (g : BitVec 19) :
    (highProduct (x <<< 4) (g.setWidth 32 <<< 12)).toInt = x.toInt * g.toNat / 2 ^ 16 := by
  have hg := toInt_setWidth_volume g
  rw [highProduct_mulsc_toInt hx (by rw [hg]; exact g.isLt), hg]

theorem exec_dckStep {s : State} {v : VoiceIx} {c : Voice} (xl xr : Word) (h : s.voice? v = some c) :
    exec (.dckStep v xl xr) s =
      .next { s.setVoice v { c with declick := c.declick.step s.rampDelta.toNat } with
        responses := s.responses ++
          [highProduct (xl <<< 4) ((c.declick.step s.rampDelta.toNat).cur.left.setWidth 32 <<< 12),
           highProduct (xr <<< 4) ((c.declick.step s.rampDelta.toNat).cur.right.setWidth 32 <<< 12)] } := by
  rw [exec, execDckStep, withVoice_some _ h]
  simp only [State.emit_emit, applyGain_eq_highProduct, State.setVoice_responses]

/-- Settles O50: the multiply is that of MULSC, and each stage has its equation of the step. -/
theorem declickStep : Obligations.DeclickStep := by
  refine ⟨fun x g hx => highProduct_gain_toInt hx g, fun s v c xl xr h => ?_⟩
  refine ⟨_, exec_dckStep xl xr h, Declick.step_tgt _ _, ?_⟩
  split
  next hst =>
    rw [Declick.step_of_silent _ hst]
    exact ⟨rfl, rfl⟩
  next hst =>
    rw [Declick.step_of_rampingIn _ hst]
    exact ⟨rampSides_get_toNat _ _ _, rfl⟩
  next hst =>
    rw [Declick.step_of_steady _ hst]
    exact ⟨rampSides_get_toNat _ _ _, hst⟩
  next hst =>
    rw [Declick.step_of_cutRequested _ hst]
    exact ⟨fun x => by rw [rampSides_get_toNat, zeroVolumes_get_toNat], rfl⟩
  next hst => exact Declick.step_of_rampedOut _ hst
  next hst => exact Declick.step_of_dead _ hst

/-! ## Runs of DCK.STEP (R309) -/

/-- The volumes that DCK.STEP heads for: TGT in stages 1 and 2, 0 in stage 3 (and at once in stage 0); in stages 4 and 5
it stays. -/
def Declick.goal (d : Declick) : Sides (BitVec 19) :=
  match d.stage with
  | .rampingIn | .steady => d.tgt
  | .silent | .cutRequested => ⟨0#19, 0#19⟩
  | .rampedOut | .dead => d.cur

theorem Declick.goal_of_ramping {d : Declick} (h : d.stage = .rampingIn ∨ d.stage = .steady) : d.goal = d.tgt := by
  rcases h with h | h <;> simp only [goal, h]

theorem Declick.goal_of_cutRequested {d : Declick} (h : d.stage = .cutRequested) : d.goal = ⟨0#19, 0#19⟩ := by
  simp only [goal, h]

theorem Declick.goal_of_stopped {d : Declick} (h : d.stage = .rampedOut ∨ d.stage = .dead) : d.goal = d.cur := by
  rcases h with h | h <;> simp only [goal, h]

/-- Except from stage 0, DCK.STEP is one ramp step of each side toward its goal. -/
theorem Declick.step_cur_toNat {d : Declick} (h : d.stage ≠ .silent) (δ : Nat) (x : Side) :
    ((d.step δ).cur.get x).toNat = rampToward δ (d.cur.get x).toNat (d.goal.get x).toNat := by
  cases hst : d.stage with
  | silent => exact absurd hst h
  | rampingIn =>
    rw [step_of_rampingIn δ hst, goal_of_ramping (.inl hst)]
    exact rampSides_get_toNat _ _ _ _
  | steady =>
    rw [step_of_steady δ hst, goal_of_ramping (.inr hst)]
    exact rampSides_get_toNat _ _ _ _
  | cutRequested =>
    rw [step_of_cutRequested δ hst, goal_of_cutRequested hst]
    exact rampSides_get_toNat _ _ _ _
  | rampedOut => rw [step_of_rampedOut δ hst, goal_of_stopped (.inl hst), rampToward_self]
  | dead => rw [step_of_dead δ hst, goal_of_stopped (.inr hst), rampToward_self]

/-- The goal stays when a stage ends: stage 2 keeps TGT, and stage 4 is entered with both sides at 0. -/
theorem Declick.step_goal {d : Declick} (h : d.stage ≠ .silent) (δ : Nat) : (d.step δ).goal = d.goal := by
  cases hst : d.stage with
  | silent => exact absurd hst h
  | rampingIn =>
    rw [step_of_rampingIn δ hst, goal_of_ramping (.inl hst)]
    exact goal_of_ramping (ite_eq_or_eq _ _ _).symm
  | steady =>
    rw [step_of_steady δ hst, goal_of_ramping (.inr hst)]
    exact goal_of_ramping (.inr hst)
  | cutRequested =>
    rw [step_of_cutRequested δ hst, goal_of_cutRequested hst]
    split
    next hzero => exact hzero
    next => rfl
  | rampedOut => rw [step_of_rampedOut δ hst]
  | dead => rw [step_of_dead δ hst]

/-- DCK.STEP never lowers STAGE. -/
theorem Declick.stage_le_step (d : Declick) (δ : Nat) : d.stage.toNat ≤ (d.step δ).stage.toNat := by
  cases hst : d.stage with
  | silent => exact Nat.zero_le _
  | rampingIn => rw [step_of_rampingIn δ hst]; dsimp only; split <;> decide
  | steady => rw [step_of_steady δ hst, hst]
  | cutRequested => rw [step_of_cutRequested δ hst]; dsimp only; split <;> decide
  | rampedOut => rw [step_of_rampedOut δ hst, hst]
  | dead => rw [step_of_dead δ hst, hst]

theorem Stage.ne_silent_iff (st : Stage) : st ≠ .silent ↔ 1 ≤ st.toNat := by
  cases st <;> decide

/-- Except from stage 0, `n` ramp steps are one of `n` times the size. -/
theorem Declick.iterate_step_cur_toNat (δ : Nat) (x : Side) (n : Nat) : ∀ {d : Declick}, d.stage ≠ .silent →
    (((fun d' : Declick => d'.step δ)^[n] d).cur.get x).toNat =
      rampToward (n * δ) (d.cur.get x).toNat (d.goal.get x).toNat := by
  induction n with
  | zero =>
    intro d _
    rw [Nat.zero_mul, rampToward_zero]
    rfl
  | succ n ih =>
    intro d h
    have hnext : (d.step δ).stage ≠ .silent :=
      (Stage.ne_silent_iff _).2 (((Stage.ne_silent_iff _).1 h).trans (d.stage_le_step δ))
    rw [Function.iterate_succ_apply, ih hnext, step_cur_toNat h, step_goal h, rampToward_rampToward, Nat.add_comm,
      Nat.succ_mul]

theorem distance_le_of_ceilDiv_le {m δ n : Nat} (hδ : 1 ≤ δ) (h : (m + δ - 1) / δ ≤ n) : m ≤ n * δ := by
  rw [← Nat.ceilDiv_eq_add_pred_div, ceilDiv_le_iff_le_mul hδ] at h
  rwa [Nat.mul_comm]

/-- Settles O51: every run of steps is one ramp step toward the goal. -/
theorem rampBounds : Obligations.RampBounds := by
  refine ⟨fun s t v c c' xl xr x hv ho ht hst => ?_, fun d δ n x start target hδ hstart hstage => ?_⟩
  · rw [exec_dckStep xl xr hv] at ho
    cases ho
    cases (State.setVoice_voice?_self _ hv).symm.trans ht
    rw [Declick.step_cur_toNat hst]
    exact rampToward_sub_natAbs_le _ _ _
  · have hgoal : d.stage ≠ .silent ∧ (d.goal.get x).toNat = target := by
      rcases hstage with ⟨hst, htgt⟩ | ⟨hst, rfl⟩
      · exact ⟨by rcases hst with h | h <;> simp [h], by rw [Declick.goal_of_ramping hst, htgt]⟩
      · exact ⟨by simp [hst], by rw [Declick.goal_of_cutRequested hst, zeroVolumes_get_toNat]⟩
    obtain ⟨hst, htarget⟩ := hgoal
    rw [Declick.iterate_step_cur_toNat δ x n hst, hstart, htarget]
    exact ⟨fun hn => rampToward_of_distance_le (distance_le_of_ceilDiv_le hδ hn), rampToward_between _ _ _⟩

/-! ## The other commands (R304, R306 to R308) -/

/-- A stored target is the operand clamped to 0..VOL_MAX. -/
theorem volumeOfWord_toNat (w : Word) : ((volumeOfWord w).toNat : Int) = min (max w.toInt 0) 0x7FFFF := by
  simp only [volumeOfWord, clamp, sword, Config.volMax, BitVec.toNat_ofInt]
  omega

theorem volumeOfWord_eq {w : Word} {g : BitVec 19} (h : (g.toNat : Int) = min (max w.toInt 0) 0x7FFFF) :
    volumeOfWord w = g :=
  BitVec.eq_of_toNat_eq (Int.ofNat_inj.1 ((volumeOfWord_toNat w).trans h.symm))

theorem Stage.housekeep_of_ne {st : Stage} (h : st ≠ .rampedOut) : st.housekeep = st := by
  cases st with
  | rampedOut => exact absurd rfl h
  | silent | rampingIn | steady | cutRequested | dead => rfl

theorem exec_dckHk {s : State} {v : VoiceIx} {c : Voice} (h : s.voice? v = some c) :
    exec (.dckHk v) s =
      .next ((s.setVoice v { c with declick := { c.declick with stage := c.declick.stage.housekeep } }).emit
        (wordOfNat c.declick.stage.housekeep.toNat)) := withVoice_some _ h

/-- Settles O53: the clamp as volumes store it, the cut and housekeeping by stage. -/
theorem declickCommands : Obligations.DeclickCommands := by
  intro s v c h
  refine ⟨fun l r tl tr hl hr => ?_, ?_, updateVoice_some _ h, fun hst => ?_, fun hst => ?_⟩
  · rw [← volumeOfWord_eq hl, ← volumeOfWord_eq hr]
    exact updateVoice_some _ h
  · rw [← Stage.cut_eq]
    exact updateVoice_some _ h
  · rw [exec_dckHk h, hst]
    rfl
  · rw [exec_dckHk h, Stage.housekeep_of_ne hst, State.setVoice_voice?_id h]
    rfl

end Sys2Proof.Machine
end

section
/-! No command but DCK.RETRIG and VC.RESET lowers a STAGE (44_declick.md R310): first what changes a stage at all, then
the checks, then the commands. -/

namespace Sys2Proof.Machine

open Sys2Proof

/-! ## The operations on a stage -/

theorem Stage.le_cut (st : Stage) : st.toNat ≤ st.cut.toNat := by cases st <;> decide

theorem Stage.le_housekeep (st : Stage) : st.toNat ≤ st.housekeep.toNat := by cases st <;> decide

/-- FADE.TICK changes the stage by the cut alone (43_envelope_lfo.md R275). -/
theorem Voice.stage_le_fadeTick (c : Voice) : c.declick.stage.toNat ≤ c.fadeTick.declick.stage.toNat := by
  unfold fadeTick
  split
  · dsimp only
    split
    · exact c.declick.stage.le_cut
    · exact le_rfl
  · exact le_rfl

/-- REG.WR stores no stage (10_state.md R55). -/
theorem writeVoice_stage (c : Voice) (r : VReg) (w : Word) : (writeVoice c r w).declick.stage = c.declick.stage := by
  cases r <;> rfl

/-! ## The answers that lower no stage -/

/-- An answer to a command from `s` in which no voice has a lower STAGE than in `s`. -/
def NoStageFalls (s : State) (o : Out) : Prop :=
  ∀ t v c c', o = .next t → s.voice? v = some c → t.voice? v = some c' → c.declick.stage.toNat ≤ c'.declick.stage.toNat

/-- A next state with the same voices. -/
theorem NoStageFalls.same {s t : State} (h : t.voices = s.voices) : NoStageFalls s (.next t) := by
  rintro _ v c c' ⟨⟩ hv hv'
  rw [State.voice?, h, ← State.voice?, hv] at hv'
  cases hv'
  exact le_rfl

/-- A next state in which one voice was stored, with no lower stage. -/
theorem NoStageFalls.stored {s t : State} {v : VoiceIx} {c c' : Voice} (hv : s.voice? v = some c)
    (h : t.voices = (s.setVoice v c').voices) (hle : c.declick.stage.toNat ≤ c'.declick.stage.toNat) :
    NoStageFalls s (.next t) := by
  rintro _ u b b' ⟨⟩ hu hu'
  rw [State.voice?, h, ← State.voice?] at hu'
  by_cases huv : u = v
  · subst huv
    rw [State.setVoice_voice?_self c' hv] at hu'
    cases hv.symm.trans hu
    cases hu'
    exact hle
  · rw [State.setVoice_voice?_ne s c' huv, hu] at hu'
    cases hu'
    exact le_rfl

theorem NoStageFalls.raised (s : State) (e : ErrCode) : NoStageFalls s (.next (s.raise e)) := .same rfl

theorem NoStageFalls.emitted (s : State) (w : Word) : NoStageFalls s (.next (s.emit w)) := .same rfl

theorem NoStageFalls.withVoice {s : State} (v : VoiceIx) {k : Voice → Out}
    (hk : ∀ c, s.voice? v = some c → NoStageFalls s (k c)) : NoStageFalls s (withVoice v s k) := by
  cases hv : s.voice? v with
  | none => exact withVoice_none k hv ▸ .raised s .voice
  | some c => exact withVoice_some k hv ▸ hk c hv

theorem NoStageFalls.withSide {s : State} (lane : LaneSel) {k : Side → Out} (hk : ∀ x, NoStageFalls s (k x)) :
    NoStageFalls s (withSide lane s k) := by
  cases lane with
  | left => exact hk .left
  | right => exact hk .right
  | both | reserved => exact .raised s .lane

theorem NoStageFalls.withSel {s : State} (sel : Sel) {k : Fin 3 → Out} (hk : ∀ j, NoStageFalls s (k j)) :
    NoStageFalls s (withSel sel s k) := by
  cases sel with
  | s0 => exact hk 0
  | s1 => exact hk 1
  | s2 => exact hk 2
  | reserved => exact .raised s .sel

/-- A command on one voice that lowers no stage. -/
theorem NoStageFalls.updateVoice (s : State) (v : VoiceIx) {f : Voice → Voice}
    (hf : ∀ c, c.declick.stage.toNat ≤ (f c).declick.stage.toNat) : NoStageFalls s (updateVoice v s f) :=
  .withVoice v fun c hc => .stored hc rfl (hf c)

/-- The lane commands touch no stage (41_resampler.md R177). -/
theorem NoStageFalls.updateLanes (s : State) (v : VoiceIx) (lane : LaneSel) (f : Lane → Lane) :
    NoStageFalls s (updateLanes v lane s f) := by
  refine .withVoice v fun c hc => ?_
  cases lane with
  | left | right | both => exact .stored hc rfl le_rfl
  | reserved => exact .raised s .lane

theorem NoStageFalls.fillThenEmit (s : State) (v : VoiceIx) (lane : LaneSel) (f : Lane → Word) :
    NoStageFalls s (fillThenEmit v lane s f) :=
  .withVoice v fun _ hc => .withSide lane fun _ => .stored hc rfl le_rfl

/-! ## The commands -/

theorem execRsDup_noStageFalls (s : State) (v : VoiceIx) (lane : LaneSel) (srcVoice : VoiceIx) (srcLane : Side) :
    NoStageFalls s (execRsDup v lane srcVoice srcLane s) := by
  refine .withVoice v fun c hc => ?_
  cases lane with
  | left | right | both => exact .withVoice srcVoice fun _ _ => .stored hc rfl le_rfl
  | reserved => exact .raised s .lane

theorem execRegRd_noStageFalls (s : State) (v : VoiceIx) (idx : BitVec 12) : NoStageFalls s (execRegRd v idx s) := by
  unfold execRegRd
  split
  · split <;> exact .same rfl
  · refine .withVoice v fun c _ => ?_
    split <;> exact .same rfl

theorem writeGlobal_voices (s : State) (r : GReg) (w : Word) : (writeGlobal s r w).voices = s.voices := by
  cases r <;> rfl

theorem execRegWr_noStageFalls (s : State) (v : VoiceIx) (idx : BitVec 12) (w : Word) :
    NoStageFalls s (execRegWr v idx w s) := by
  unfold execRegWr
  split
  · split
    · exact .raised s .reg
    · split
      · exact .raised s .ro
      · exact .same (writeGlobal_voices _ _ _)
  · refine .withVoice v fun c hc => ?_
    split
    · exact .raised s .reg
    · split
      · exact .raised s .ro
      · exact .stored hc rfl (writeVoice_stage c _ w ▸ le_rfl)

/-- No command but DCK.RETRIG and VC.RESET lowers a stage, of any voice. -/
theorem exec_noStageFalls {i : Instr} (s : State) (hretrig : ∀ v, i ≠ .dckRetrig v) (hreset : ∀ v, i ≠ .vcReset v) :
    NoStageFalls s (exec i s) := by
  cases i with
  | nop | mulsc | mulscv | mulsca | mulsc16 | lerp | aclr | aadd | amac | ard => exact .same rfl
  | rsInit v lane | rsClear v lane | rsSetq v lane | rsSetrate v lane | rsWrite v lane | rsWritef v lane
  | rsRemove v lane => exact .updateLanes s v lane _
  | rsFree v lane | rsReady v lane => exact .withVoice v fun _ _ => .withSide lane fun _ => .emitted s _
  | rsCount v lane =>
    rw [exec, execRsCount]
    exact .fillThenEmit s v lane _
  | rsGet v lane =>
    rw [exec, execRsGet]
    exact .fillThenEmit s v lane _
  | rsGetf v lane =>
    rw [exec, execRsGetf]
    exact .fillThenEmit s v lane _
  | rsDup v lane srcVoice srcLane => exact execRsDup_noStageFalls s v lane srcVoice srcLane
  | flCoef v | flSetc v | flReset v | flEn v | envRelease v | fadeStart v | dckSettgt v =>
    exact .updateVoice s v fun _ => le_rfl
  | flRun v lane x =>
    refine .withVoice v fun c hc => .withSide lane fun y => ?_
    split
    · exact .stored hc rfl le_rfl
    · exact .emitted s x
  | envReset v sel | lfoReset v sel | lfoTick v sel =>
    exact .withVoice v fun _ hc => .withSel sel fun _ => .stored hc rfl le_rfl
  | envRead v sel => exact .withVoice v fun _ _ => .withSel sel fun _ => .emitted s _
  | envTick v sel =>
    refine .withVoice v fun c hc => .withSel sel fun j => ?_
    dsimp only
    split
    · exact .stored hc rfl le_rfl
    · exact .same rfl
  | fadeTick v => exact .withVoice v fun c hc => .stored hc rfl c.stage_le_fadeTick
  | dckStep v => exact .withVoice v fun c hc => .stored hc rfl (c.declick.stage_le_step _)
  | dckCut v => exact .updateVoice s v fun c => c.declick.stage.le_cut
  | dckRetrig v => exact absurd rfl (hretrig v)
  | dckHk v => exact .withVoice v fun c hc => .stored hc rfl c.declick.stage.le_housekeep
  | regRd v idx => exact execRegRd_noStageFalls s v idx
  | regWr v idx w => exact execRegWr_noStageFalls s v idx w
  | vcReset v => exact absurd rfl (hreset v)

/-- A write of a read-only register of a voice that exists (45_control.md R323). -/
theorem exec_regWr_readOnly {s : State} {v : VoiceIx} {c : Voice} {idx : BitVec 12} {r : VReg} (w : Word)
    (hge : 0x100 ≤ idx.toNat) (hv : s.voice? v = some c) (hr : voiceReg idx.toNat = some r) (hro : r.readOnly = true) :
    exec (.regWr v idx w) s = .next (s.raise .ro) := by
  simp only [exec, execRegWr, if_neg (Nat.not_lt.2 hge), withVoice_some _ hv, hr, if_pos hro]

/-- Settles O52: a command leaves every voice but the one it names, DCK.RETRIG and VC.RESET too, and the others lower no
stage. -/
theorem stageNeverFalls : Obligations.StageNeverFalls := by
  refine ⟨fun i s t v c c' ho hv hv' hretrig hreset => ?_, fun s v w hlt => ?_⟩
  · by_cases hnamed : i.voice? = some v
    · refine exec_noStageFalls s (fun u e => ?_) (fun u e => ?_) t v c c' ho hv hv' <;> subst e <;> cases hnamed
      · exact hretrig rfl
      · exact hreset rfl
    · rw [(exec_effect i s t ho).voice?_eq hnamed, hv] at hv'
      cases hv'
      exact le_rfl
  · obtain ⟨c, hv⟩ := State.exists_voice hlt
    exact exec_regWr_readOnly (r := .dckStage) w (by decide) hv (show voiceReg 0x700 = some .dckStage from rfl) rfl

end Sys2Proof.Machine
end

section
/-! VC.RESET puts one voice back to power-on (45_control.md R324; 70_reset_and_hazards.md R370). -/

namespace Sys2Proof.Machine

open Sys2Proof

/-- Power-on gives every voice the same state (70_reset_and_hazards.md R370). -/
theorem State.resetWith_voice? {nv : Nat} (p : Params) {v : VoiceIx} (hv : v.toNat < nv) :
    (State.resetWith nv p).voice? v = some (Voice.reset p.fadeInit) :=
  List.getElem?_replicate_of_lt hv

/-- Settles O60: the voice exists, so the voice check passes and the command stores the power-on voice. -/
theorem voiceResetIsPowerOn : Obligations.VoiceResetIsPowerOn := by
  intro s v hv
  obtain ⟨c, hc⟩ := State.exists_voice hv
  exact ⟨Voice.reset s.params.fadeInit, State.resetWith_voice? s.params hv, updateVoice_some _ hc⟩

end Sys2Proof.Machine
end

section
/-! The first failing check of a command (60_exceptions.md R341, R345): which field it is about, and that the command
then raises its error and does nothing else. -/

namespace Sys2Proof.Machine

open Sys2Proof

/-! ## Which check failed -/

/-- The voice a command reads or changes, if there is one, exists. -/
def State.HasVoiceOf (s : State) (i : Instr) : Prop := ∀ v, i.voice? = some v → ∃ c, s.voice? v = some c

/-- The check that fails first for the command `i` in the state `s`, with those of the checks before it on which the
command's answer depends (R345). -/
inductive FailedCheck (i : Instr) (s : State) : ErrCode → Prop where
  | voice {v : VoiceIx} (hi : i.voice? = some v) (hv : s.voice? v = none) : FailedCheck i s .voice
  | anyLane (hvoice : s.HasVoiceOf i) (hi : i.anyLane? = some .reserved) :
      FailedCheck i s .lane
  | oneLane (hvoice : s.HasVoiceOf i) {lane : LaneSel} (hi : i.oneLane? = some lane)
      (hlane : lane = .both ∨ lane = .reserved) : FailedCheck i s .lane
  | sel (hvoice : s.HasVoiceOf i) (hi : i.sel? = some .reserved) :
      FailedCheck i s .sel
  | source (hvoice : s.HasVoiceOf i) (hlane : i.anyLane? ≠ some .reserved)
      {v : VoiceIx} (hi : i.sourceVoice? = some v) (hv : s.voice? v = none) : FailedCheck i s .voice
  | index (hvoice : s.HasVoiceOf i) {n : Nat} (hi : i.index? = some n)
      (hres : reservedIndex n = true) : FailedCheck i s .reg
  | readOnly (hvoice : s.HasVoiceOf i) (hwrite : i.isRegWrite = true) {n : Nat}
      (hi : i.index? = some n) (hres : reservedIndex n = false) (hro : readOnlyIndex n = true) : FailedCheck i s .ro

/-- A field that holds a voice index out of range names no voice. -/
theorem exists_voice?_eq_none_of_any {o : Option VoiceIx} {s : State}
    (h : o.any (fun v => decide (s.nv ≤ v.toNat)) = true) : ∃ v, o = some v ∧ s.voice? v = none := by
  obtain ⟨v, ho, hv⟩ := (Option.any_eq_true _ _).1 h
  exact ⟨v, ho, (s.voice?_eq_none_iff v).2 (of_decide_eq_true hv)⟩

theorem State.hasVoiceOf_of_not_any {i : Instr} {s : State}
    (h : ¬ i.voice?.any (fun v => decide (s.nv ≤ v.toNat)) = true) : s.HasVoiceOf i :=
  fun v hi => State.exists_voice (by simpa [hi] using h)

/-- One case for each branch of `firstError`. -/
theorem failedCheck_of_firstError {i : Instr} {s : State} {e : ErrCode} (h : firstError i s.nv = some e) :
    FailedCheck i s e := by
  unfold firstError at h
  split_ifs at h with hvoice hlane hsel hsource hindex hro <;> cases h
  · obtain ⟨v, hi, hv⟩ := exists_voice?_eq_none_of_any hvoice
    exact .voice hi hv
  · have hhas := State.hasVoiceOf_of_not_any hvoice
    rcases hlane with hi | hi | hi
    · exact .anyLane hhas hi
    · exact .oneLane hhas hi (.inl rfl)
    · exact .oneLane hhas hi (.inr rfl)
  · exact .sel (State.hasVoiceOf_of_not_any hvoice) hsel
  · obtain ⟨v, hi, hv⟩ := exists_voice?_eq_none_of_any hsource
    exact .source (State.hasVoiceOf_of_not_any hvoice) (fun hi => hlane (.inl hi)) hi hv
  · obtain ⟨n, hi, hres⟩ := (Option.any_eq_true _ _).1 hindex
    exact .index (State.hasVoiceOf_of_not_any hvoice) hi hres
  · obtain ⟨hwrite, hany⟩ := (Bool.and_eq_true _ _).mp hro
    obtain ⟨n, hi, hro⟩ := (Option.any_eq_true _ _).1 hany
    exact .readOnly (State.hasVoiceOf_of_not_any hvoice) hwrite hi (by simpa [hi] using hindex) hro

/-! ## What the command answers then -/

/-- A command on a voice that exists, whose continuation answers the same for every voice context. -/
theorem withVoice_const {v : VoiceIx} {s : State} {k : Voice → Out} {o : Out} (hv : ∃ c, s.voice? v = some c)
    (hk : ∀ c, k c = o) : withVoice v s k = o := by
  obtain ⟨c, hc⟩ := hv
  rw [withVoice_some k hc, hk c]

/-- Every command with a VOICE field in use checks it before all else (R345). -/
theorem exec_of_no_voice {i : Instr} {s : State} {v : VoiceIx} (hi : i.voice? = some v) (hv : s.voice? v = none) :
    exec i s = .next (s.raise .voice) := by
  cases i with
  | nop | mulsc | mulscv | mulsca | mulsc16 | lerp | aclr | aadd | amac | ard => cases hi
  | rsCount | rsGet | rsGetf =>
    cases hi
    simp only [exec, execRsCount, execRsGet, execRsGetf]
    exact withVoice_none _ hv
  | rsInit | rsClear | rsSetq | rsSetrate | rsWrite | rsWritef | rsFree | rsReady | rsRemove | rsDup | flCoef | flSetc
  | flRun | flReset | flEn | envReset | envTick | envRead | envRelease | fadeStart | fadeTick | lfoReset | lfoTick
  | dckSettgt | dckStep | dckCut | dckRetrig | dckHk | vcReset => cases hi; exact withVoice_none _ hv
  | regRd _ idx | regWr _ idx =>
    obtain ⟨hge, ⟨⟩⟩ := Option.ite_none_right_eq_some.1 hi
    exact (if_neg (Nat.not_lt.2 hge)).trans (withVoice_none _ hv)

theorem exec_of_anyLane_reserved {i : Instr} {s : State} (hvoice : s.HasVoiceOf i)
    (hi : i.anyLane? = some .reserved) : exec i s = .next (s.raise .lane) := by
  cases i with
  | rsInit v | rsClear v | rsSetq v | rsSetrate v | rsWrite v | rsWritef v | rsRemove v | rsDup v =>
    cases hi
    exact withVoice_const (hvoice v rfl) fun _ => rfl
  | _ => cases hi

theorem withSide_of_invalid {lane : LaneSel} (s : State) (k : Side → Out) (h : lane = .both ∨ lane = .reserved) :
    withSide lane s k = .next (s.raise .lane) := by
  rcases h with rfl | rfl <;> rfl

theorem exec_of_oneLane_invalid {i : Instr} {s : State} (hvoice : s.HasVoiceOf i)
    {lane : LaneSel} (hi : i.oneLane? = some lane) (hlane : lane = .both ∨ lane = .reserved) :
    exec i s = .next (s.raise .lane) := by
  cases i with
  | rsFree v | rsReady v | flRun v =>
    cases hi
    exact withVoice_const (hvoice v rfl) fun _ => withSide_of_invalid s _ hlane
  | rsCount v | rsGet v | rsGetf v =>
    cases hi
    simp only [exec, execRsCount, execRsGet, execRsGetf]
    exact withVoice_const (hvoice v rfl) fun _ => withSide_of_invalid s _ hlane
  | _ => cases hi

theorem exec_of_sel_reserved {i : Instr} {s : State} (hvoice : s.HasVoiceOf i)
    (hi : i.sel? = some .reserved) : exec i s = .next (s.raise .sel) := by
  cases i with
  | envReset v | envTick v | envRead v | lfoReset v | lfoTick v =>
    cases hi
    exact withVoice_const (hvoice v rfl) fun _ => rfl
  | _ => cases hi

/-- RS.DUP checks its source voice after LANE (41_resampler.md R190). -/
theorem exec_of_no_source {i : Instr} {s : State} (hvoice : s.HasVoiceOf i)
    (hlane : i.anyLane? ≠ some .reserved) {v : VoiceIx} (hi : i.sourceVoice? = some v) (hv : s.voice? v = none) :
    exec i s = .next (s.raise .voice) := by
  cases i with
  | rsDup u lane =>
    cases hi
    refine withVoice_const (hvoice u rfl) fun _ => ?_
    cases lane with
    | left | right | both => exact withVoice_none _ hv
    | reserved => exact absurd rfl hlane
  | _ => cases hi

/-- The two register commands on a reserved index, global or of a voice that exists (10_state.md R56). -/
theorem exec_reserved_index {s : State} {v : VoiceIx} {idx : BitVec 12} (w : Word)
    (hvoice : 0x100 ≤ idx.toNat → ∃ c, s.voice? v = some c) (hres : reservedIndex idx.toNat = true) :
    exec (.regRd v idx) s = .next (s.raise .reg) ∧ exec (.regWr v idx w) s = .next (s.raise .reg) := by
  by_cases hlt : idx.toNat < 0x100
  · exact exec_reserved_global v w hlt hres
  · obtain ⟨c, hc⟩ := hvoice (Nat.not_lt.1 hlt)
    exact exec_reserved_voice w (Nat.not_lt.1 hlt) hc hres

theorem exec_of_index_reserved {i : Instr} {s : State} (hvoice : s.HasVoiceOf i)
    {n : Nat} (hi : i.index? = some n) (hres : reservedIndex n = true) : exec i s = .next (s.raise .reg) := by
  cases i with
  | regRd v => cases hi; exact (exec_reserved_index 0#32 (fun hge => hvoice v (if_pos hge)) hres).1
  | regWr v _ w => cases hi; exact (exec_reserved_index w (fun hge => hvoice v (if_pos hge)) hres).2
  | _ => cases hi

/-- A write of a read-only register, global or of a voice that exists (10_state.md R58; 45_control.md R323). -/
theorem exec_of_index_readOnly {i : Instr} {s : State} (hvoice : s.HasVoiceOf i)
    (hwrite : i.isRegWrite = true) {n : Nat} (hi : i.index? = some n) (hres : reservedIndex n = false)
    (hro : readOnlyIndex n = true) : exec i s = .next (s.raise .ro) := by
  cases i with
  | regWr v idx w =>
    cases hi
    by_cases hlt : idx.toNat < 0x100
    · obtain ⟨r, hr, hrw⟩ := globalReg_some hlt hres
      rw [exec_regWr_global v w hlt hr, if_pos (hrw.trans hro)]
    · have hge := Nat.not_lt.1 hlt
      obtain ⟨c, hc⟩ := hvoice v (if_pos hge)
      obtain ⟨r, hr, hrw⟩ := voiceReg_some hge idx.isLt hres
      exact exec_regWr_readOnly w hge hc hr (hrw.trans hro)
  | _ => cases hwrite

/-- A command raises the error of its first failing check and does nothing else (R341). -/
theorem FailedCheck.exec_eq {i : Instr} {s : State} {e : ErrCode} (h : FailedCheck i s e) :
    exec i s = .next (s.raise e) := by
  cases h with
  | voice hi hv => exact exec_of_no_voice hi hv
  | anyLane hvoice hi => exact exec_of_anyLane_reserved hvoice hi
  | oneLane hvoice hi hlane => exact exec_of_oneLane_invalid hvoice hi hlane
  | sel hvoice hi => exact exec_of_sel_reserved hvoice hi
  | source hvoice hlane hi hv => exact exec_of_no_source hvoice hlane hi hv
  | index hvoice hi hres => exact exec_of_index_reserved hvoice hi hres
  | readOnly hvoice hwrite hi hres hro => exact exec_of_index_readOnly hvoice hwrite hi hres hro

/-- Settles O9: the failed check raises its error, whose STATUS bit is read off code by code; a reserved OPC by O3. -/
theorem firstErrorChangesStatusOnly : Obligations.FirstErrorChangesStatusOnly := by
  refine ⟨fun i s e h => ?_, fun s w rest hinput => (reservedOpcodeRaisesErrOpc s w rest hinput).1⟩
  rw [(failedCheck_of_firstError h).exec_eq]
  cases e <;> rfl

end Sys2Proof.Machine
end

section
/-! Error bits are sticky: only a write of STATUS clears them (60_exceptions.md R341, R346; 10_state.md R34). -/

namespace Sys2Proof.Machine

open Sys2Proof

/-- A bit that a write of STATUS clears was written as 1 (W1C). -/
theorem getLsbD_of_clearStatus {s : State} {w : Word} {b : Nat} (hset : s.status.getLsbD b = true)
    (hclear : (s.clearStatus w).status.getLsbD b = false) : w.getLsbD b = true := by
  have hb : b < 6 := BitVec.lt_of_getLsbD hset
  simpa [statusAfterClear, hset, hb] using hclear

/-- The one answer that clears an error bit is that of a write of STATUS. -/
theorem Effect.clears_status_bit {i : Instr} {s t : State} (h : Effect i s t) {b : Nat}
    (hset : s.status.getLsbD b = true) (hclear : t.status.getLsbD b = false) :
    ∃ v w, i = .regWr v 0x000#12 w ∧ w.getLsbD b = true := by
  cases h with
  | statusCleared v w hi => exact ⟨v, w, hi, getLsbD_of_clearStatus hset hclear⟩
  | raised e => rw [raise_keeps_bits s e b hset] at hclear; cases hclear
  | answered | accSet | rampSet | voiceSet => exact absurd (hset.symm.trans hclear) nofun

/-- A step that clears an error bit runs a write of STATUS with that bit 1. -/
theorem step_clears_status_bit {s t : State} {b : Nat} (h : step s = .next t) (hset : s.status.getLsbD b = true)
    (hclear : t.status.getLsbD b = false) :
    ∃ v w rest, decode s.input = .command (.regWr v 0x000#12 w) rest ∧ w.getLsbD b = true := by
  cases hd : decode s.input with
  | command i rest =>
    rw [step_of_decode hd] at h
    obtain ⟨v, w, rfl, hw⟩ := (exec_effect i _ t h).clears_status_bit hset hclear
    exact ⟨v, w, rest, rfl, hw⟩
  | reserved opc rest =>
    rw [step, fetch, hd] at h
    cases h
    rw [takeReserved, raise_keeps_bits (consume s rest) .opc b hset] at hclear
    cases hclear
  | incomplete =>
    rw [step, fetch, hd] at h
    cases h

theorem State.clearStatus_eq (s : State) (w : Word) :
    s.clearStatus w = { s with status := s.status &&& ~~~ (w.extractLsb' 0 6) } := by
  rw [State.clearStatus, statusAfterClear, BitVec.setWidth_eq_extractLsb' (by decide)]

/-- Settles O11: the step on each answer of the decoder, the effect of the write, and VC.RESET by O60. -/
theorem onlyStatusWriteClearsErrors : Obligations.OnlyStatusWriteClearsErrors := by
  refine ⟨fun s t b h hset hclear => step_clears_status_bit h hset hclear,
    fun v w s => (exec_regWr_status v w s).trans (congrArg _ (s.clearStatus_eq w)), fun nv p => rfl,
    fun v s t hv h => ?_⟩
  obtain ⟨c, -, ho⟩ := voiceResetIsPowerOn s v hv
  cases ho.symm.trans h
  rfl

end Sys2Proof.Machine
end
